-- ==== Sys2Proof/Word.lean ====
section
/-! DEFINITION. The word types of the block: the byte of a bus transfer, the 20-bit host command word
and the 7-bit DDRAM address. Every value is unsigned (R9). -/

namespace Sys2Proof

/-- One bus transfer moves one byte (R55, R58). -/
abbrev Byte := BitVec 8

/-- The host command word `cmd_word[19:0]` (R70). -/
abbrev CommandWord := BitVec 20

/-- A DDRAM address, the width of the device's address counter (R6, R53). -/
abbrev Addr7 := BitVec 7

end Sys2Proof
end

