-- ==== Sys2Proof/Config.lean ====
section
/-! DEFINITION. What an implementation or a platform fixes (R6 to R8, R25), and the free values: opaque
constants with no body, one for each value the spec calls any value. -/

namespace Sys2Proof

/-- The device's BUSY field: how many status reads it still answers busy (R221, R225). -/
inductive Busy where
  | finite (k : Nat)
  | forever
  deriving DecidableEq, Repr, Inhabited

/-- The parameters of R7 and the device's timing figures that R288 and R289 compare them with.
Configuration, not block state (R20): the step never changes it (log 4). Cycle counts are in edges of
`clk`, `fClk` in hertz, device figures in picoseconds. -/
structure Platform where
  /-- F_CLK. -/
  fClk : Nat
  /-- C_POWERUP. -/
  cPowerup : Nat
  /-- C_SETTLE. -/
  cSettle : Nat
  /-- C_AS. -/
  cAs : Nat
  /-- C_PW_E. -/
  cPwE : Nat
  /-- C_H. -/
  cH : Nat
  /-- C_E_LOW. -/
  cELow : Nat
  /-- HAS_BOUNDED_WAIT. -/
  hasBoundedWait : Bool
  /-- PIN_MAP (R25): the physical pins of DB0..DB7, RS, RW and E, in that order. -/
  pinMap : List Nat
  /-- The device's minimum enable pulse width (R288 item 2). -/
  devPulse : Nat
  /-- The device's read data delay after E rises (R288 item 3). -/
  devReadDelay : Nat
  /-- The device's address setup time (R288 item 4). -/
  devSetup : Nat
  /-- The device's hold time (R288 item 4). -/
  devHold : Nat
  /-- The device's enable cycle time (R288 item 4). -/
  devEnableCycle : Nat
  /-- The device's power-on settling time (R289). -/
  devPowerOn : Nat
  /-- The longest wait the device needs after a timed function-set (R289). -/
  devSettle : Nat
  deriving DecidableEq, Repr

namespace Config

/-! ### Parameters fixed by the source or decided by the spec (R6, R7) -/

/-- SYNC_STAGES: flip-flops on `lcd_db_i` (R7). -/
def syncStages : Nat := 2
/-- N_COLS (R6). -/
def nCols : Nat := 16
/-- N_ROWS (R6). -/
def nRows : Nat := 2
/-- SET_DDRAM_BASE (R6). -/
def setDdramBase : Byte := 0x80
/-- LEGACY_FS_COUNT (R6). -/
def legacyFsCount : BitVec 2 := 3
/-- CLEAR_FILL: the byte a cleared DDRAM cell holds (R7, R228). -/
def clearFill : Byte := 0x20
/-- HAS_BOUNDED_WAIT as the spec decides it (R7). -/
def hasBoundedWait : Bool := true

/-! ### Opcode constants the block emits (R8) -/

/-- FS_LEGACY. -/
def fsLegacy : Byte := 0x30
/-- FS_FINAL. -/
def fsFinal : Byte := 0x38
/-- DISPLAY_OFF. -/
def displayOff : Byte := 0x08
/-- CLEAR. -/
def clear : Byte := 0x01
/-- RETURN_HOME, never emitted by the block itself. -/
def returnHome : Byte := 0x02
/-- ENTRY_INC_NOSHIFT. -/
def entryIncNoshift : Byte := 0x06
/-- DISPLAY_ON. -/
def displayOn : Byte := 0x0C

/-! ### Free values (log 3): opaque, applied to a draw number -/

/-- A bit that is any value, at a draw and a place in it. -/
opaque freeBit : Nat → Nat → Bool
/-- A byte the device answers that is any value (R226, R242). -/
opaque freeByte : Nat → Byte
/-- An address counter that is any value (R222). -/
opaque freeAddr : Nat → Addr7
/-- A busy duration that is any value (R225). -/
opaque freeBusy : Nat → Busy
/-- DDRAM contents that are any value: the byte at an address, at a draw (R222, R239). -/
opaque freeCell : Nat → Nat → Byte
/-- The level of undriven or unsettled data lines, at a draw and an edge of the gap (R40, R115). -/
opaque floatLevel : Nat → Nat → Byte
/-- By how many edges a gap between two events is longer than its lower bound (R5). -/
opaque freeStretch : Nat → Nat

/-! ### Open parameters (log 4): opaque, each meeting its constraint of R7 whatever its value -/

opaque fClkRaw : Nat
opaque cPowerupRaw : Nat
opaque cSettleRaw : Nat
opaque cAsRaw : Nat
opaque cPwERaw : Nat
opaque cHRaw : Nat
opaque cELowRaw : Nat
opaque pinMapRaw : List Nat
opaque devPulse : Nat
opaque devReadDelay : Nat
opaque devSetup : Nat
opaque devHold : Nat
opaque devEnableCycle : Nat
opaque devPowerOn : Nat
opaque devSettle : Nat

/-- A list of eleven distinct pins (R25). -/
def isPinMap (l : List Nat) : Bool := decide (l.length = 11) && decide l.Nodup

/-- The platform of `State.reset`: every open parameter is opaque (log 4). -/
def platform : Platform where
  fClk := fClkRaw + 1
  cPowerup := cPowerupRaw + 1
  cSettle := cSettleRaw + 1
  cAs := cAsRaw + 1
  cPwE := cPwERaw + (syncStages + 1)
  cH := cHRaw + 1
  cELow := cELowRaw + 1
  hasBoundedWait := hasBoundedWait
  pinMap := if isPinMap pinMapRaw then pinMapRaw else List.range 11
  devPulse := devPulse
  devReadDelay := devReadDelay
  devSetup := devSetup
  devHold := devHold
  devEnableCycle := devEnableCycle
  devPowerOn := devPowerOn
  devSettle := devSettle

end Config
end Sys2Proof
end

