-- ==== Sys2Proof/Syntax.lean ====
section
/-! DEFINITION. The instructions: the seven host commands (R72) and the nine classes of LCD
instruction-register byte (R78), one constructor for each row of the opcode table. -/

namespace Sys2Proof

/-- One constructor per row of `spec/opcode_table.json`.
The don't-care bits of an LCD byte are kept as a field `x`, so that a term stands for one byte. -/
inductive Instr where
  /-- INIT (R130). -/
  | init
  /-- CMD b8 (R164). -/
  | cmd (b8 : Byte)
  /-- PUTC b8 (R165). -/
  | putc (b8 : Byte)
  /-- STATUS (R166). -/
  | status
  /-- WAITIDLE (R167). -/
  | waitidle
  /-- GOTO x, y (R192). -/
  | goto (x y : Byte)
  /-- WAITB n (R168). -/
  | waitb (n : Byte)
  /-- `00000001`, clear display (R228). -/
  | lcdClear
  /-- `0000001x`, return home (R229). -/
  | lcdReturnHome (x : BitVec 1)
  /-- `000001IS`, entry mode set (R230). -/
  | lcdEntryMode (id s : BitVec 1)
  /-- `00001DCB`, display on/off control (R231). -/
  | lcdDisplayControl (d c b : BitVec 1)
  /-- `0001SRxx`, cursor or display shift (R232). -/
  | lcdShift (sc rl : BitVec 1) (x : BitVec 2)
  /-- `001LNFxx`, function set (R233). -/
  | lcdFunctionSet (dl n f : BitVec 1) (x : BitVec 2)
  /-- `01aaaaaa`, set CGRAM address (R234). -/
  | lcdSetCgram (acg : BitVec 6)
  /-- `1aaaaaaa`, set DDRAM address (R235). -/
  | lcdSetDdram (add : Addr7)
  /-- `00000000`, no instruction (R241). -/
  | lcdNone
  deriving DecidableEq, Repr

end Sys2Proof
end

