-- ==== Sys2Proof/WellFormed.lean ====
section
/-! DEFINITION. Which instructions are well formed, and which parameters a platform may have.
The operand widths are in the types, so the one check an instruction needs is WAITB's presence. -/

namespace Sys2Proof

/-- WAITB exists only where HAS_BOUNDED_WAIT is true (R74, R168); every other term is an instruction. -/
def Instr.wellFormed (hasBoundedWait : Bool) : Instr → Bool
  | .waitb _ => hasBoundedWait
  | .init => true
  | .cmd _ => true
  | .putc _ => true
  | .status => true
  | .waitidle => true
  | .goto _ _ => true
  | .lcdClear => true
  | .lcdReturnHome _ => true
  | .lcdEntryMode _ _ => true
  | .lcdDisplayControl _ _ _ => true
  | .lcdShift _ _ _ => true
  | .lcdFunctionSet _ _ _ _ => true
  | .lcdSetCgram _ => true
  | .lcdSetDdram _ => true
  | .lcdNone => true

/-- The constraints of R7 (column "constraint") and R25 (distinct pins, one for each of 11 roles). -/
def Platform.wellFormed (p : Platform) : Bool :=
  decide (0 < p.fClk) && decide (1 ≤ p.cPowerup) && decide (1 ≤ p.cSettle) && decide (1 ≤ p.cAs) &&
    decide (Config.syncStages + 1 ≤ p.cPwE) && decide (1 ≤ p.cH) && decide (1 ≤ p.cELow) &&
    Config.isPinMap p.pinMap

end Sys2Proof
end

