-- ==== Sys2Proof/Decode.lean ====
section
/-! DEFINITION. Decoding of the host command word (R70 to R75) and of the LCD instruction byte (R78,
R227), total and rejecting by name, and the encoder written from the same tables. -/

namespace Sys2Proof

/-! ### Fields -/

/-- `op = cmd_word[19:16]` (R71). -/
def opField (w : CommandWord) : BitVec 4 := w.extractLsb' 16 4
/-- `a = cmd_word[15:8]` (R71). -/
def aField (w : CommandWord) : Byte := w.extractLsb' 8 8
/-- `b = cmd_word[7:0]` (R71). -/
def bField (w : CommandWord) : Byte := w.extractLsb' 0 8
/-- A command word from its three fields (R70). -/
def packWord (op : BitVec 4) (a b : Byte) : CommandWord := op ++ a ++ b

/-! ### Host commands -/

/-- Why a word is illegal (R253). -/
inductive DecodeError where
  /-- `op` = 0x0 or 0x8 to 0xF (R74). -/
  | reservedOpcode
  /-- A field that must be zero is not (R73). -/
  | reservedField
  /-- `op` = 0x7 where HAS_BOUNDED_WAIT is false (R74). -/
  | boundedWaitAbsent
  deriving DecidableEq, Repr

/-- The opcode map of R72 with its reserved fields (R73), reserved opcodes and WAITB's presence (R74). -/
def decodeFields (hasBoundedWait : Bool) (op : BitVec 4) (a b : Byte) : Except DecodeError Instr :=
  match op.toNat with
  | 1 => if a = 0 ∧ b = 0 then .ok .init else .error .reservedField
  | 2 => if b = 0 then .ok (.cmd a) else .error .reservedField
  | 3 => if b = 0 then .ok (.putc a) else .error .reservedField
  | 4 => if a = 0 ∧ b = 0 then .ok .status else .error .reservedField
  | 5 => if a = 0 ∧ b = 0 then .ok .waitidle else .error .reservedField
  | 6 => .ok (.goto a b)
  | 7 =>
    if hasBoundedWait then (if b = 0 then .ok (.waitb a) else .error .reservedField)
    else .error .boundedWaitAbsent
  | _ => .error .reservedOpcode

/-- Decode a host command word; total (R75). -/
def decodeCommand (hasBoundedWait : Bool) (w : CommandWord) : Except DecodeError Instr :=
  decodeFields hasBoundedWait (opField w) (aField w) (bField w)

/-! ### LCD instruction bytes -/

/-- The one case distinction of an instruction byte, first match from the top bit down (R227), over
which both the decoder and the device's reaction are written. -/
def lcdCase {α : Type} (setDdram : Addr7 → α) (setCgram : BitVec 6 → α)
    (functionSet : BitVec 1 → BitVec 1 → BitVec 1 → BitVec 2 → α)
    (shift : BitVec 1 → BitVec 1 → BitVec 2 → α)
    (displayControl : BitVec 1 → BitVec 1 → BitVec 1 → α) (entryMode : BitVec 1 → BitVec 1 → α)
    (returnHome : BitVec 1 → α) (clear : α) (none : α) (v : Byte) : α :=
  let bit (i : Nat) : BitVec 1 := v.extractLsb' i 1
  if v.getLsbD 7 then setDdram (v.extractLsb' 0 7)
  else if v.getLsbD 6 then setCgram (v.extractLsb' 0 6)
  else if v.getLsbD 5 then functionSet (bit 4) (bit 3) (bit 2) (v.extractLsb' 0 2)
  else if v.getLsbD 4 then shift (bit 3) (bit 2) (v.extractLsb' 0 2)
  else if v.getLsbD 3 then displayControl (bit 2) (bit 1) (bit 0)
  else if v.getLsbD 2 then entryMode (bit 1) (bit 0)
  else if v.getLsbD 1 then returnHome (bit 0)
  else if v.getLsbD 0 then clear
  else none

/-- Decode an instruction-register byte; every byte is one of the nine classes (R78). -/
def decodeLcd (v : Byte) : Instr :=
  lcdCase .lcdSetDdram .lcdSetCgram .lcdFunctionSet .lcdShift .lcdDisplayControl .lcdEntryMode
    .lcdReturnHome .lcdClear .lcdNone v

/-! ### Both -/

/-- The words of an instruction: a host command word, or a byte on the instruction register. -/
inductive Encoded where
  | command (w : CommandWord)
  | lcdByte (v : Byte)
  deriving DecidableEq, Repr

/-- Decode either kind of word. -/
def decode (hasBoundedWait : Bool) : Encoded → Except DecodeError Instr
  | .command w => decodeCommand hasBoundedWait w
  | .lcdByte v => .ok (decodeLcd v)

/-- The words of an instruction, from the tables of R72 and R78. -/
def encode : Instr → Encoded
  | .init => .command (packWord 0x1 0 0)
  | .cmd b8 => .command (packWord 0x2 b8 0)
  | .putc b8 => .command (packWord 0x3 b8 0)
  | .status => .command (packWord 0x4 0 0)
  | .waitidle => .command (packWord 0x5 0 0)
  | .goto x y => .command (packWord 0x6 x y)
  | .waitb n => .command (packWord 0x7 n 0)
  | .lcdClear => .lcdByte 0b00000001#8
  | .lcdReturnHome x => .lcdByte (0b0000001#7 ++ x)
  | .lcdEntryMode id s => .lcdByte (0b000001#6 ++ id ++ s)
  | .lcdDisplayControl d c b => .lcdByte (0b00001#5 ++ d ++ c ++ b)
  | .lcdShift sc rl x => .lcdByte (0b0001#4 ++ sc ++ rl ++ x)
  | .lcdFunctionSet dl n f x => .lcdByte (0b001#3 ++ dl ++ n ++ f ++ x)
  | .lcdSetCgram acg => .lcdByte (0b01#2 ++ acg)
  | .lcdSetDdram add => .lcdByte (0b1#1 ++ add)
  | .lcdNone => .lcdByte 0b00000000#8

/-! ### The opcode table's rows -/

/-- A row of the opcode table: its width in bits, and its `match` and `mask`. -/
structure TableRow where
  width : Nat
  pattern : Nat
  mask : Nat
  deriving DecidableEq, Repr

/-- The row an instruction belongs to, as `spec/opcode_table.json` gives it. -/
def tableRow : Instr → TableRow
  | .init => ⟨20, 0x10000, 0xFFFFF⟩
  | .cmd _ => ⟨20, 0x20000, 0xF00FF⟩
  | .putc _ => ⟨20, 0x30000, 0xF00FF⟩
  | .status => ⟨20, 0x40000, 0xFFFFF⟩
  | .waitidle => ⟨20, 0x50000, 0xFFFFF⟩
  | .goto _ _ => ⟨20, 0x60000, 0xF0000⟩
  | .waitb _ => ⟨20, 0x70000, 0xF00FF⟩
  | .lcdClear => ⟨8, 0x01, 0xFF⟩
  | .lcdReturnHome _ => ⟨8, 0x02, 0xFE⟩
  | .lcdEntryMode _ _ => ⟨8, 0x04, 0xFC⟩
  | .lcdDisplayControl _ _ _ => ⟨8, 0x08, 0xF8⟩
  | .lcdShift _ _ _ => ⟨8, 0x10, 0xF0⟩
  | .lcdFunctionSet _ _ _ _ => ⟨8, 0x20, 0xE0⟩
  | .lcdSetCgram _ => ⟨8, 0x40, 0xC0⟩
  | .lcdSetDdram _ => ⟨8, 0x80, 0x80⟩
  | .lcdNone => ⟨8, 0x00, 0xFF⟩

/-- The rows of the host commands (R72). -/
def commandRows : List TableRow :=
  [⟨20, 0x10000, 0xFFFFF⟩, ⟨20, 0x20000, 0xF00FF⟩, ⟨20, 0x30000, 0xF00FF⟩, ⟨20, 0x40000, 0xFFFFF⟩,
   ⟨20, 0x50000, 0xFFFFF⟩, ⟨20, 0x60000, 0xF0000⟩, ⟨20, 0x70000, 0xF00FF⟩]

/-- A word matches a row: `(word & mask) = match` (R75). -/
def TableRow.matches (r : TableRow) (w : Nat) : Bool := w &&& r.mask == r.pattern

/-- The bits of an encoded instruction as one number, and how many they are. -/
def Encoded.bits : Encoded → Nat × Nat
  | .command w => (20, w.toNat)
  | .lcdByte v => (8, v.toNat)

/-- The instruction the decoder reads from the bits `w` of an opcode-table row of `nbits` bits: eight
bits are an LCD instruction byte, more are a host command word (whole bytes: 24 for 20). -/
def decodeTableWord (nbits w : Nat) : Option Instr :=
  if nbits ≤ 8 then (if w < 2 ^ 8 then some (decodeLcd (BitVec.ofNat 8 w)) else none)
  else if w < 2 ^ 20 then
    (match decodeCommand Config.hasBoundedWait (BitVec.ofNat 20 w) with
     | .ok i => some i
     | .error _ => none)
  else none

end Sys2Proof
end

