-- ==== Sys2Proof/Machine/State.lean ====
section
/-! DEFINITION. The state of the machine: the block's registers (R28 to R35), the attached device
(R221), the observation (R5) and the inputs the environment still holds; and its value at reset. -/

namespace Sys2Proof.Machine

/-! ### Enumerations (R12, R28, R76) -/

/-- Data-line direction: Output = 1, Input = 0 on `lcd_db_oe` (R12, R29). -/
inductive Direction where
  | output
  | input
  deriving DecidableEq, Repr

/-- Register-select: Instruction = 0, Data = 1 (R12). -/
inductive RegSel where
  | instruction
  | data
  deriving DecidableEq, Repr

/-- Read/write: Write = 0, Read = 1 (R12). -/
inductive ReadWrite where
  | write
  | read
  deriving DecidableEq, Repr

/-- The initialization state machine's states; the codes 5 to 7 are never written (R28). -/
inductive DrvState where
  | uninitialized
  | resetting
  | functionSet
  | configured
  | ready
  deriving DecidableEq, Repr

/-- Response codes; 5 to 7 are never produced (R76). -/
inductive RspCode where
  | ok
  | errRange
  | errIllegal
  | errState
  | errTimeout
  deriving DecidableEq, Repr

/-- The two lengths a settle delay can have (R110). -/
inductive DelayLength where
  | powerup
  | settle
  deriving DecidableEq, Repr

/-- What DCNT is counting (R33, log 20): a pulse, a hold or a delay, for which every event waits (R105, R106,
R110), or the wait of a strobe for C_AS and C_E_LOW, for which a `Data` on its way does not (R105, R107). -/
inductive DcntUse where
  | hold
  | setup
  deriving DecidableEq, Repr

/-! ### The sequencer's steps (R32) -/

/-- One step of a command's program. The first group are the micro-operations that append a bus event
(R102 to R114); the second group are the steps folded into the edge of the next event (log 17). -/
inductive Micro where
  /-- `EnableCtl()` (R114). -/
  | enableCtl
  /-- `SetDir(d)` (R102). -/
  | setDir (d : Direction)
  /-- `SetCtl(rs, rw)` (R103). -/
  | setCtl (rs : RegSel) (rw : ReadWrite)
  /-- `DriveDB(v)` (R104). -/
  | driveDB (v : Byte)
  /-- The rising edge of `Strobe()` (R105). -/
  | strobeUp
  /-- The falling edge of `Strobe()` (R105). -/
  | strobeDown
  /-- The rising edge of `StrobeSample()` (R106). -/
  | sampleUp
  /-- The sampling falling edge of `StrobeSample()` (R106). -/
  | sampleDown
  /-- `Delay(P)`, its `Wait(P)` event (R110). -/
  | delay (p : DelayLength)
  /-- The end of a `Delay(P)`: the device has had the time (R225, log 12). -/
  | delayEnd (p : DelayLength)
  /-- `DRV_STATE <- d` (R131). -/
  | setDrv (d : DrvState)
  /-- `RCNT <- 0` (R130). -/
  | clearRcnt
  /-- `RCNT <- RCNT + 1` (R130). -/
  | incRcnt
  /-- `while RCNT != 3` around a legacy function-set (R134). -/
  | legacyTest
  /-- `WaitIdle`'s test of the byte just polled (R160). -/
  | pollAgain
  /-- `PCNT <- n` (R168). -/
  | setPcnt (n : Byte)
  /-- WAITB's count and test after a poll (R168). -/
  | boundedTest
  /-- The end of INIT, after which the device is known only under DelaySufficient (R289, log 13). -/
  | initEnd
  deriving DecidableEq, Repr

/-- The `Respond` a program ends with (R27): a fixed code and byte; OK with the byte last sampled; or
WAITB's answer, decided by the byte last sampled (R168). -/
inductive Finish where
  | done (code : RspCode) (data : Byte)
  | sampled
  | bounded
  deriving DecidableEq, Repr

/-- SEQ (R32): IDLE, DECODE, or the steps that are left of the program being run. -/
inductive Seq where
  | idle
  | decode
  | running (todo : List Micro) (fin : Finish)
  deriving DecidableEq, Repr

/-! ### Observation (R5) -/

/-- An event on the LCD pins (R100). -/
inductive Event where
  | enCtl
  | dir (d : Direction)
  | ctl (rs : RegSel) (rw : ReadWrite)
  | data (v : Byte)
  | eUp
  | eDown
  | eDownSample (v : Byte)
  | wait (p : DelayLength)
  deriving DecidableEq, Repr

/-- A response on the host interface (R27). -/
structure Response where
  code : RspCode
  data : Byte
  deriving DecidableEq, Repr

/-- What the host does at a step (R22, R26, R280, R194); log 16. -/
inductive HostAct where
  /-- Offers a command word until it is accepted. -/
  | offer (w : CommandWord)
  /-- Offers a command word only if the last response was OK, else drops it (R194). -/
  | offerIfOk (w : CommandWord)
  /-- Offers nothing at this step. -/
  | quiet
  /-- Holds `rst` = 1 at this edge. -/
  | reset
  deriving DecidableEq, Repr

/-! ### The attached device (R221) -/

/-- What the cells that are not listed hold: CLEAR_FILL after a clear, or any value (log 7). -/
inductive Background where
  | cleared
  | unknown (draw : Nat)
  deriving DecidableEq, Repr

/-- The device's DDRAM, a map from 7-bit addresses to bytes (R221): the listed cells over a
background. -/
structure Memory where
  background : Background
  cells : List Host.Cell
  deriving DecidableEq, Repr

/-- The byte an unlisted address reads as. -/
def Memory.unlisted (m : Memory) (a : Nat) : Byte :=
  match m.background with
  | .cleared => Config.clearFill
  | .unknown n => Config.freeCell n a

/-- Addresses strictly rising and above `lo`. -/
def Memory.risingFrom : Option Nat → List Host.Cell → Bool
  | _, [] => true
  | lo, (a, _) :: r => (lo.all (· < a)) && Memory.risingFrom (some a) r

/-- The canonical form: addresses strictly rising, each of 7 bits, no cell equal to the background. -/
def Memory.wf (m : Memory) : Bool :=
  Memory.risingFrom none m.cells &&
    m.cells.all fun c => decide (c.1 < 2 ^ 7) && (c.2 != m.unlisted c.1)

/-- The device's fields (R221). `seqPos` is the model's own: how many events of the reset by instruction
the device has seen, 0 outside it (R239, log 10). -/
structure Device where
  if8 : Bool
  n2 : Bool
  f10 : Bool
  d : Bool
  c : Bool
  b : Bool
  id : Bool
  s : Bool
  ac : Addr7
  ddram : Memory
  busy : Busy
  unmodelled : Bool
  seqPos : Nat
  deriving DecidableEq, Repr

/-- A device of which every field is any value, but for UNMODELLED and the place in the reset sequence
(R222, R242). -/
def Device.any (draw : Nat) (unmodelled : Bool) : Device where
  if8 := Config.freeBit draw 0
  n2 := Config.freeBit draw 1
  f10 := Config.freeBit draw 2
  d := Config.freeBit draw 3
  c := Config.freeBit draw 4
  b := Config.freeBit draw 5
  id := Config.freeBit draw 6
  s := Config.freeBit draw 7
  ac := Config.freeAddr draw
  ddram := ⟨.unknown draw, []⟩
  busy := Config.freeBusy draw
  unmodelled := unmodelled
  seqPos := 0

/-- The device agent: the device and its draws. A draw is the next one the environment has listed, or,
where it has listed none, a free value at the counter `free` (R225, R226, log 3). -/
structure Lcd where
  device : Device
  busyDraws : List Busy
  byteDraws : List Byte
  free : Nat
  deriving DecidableEq, Repr

/-! ### Stops -/

/-- Why the machine stops with a fault. -/
inductive Fault where
  /-- A `require` of a transport micro-operation does not hold (R113). Raised by the micro-operations of
  `Machine/Transport.lean`, in no state that meets the invariant. Safe: the spec has the model stop. -/
  | transportPrecondition
  deriving DecidableEq, Repr

/-- Why the model gives an instruction no meaning. -/
inductive Refusal where
  /-- No meaning written; raised by no arm of `exec` now. Safe. -/
  | notModelled (mnemonic : String)
  deriving DecidableEq, Repr

/-! ### The state -/

/-- The whole machine. -/
structure State where
  /-- DRV_STATE (R28). -/
  drvState : DrvState
  /-- DIR (R29). -/
  dir : Direction
  /-- RS (R30). -/
  rs : RegSel
  /-- RW (R30). -/
  rw : ReadWrite
  /-- E (R30). -/
  e : Bool
  /-- CTL_OE (R30). -/
  ctlOe : Bool
  /-- DB_OUT (R31). -/
  dbOut : Byte
  /-- SYNC_0 (R31). -/
  sync0 : Byte
  /-- SYNC_1 (R31). -/
  sync1 : Byte
  /-- DB_IN (R31). -/
  dbIn : Byte
  /-- SEQ (R32). -/
  seq : Seq
  /-- DCNT (R33). -/
  dcnt : Nat
  /-- What DCNT is counting: the model's own (log 20). -/
  dcntUse : DcntUse
  /-- RCNT (R33). -/
  rcnt : BitVec 2
  /-- PCNT (R33). -/
  pcnt : Byte
  /-- CMD_OP (R34). -/
  cmdOp : BitVec 4
  /-- CMD_A (R34). -/
  cmdA : Byte
  /-- CMD_B (R34). -/
  cmdB : Byte
  /-- RSP_VALID (R35). -/
  rspValid : Bool
  /-- RSP_CODE (R35). -/
  rspCode : RspCode
  /-- RSP_DATA (R35). -/
  rspData : Byte
  /-- The attached device (R221). -/
  lcd : Lcd
  /-- The platform's parameters (R7), constant (log 4). -/
  platform : Platform
  /-- What the host does from here on, first act first (R22). -/
  host : List HostAct
  /-- The event trace (R100), newest first, each event with its edge. -/
  trace : List (Nat × Event)
  /-- The responses given (R5), newest first. -/
  responses : List Response
  /-- The index of the latest edge of `clk` (R100). -/
  cycle : Nat
  /-- The edge of the last `Ctl` event (R105, log 20). -/
  lastCtl : Option Nat
  /-- The edge of the last `EDown` or `EDownSample` event (R105, R111, log 20). -/
  lastFall : Option Nat
  /-- By how much the environment stretches the next gaps (R5, log 15). -/
  stretches : List Nat
  /-- The counter of the block-side free values (log 3). -/
  free : Nat
  /-- How many further events a step carries out after its first (log 1). -/
  pace : Nat
  deriving DecidableEq, Repr

/-- The device at power-on: any value, UNMODELLED false (R222). -/
def Lcd.powerOn : Lcd where
  device := Device.any 0 false
  busyDraws := []
  byteDraws := []
  free := 1

/-- The machine right after reset (R39), its device just powered on (R222). -/
def State.reset : State where
  drvState := .uninitialized
  dir := .input
  rs := .instruction
  rw := .write
  e := false
  ctlOe := false
  dbOut := 0x00
  sync0 := Config.floatLevel 0 0
  sync1 := Config.floatLevel 0 1
  dbIn := 0x00
  seq := .idle
  dcnt := 0
  dcntUse := .hold
  rcnt := 0
  pcnt := 0
  cmdOp := 0
  cmdA := 0
  cmdB := 0
  rspValid := false
  rspCode := .ok
  rspData := 0x00
  lcd := Lcd.powerOn
  platform := Config.platform
  host := []
  trace := []
  responses := []
  cycle := 0
  lastCtl := none
  lastFall := none
  stretches := []
  free := 1
  pace := 0

end Sys2Proof.Machine
end

