-- ==== Sys2Proof/Machine/Flags.lean ====
section
/-! DEFINITION. Flags and levels: the status byte's busy flag and address counter (R79), and the codes
and pin levels of the enumerations (R12, R28, R76). The block keeps no flag of its own (R37). -/

namespace Sys2Proof.Machine

/-- `busy = s[7]` (R79). -/
def busyFlag (s : Byte) : Bool := s.getLsbD 7

/-- `ac = s[6:0]` (R79). -/
def addressCounter (s : Byte) : Addr7 := s.extractLsb' 0 7

/-- The status byte `{busy, ac}` (R79, R226). -/
def statusByte (busy : Bool) (ac : Addr7) : Byte := BitVec.ofBool busy ++ ac

/-- DIR on `lcd_db_oe`: Output = 1 (R12). -/
def Direction.level : Direction → Bool
  | .output => true
  | .input => false

/-- RS on `lcd_rs_o`: Data = 1 (R12). -/
def RegSel.level : RegSel → Bool
  | .instruction => false
  | .data => true

/-- RW on `lcd_rw_o`: Read = 1 (R12). -/
def ReadWrite.level : ReadWrite → Bool
  | .write => false
  | .read => true

/-- DRV_STATE on `drv_state` (R28). -/
def DrvState.code : DrvState → BitVec 3
  | .uninitialized => 0
  | .resetting => 1
  | .functionSet => 2
  | .configured => 3
  | .ready => 4

/-- RSP_CODE on `rsp_code` (R76). -/
def RspCode.code : RspCode → BitVec 3
  | .ok => 0
  | .errRange => 1
  | .errIllegal => 2
  | .errState => 3
  | .errTimeout => 4

end Sys2Proof.Machine
end

