-- ==== Sys2Proof/Machine/Operands.lean ====
section
/-! DEFINITION. Operand forms: GOTO's coordinates and the DDRAM address mapper (R190, R191), the byte a
set-address instruction carries (R78), and the device's address sequence (R235, R237). -/

namespace Sys2Proof.Machine

/-- `InRange(x, y)`: 1 <= x <= 16 and y in {1, 2}, over unsigned bytes (R191). -/
def inRange (x y : Byte) : Bool :=
  decide (1 ≤ x.toNat) && decide (x.toNat ≤ Config.nCols) && (y == 1 || y == 2)

/-- `MapXY(x, y)` (R190), on exact integers; used only where `inRange` holds. -/
def mapXY (x y : Byte) : Addr7 :=
  if y = 1 then BitVec.ofNat 7 (x.toNat - 1) else BitVec.ofNat 7 (x.toNat - 1 + 0x40)

/-- `zext_8(addr)` (R9). -/
def zext8 (a : Addr7) : Byte := a.setWidth 8

/-- The set-DDRAM-address instruction byte `0x80 | addr` (R78, R192). -/
def setAddressByte (a : Addr7) : Byte := Config.setDdramBase ||| zext8 a

/-- The DDRAM addresses of 2-line mode, 0x00 to 0x27 and 0x40 to 0x67 (R221, R235). -/
def inTwoLineMap (a : Addr7) : Bool :=
  decide (a.toNat ≤ 0x27) || (decide (0x40 ≤ a.toNat) && decide (a.toNat ≤ 0x67))

/-- `Next(AC, ID)` in 2-line mode (R237). At AC = 0x7F with increment the rule's sum has no seven-bit
value; the device does not use this one there (`Device.nextAc`). -/
def nextAddr (ac : Addr7) (increment : Bool) : Addr7 :=
  if increment then
    if ac = 0x27 then 0x40 else if ac = 0x67 then 0x00 else ac + 1
  else
    if ac = 0x40 then 0x27 else if ac = 0x00 then 0x67 else ac - 1

/-- A one-bit field read as a flag. -/
def flag (b : BitVec 1) : Bool := b == 1

end Sys2Proof.Machine
end

