-- ==== Sys2Proof/Machine/Ops.lean ====
section
/-! DEFINITION. The shared operations over the state: DDRAM cells, the passing of clock edges with the
input synchronizer, draws, responses and errors (the block's only exceptions, R250, R260), command
acceptance and reset. -/

namespace Sys2Proof

/-! ### Timing premises (R288, R289) -/

/-- `edges` cycles of the clock last at least `figure` picoseconds. -/
def Platform.covers (p : Platform) (edges figure : Nat) : Bool :=
  decide (figure * p.fClk ≤ edges * 10 ^ 12)

/-- Premise `StrobeTimingOK`: items 2 to 4 of R288, beside item 1. -/
def Platform.strobeTimingOK (p : Platform) : Bool :=
  decide (Config.syncStages + 1 ≤ p.cPwE) && p.covers p.cPwE p.devPulse &&
    p.covers (p.cPwE - Config.syncStages) p.devReadDelay && p.covers p.cAs p.devSetup &&
    p.covers p.cH p.devHold && p.covers (p.cPwE + p.cELow) p.devEnableCycle

/-- Premise `DelaySufficient` (R289). -/
def Platform.delaySufficient (p : Platform) : Bool :=
  p.covers p.cPowerup p.devPowerOn && p.covers p.cSettle p.devSettle

/-- The cycle count a delay's length stands for (R110). -/
def Platform.delayEdges (p : Platform) : Machine.DelayLength → Nat
  | .powerup => p.cPowerup
  | .settle => p.cSettle

namespace Machine

/-! ### DDRAM: `MemRead` and `MemWrite` of one byte (R11) -/

/-- The cell at an address, in a list of cells. -/
def Memory.lookup (a : Nat) : List Host.Cell → Option Byte
  | [] => none
  | (k, v) :: r => if k = a then some v else Memory.lookup a r

/-- `MemRead(addr, 1)`. -/
def Memory.read (m : Memory) (a : Addr7) : Byte :=
  (Memory.lookup a.toNat m.cells).getD (m.unlisted a.toNat)

/-- Puts a cell in its place, or takes the address's cell away. -/
def Memory.place (a : Nat) (v : Option Byte) : List Host.Cell → List Host.Cell
  | [] => (v.map fun b => (a, b)).toList
  | (k, w) :: r =>
    if k < a then (k, w) :: Memory.place a v r
    else (v.map fun b => (a, b)).toList ++ (if k = a then r else (k, w) :: r)

/-- `MemWrite(addr, 1, v)`, keeping the canonical form. -/
def Memory.write (m : Memory) (a : Addr7) (v : Byte) : Memory :=
  { m with
    cells := Memory.place a.toNat (if v = m.unlisted a.toNat then none else some v) m.cells }

/-- Every cell holds CLEAR_FILL (R228). -/
def Memory.allCleared : Memory := ⟨.cleared, []⟩

/-! ### The passing of edges -/

/-- The level of the data lines at the j-th edge of a gap in which no status is read: DB_OUT while the
block alone drives them, else any value (R40, log 8). -/
def State.lineLevel (s : State) (j : Nat) : Byte :=
  if s.dir = .output ∧ ¬ (s.e = true ∧ s.rw = .read) then s.dbOut else Config.floatLevel s.free j

/-- SYNC_0 after `g` edges of the given levels (R31). -/
def sync0After (level : Nat → Byte) (g : Nat) (s0 : Byte) : Byte :=
  match g with
  | 0 => s0
  | n + 1 => level (n + 1)

/-- SYNC_1 after `g` edges of the given levels (R31). -/
def sync1After (level : Nat → Byte) (g : Nat) (s0 s1 : Byte) : Byte :=
  match g with
  | 0 => s1
  | 1 => s0
  | n + 2 => level (n + 1)

/-- `g` edges of `clk` pass: the synchronizer samples the lines at each (R31), RSP_VALID falls (R35). -/
def State.tickWith (level : Nat → Byte) (g : Nat) (s : State) : State :=
  { s with
    cycle := s.cycle + g
    sync0 := sync0After level g s.sync0
    sync1 := sync1After level g s.sync0 s.sync1
    rspValid := false
    free := s.free + 1 }

/-- `g` edges pass outside a read strobe. -/
def State.tick (g : Nat) (s : State) : State := s.tickWith s.lineLevel g

/-- By how many edges the next gap is longer than its bound (R5, log 15). -/
def State.stretch (s : State) : Nat := s.stretches.headD (Config.freeStretch s.free)

/-- That stretch is used up. -/
def State.dropStretch (s : State) : State :=
  { s with stretches := s.stretches.tail, free := s.free + 1 }

/-- The edges until the next event may take effect: one, or what DCNT has left (R105, R106, R110). -/
def State.due (s : State) : Nat := max 1 s.dcnt

/-- The edges until a `Data` may take effect: it does not wait for the wait of its own strobe (R107). -/
def State.dataDue (s : State) : Nat :=
  match s.dcntUse with
  | .hold => s.due
  | .setup => 1

/-- What is left of a strobe's wait: C_AS after the last `Ctl`, and C_E_LOW and C_H after the last falling
edge (R105, R106, R111). -/
def State.setupLeft (s : State) : Nat :=
  max (s.lastCtl.elim 0 fun c => c + s.platform.cAs - s.cycle)
    (s.lastFall.elim 0 fun f => f + max s.platform.cELow s.platform.cH - s.cycle)

/-- The edges until E may rise: what DCNT has left, and no less than a strobe's wait. -/
def State.riseDue (s : State) : Nat := max s.due s.setupLeft

/-- DCNT counts a strobe's wait from here on (R33, R105, R106). -/
def State.countSetup (s : State) : State := { s with dcnt := s.setupLeft, dcntUse := .setup }

/-- The gap before the next event passes: at least `bound` edges; DCNT has counted down. -/
def State.elapse (bound : Nat) (s : State) : State :=
  { (s.dropStretch.tick (bound + s.stretch)) with dcnt := 0, dcntUse := .hold }

/-- An event is appended at the current edge (R100). -/
def State.append (ev : Event) (s : State) : State :=
  { s with trace := (s.cycle, ev) :: s.trace }

/-! ### Responses and errors -/

/-- `Respond(code, data)` at the current edge (R27). -/
def State.respond (code : RspCode) (data : Byte) (s : State) : State :=
  { s with
    rspCode := code
    rspData := data
    rspValid := true
    seq := .idle
    responses := ⟨code, data⟩ :: s.responses }

/-- `raise Err(code)`: the response `(code, 0x00)` one edge after acceptance and nothing else (R252).
The block's only exception entry; there is no return from it (R260, R261). -/
def State.raiseErr (code : RspCode) (s : State) : State := (s.tick 1).respond code 0x00

/-- The `Respond` at the end of a program, at the edge where a next piece could start (R294). -/
def State.finish (fin : Finish) (s : State) : State :=
  let s := s.elapse s.due
  match fin with
  | .done code data => s.respond code data
  | .sampled => s.respond .ok s.dbIn
  | .bounded => s.respond (if busyFlag s.dbIn then .errTimeout else .ok) s.dbIn

/-! ### Acceptance, idling and reset -/

/-- A command is accepted (R26). -/
def State.accept (w : CommandWord) (s : State) : State :=
  { s.tick 1 with cmdOp := opField w, cmdA := aField w, cmdB := bField w, seq := .decode }

/-- An edge at which the host offers nothing that is accepted. -/
def State.idleEdge (s : State) : State := s.tick 1

/-- The device loses its model: every field any value, UNMODELLED true (R242, log 9). -/
def Lcd.lose (l : Lcd) : Lcd :=
  { l with device := Device.any l.free true, free := l.free + 1 }

/-- An edge with `rst` = 1: every register takes its reset value (R39, R280). A strobe that is cut leaves
the device unmodelled, otherwise the device keeps its state (R281, R282). -/
def State.applyReset (s : State) : State :=
  { s with
    drvState := .uninitialized
    dir := .input
    rs := .instruction
    rw := .write
    e := false
    ctlOe := false
    dbOut := 0x00
    sync0 := Config.floatLevel s.free 0
    sync1 := Config.floatLevel s.free 1
    dbIn := 0x00
    seq := .idle
    dcnt := 0
    dcntUse := .hold
    rcnt := 0
    pcnt := 0
    cmdOp := 0
    cmdA := 0
    cmdB := 0
    rspValid := false
    rspCode := .ok
    rspData := 0x00
    lcd := if s.e then s.lcd.lose else s.lcd
    cycle := s.cycle + 1
    free := s.free + 1 }

end Machine
end Sys2Proof
end

