-- ==== Sys2Proof/Machine/Device.lean ====
section
/-! DEFINITION. The attached device (44_lcd_device.md): its reaction to every instruction byte, to a data
write, to reads and to the end of a delay. Each LCD instruction byte has a meaning of its own; it is what
the device does when the falling edge of E latches that byte. -/

namespace Sys2Proof.Machine

/-! ### Single fields -/

/-- `BUSY <- q`. -/
def Lcd.withBusy (q : Busy) (l : Lcd) : Lcd := { l with device := { l.device with busy := q } }

/-- The place in the reset sequence is `pos`. -/
def Lcd.atPos (pos : Nat) (l : Lcd) : Lcd := { l with device := { l.device with seqPos := pos } }

/-! ### Draws (R225, R226) -/

/-- `BUSY <- k`, k a draw (R224, R225). -/
def Lcd.drawBusy (l : Lcd) : Lcd :=
  match l.busyDraws with
  | k :: r => { l.withBusy k with busyDraws := r }
  | [] => { l.withBusy (Config.freeBusy l.free) with free := l.free + 1 }

/-- A byte that is any value. -/
def Lcd.anyByte (l : Lcd) : Byte := l.byteDraws.headD (Config.freeByte l.free)

/-- That draw is used up. -/
def Lcd.dropByte (l : Lcd) : Lcd := { l with byteDraws := l.byteDraws.tail, free := l.free + 1 }

/-! ### Writes -/

/-- What a byte does to a device that accepts it: a new device, or the model loses track of it. -/
def Lcd.apply (effect : Device → Option Device) (l : Lcd) : Lcd :=
  match effect l.device with
  | some d => { l with device := d }
  | none => l.lose

/-- The device at a write's `EDown`: unmodelled it stays so, busy it becomes so (R240, R242), else it
takes the write; then `BUSY` is drawn (R224). `pos` is the new place in the reset sequence. -/
def Lcd.latch (pos : Nat) (take : Lcd → Lcd) (l : Lcd) : Lcd :=
  ((if l.device.unmodelled || l.device.busy != .finite 0 then l.lose else take l).atPos pos).drawBusy

/-- A write phase reaches the device; without StrobeTimingOK it may be lost (R288). -/
def Lcd.write (p : Platform) (pos : Nat) (take : Lcd → Lcd) (l : Lcd) : Lcd :=
  if p.strobeTimingOK then l.latch pos take
  else
    let l' := { l with free := l.free + 1 }
    if Config.freeBit l.free 8 then l' else l'.latch pos take

/-- An instruction write outside the reset sequence: a device in 4-bit mode is lost track of (R227). -/
def Lcd.instruction (effect : Device → Option Device) (p : Platform) (l : Lcd) : Lcd :=
  l.write p 0 fun l => if l.device.if8 then l.apply effect else l.lose

/-- The device latches an instruction byte with the given effect. -/
def State.deviceInstruction (effect : Device → Option Device) (s : State) : State :=
  { s with lcd := s.lcd.instruction effect s.platform }

/-! ### The LCD instruction bytes (R227 to R235, R241) -/

/-- LCD_CLEAR: every cell CLEAR_FILL, `AC <- 0`, `ID <- true`; the rest unchanged (R228). -/
def execLcdClear (s : State) : Host.Outcome State Fault Refusal :=
  .next (s.deviceInstruction fun d =>
    some { d with ddram := Memory.allCleared, ac := 0, id := true })

/-- LCD_RETURN_HOME: `AC <- 0`; DDRAM unchanged (R229). -/
def execLcdReturnHome (_x : BitVec 1) (s : State) : Host.Outcome State Fault Refusal :=
  .next (s.deviceInstruction fun d => some { d with ac := 0 })

/-- LCD_ENTRY_MODE: `ID <- v[1]`, `S <- v[0]` (R230). -/
def execLcdEntryMode (id sh : BitVec 1) (s : State) : Host.Outcome State Fault Refusal :=
  .next (s.deviceInstruction fun d => some { d with id := flag id, s := flag sh })

/-- LCD_DISPLAY_CONTROL: `D <- v[2]`, `C <- v[1]`, `B <- v[0]` (R231). -/
def execLcdDisplayControl (d c b : BitVec 1) (s : State) : Host.Outcome State Fault Refusal :=
  .next (s.deviceInstruction fun v => some { v with d := flag d, c := flag c, b := flag b })

/-- LCD_SHIFT: `UNMODELLED <- true` (R232). -/
def execLcdShift (_sc _rl : BitVec 1) (_x : BitVec 2) (s : State) :
    Host.Outcome State Fault Refusal :=
  .next (s.deviceInstruction fun _ => none)

/-- Whether a function set is the next write of the reset by instruction: 0x30 after the power-up delay
or a settle delay of the first two, 0x38 after the third (R239). -/
def continuesReset (pos : Nat) (dl n f : BitVec 1) (x : BitVec 2) : Bool :=
  dl == 1 && f == 0 && x == 0 &&
    ((n == 0 && (pos == 1 || pos == 3 || pos == 5)) || (n == 1 && pos == 7))

/-- Function set outside the reset sequence: 8-bit, 2 lines and the current font change nothing, any other
setting loses the device (R233). -/
def functionSetEffect (dl n f : BitVec 1) (d : Device) : Option Device :=
  if flag dl && flag n && (flag f == d.f10) then some d else none

/-- LCD_FUNCTION_SET: a write of the reset by instruction only moves that sequence on (R239), any other is
R233's. -/
def execLcdFunctionSet (dl n f : BitVec 1) (x : BitVec 2) (s : State) :
    Host.Outcome State Fault Refusal :=
  if continuesReset s.lcd.device.seqPos dl n f x then
    .next { s with lcd := s.lcd.write s.platform (s.lcd.device.seqPos + 1) id }
  else .next (s.deviceInstruction (functionSetEffect dl n f))

/-- LCD_SET_CGRAM: `UNMODELLED <- true` (R234). -/
def execLcdSetCgram (_acg : BitVec 6) (s : State) : Host.Outcome State Fault Refusal :=
  .next (s.deviceInstruction fun _ => none)

/-- LCD_SET_DDRAM: `AC <- a` where the device has two lines and the address is in their map, else
`UNMODELLED <- true` (R235). -/
def execLcdSetDdram (add : Addr7) (s : State) : Host.Outcome State Fault Refusal :=
  .next (s.deviceInstruction fun d =>
    if d.n2 && inTwoLineMap add then some { d with ac := add } else none)

/-- LCD_NONE_0x00: no instruction, `UNMODELLED <- true` (R241). -/
def execLcdNone (s : State) : Host.Outcome State Fault Refusal :=
  .next (s.deviceInstruction fun _ => none)

/-- The device's reaction to the byte on the instruction register (R227): the meaning of the
instruction the byte spells. -/
def latchInstruction (v : Byte) (s : State) : Host.Outcome State Fault Refusal :=
  lcdCase (fun a => execLcdSetDdram a s) (fun a => execLcdSetCgram a s)
    (fun dl n f x => execLcdFunctionSet dl n f x s) (fun sc rl x => execLcdShift sc rl x s)
    (fun d c b => execLcdDisplayControl d c b s) (fun id sh => execLcdEntryMode id sh s)
    (fun x => execLcdReturnHome x s) (execLcdClear s) (execLcdNone s) v

/-! ### Data writes (R236) -/

/-- R237 gives the next address: the device has two lines, and `AC + 1` fits seven bits. -/
def Device.nextStated (d : Device) : Bool := d.n2 && !(d.id && d.ac == 0x7F)

/-- `Next(AC, ID)` (R237) where the rule gives it; elsewhere any value, at a draw (log 24). -/
def Device.nextAc (draw : Nat) (d : Device) : Addr7 :=
  if d.nextStated then nextAddr d.ac d.id else Config.freeAddr draw

/-- `MemWrite(AC, 1, v)`, then `AC <- Next(AC, ID)`; with the display shift on, the device is lost. -/
def dataEffect (draw : Nat) (v : Byte) (d : Device) : Option Device :=
  if d.s then none
  else some { d with ddram := d.ddram.write d.ac v, ac := d.nextAc draw }

/-- A device that accepts a data byte; a draw is used up. -/
def Lcd.takeData (v : Byte) (l : Lcd) : Lcd :=
  { l.apply (dataEffect l.free v) with free := l.free + 1 }

/-- The device latches a data byte (R236; in 4-bit mode too, log 18). -/
def latchData (v : Byte) (s : State) : State :=
  { s with lcd := s.lcd.write s.platform 0 (Lcd.takeData v) }

/-! ### Reads (R226, R238) -/

/-- The answer to a status read (R226). -/
def Lcd.statusAnswer (l : Lcd) : Byte :=
  if l.device.unmodelled then l.anyByte
  else if l.device.busy = .finite 0 then statusByte false l.device.ac
  else statusByte true (addressCounter l.anyByte)

/-- BUSY counts a status read down; infinity stays infinity (R226). -/
def polled : Busy → Busy
  | .finite (k + 1) => .finite k
  | .finite 0 => .finite 0
  | .forever => .forever

/-- The device after a status read: only BUSY has changed (R226, R60). -/
def Lcd.afterStatus (l : Lcd) : Lcd :=
  if l.device.unmodelled then l.dropByte
  else if l.device.busy = .finite 0 then l
  else l.dropByte.withBusy (polled l.device.busy)

/-- The answer to a read with the given register-select; a data read is any value (R238). -/
def Lcd.answer (rs : RegSel) (l : Lcd) : Byte :=
  match rs with
  | .instruction => l.statusAnswer
  | .data => l.anyByte

/-- The device after a read; a data read loses it (R238). -/
def Lcd.afterRead (rs : RegSel) (l : Lcd) : Lcd :=
  match rs with
  | .instruction => l.afterStatus
  | .data => l.dropByte.lose

/-! ### Delays (R225, R239) -/

/-- The place in the reset sequence after a delay; 9 when the whole sequence has been seen (R239). -/
def seqPosAfterDelay (length : DelayLength) (pos : Nat) : Nat :=
  match length with
  | .powerup => 1
  | .settle => if pos = 2 ∨ pos = 4 ∨ pos = 6 ∨ pos = 8 then pos + 1 else 0

/-- What the reset by instruction leaves: `IF8`, `N2`, not `F10`, BUSY 0, UNMODELLED false, every other
field any value (R239). -/
def Device.resetByInstruction (draw : Nat) : Device :=
  { Device.any draw false with if8 := true, n2 := true, f10 := false, busy := .finite 0 }

/-- The device when a delay has ended. Under DelaySufficient its BUSY is 0 (R225), and the last delay of
the reset sequence leaves R239's state; without the premise that state is any value (R289). -/
def Lcd.afterDelay (p : Platform) (length : DelayLength) (l : Lcd) : Lcd :=
  let pos := seqPosAfterDelay length l.device.seqPos
  if pos = 9 then
    { l with
      device :=
        if p.delaySufficient then Device.resetByInstruction l.free
        else Device.any l.free (Config.freeBit l.free 8)
      free := l.free + 1 }
  else (l.atPos pos).withBusy (if p.delaySufficient then .finite 0 else l.device.busy)

/-- The device when INIT has ended: without DelaySufficient every field is any value (R289), but that an
UNMODELLED that is true stays so (R242, log 13). -/
def Lcd.afterInit (p : Platform) (l : Lcd) : Lcd :=
  if p.delaySufficient then l
  else
    { l with
      device := Device.any l.free (l.device.unmodelled || Config.freeBit l.free 8)
      free := l.free + 1 }

end Sys2Proof.Machine
end

