-- ==== Sys2Proof/Machine/Transport.lean ====
section
/-! DEFINITION. The bus transport (40_bus_transport.md): the micro-operations with their `require`s, the
phases BusWrite and BusRead, `WaitIdle`, and the sequencer that runs a program of them. A broken `require`
is the fault `transportPrecondition` (R113). -/

namespace Sys2Proof.Machine

/-! ### Programs (R107, R108, R160, R162, R163) -/

/-- `BusWrite(rs, v)` (R107). -/
def busWrite (rs : RegSel) (v : Byte) : List Micro :=
  [.setDir .output, .setCtl rs .write, .driveDB v, .strobeUp, .strobeDown]

/-- `BusRead(Instruction)`, one poll (R108). -/
def busRead : List Micro :=
  [.setDir .input, .setCtl .instruction .read, .sampleUp, .sampleDown]

/-- `WaitIdle()` (R160). -/
def waitIdle : List Micro := busRead ++ [.pollAgain]

/-- `WriteInstruction(op8)` (R162). -/
def writeInstruction (op8 : Byte) : List Micro := waitIdle ++ busWrite .instruction op8

/-- `WriteData(b8)` (R163). -/
def writeData (b8 : Byte) : List Micro := waitIdle ++ busWrite .data b8

/-- `Delay(P)` (R110). -/
def delayFor (p : DelayLength) : List Micro := [.delay p, .delayEnd p]

/-- The body of `while RCNT != 3`, with its test (R134). -/
def legacyBody : List Micro :=
  busWrite .instruction Config.fsLegacy ++ delayFor .settle ++ [.incRcnt, .legacyTest]

/-! ### Micro-operations that append an event -/

/-- What SEQ holds after an event: the rest of the program. -/
def State.goOn (rest : List Micro) (fin : Finish) (s : State) : State :=
  { s with seq := .running rest fin }

/-- Stop with the transport's fault unless its precondition holds (R113). -/
def requireThat (ok : Bool) (s : State) : Host.Outcome State Fault Refusal :=
  if ok then .next s else .fault .transportPrecondition

/-- `EnableCtl()` (R114). -/
def enableCtl (s : State) : Host.Outcome State Fault Refusal :=
  let t := s.elapse s.due
  requireThat (!s.ctlOe)
    ({ t with e := false, rs := .instruction, rw := .write, ctlOe := true }.append .enCtl)

/-- `SetDir(d)` (R102). -/
def setDir (d : Direction) (s : State) : Host.Outcome State Fault Refusal :=
  let t := s.elapse s.due
  requireThat (!s.e) ({ t with dir := d }.append (.dir d))

/-- `SetCtl(rs, rw)` (R103); the wait before the next rise of E starts with it. -/
def setCtl (rs : RegSel) (rw : ReadWrite) (s : State) : Host.Outcome State Fault Refusal :=
  let t := s.elapse s.due
  requireThat (!s.e)
    (({ t with rs := rs, rw := rw, lastCtl := some t.cycle }).countSetup.append (.ctl rs rw))

/-- `DriveDB(v)` (R104); the strobe's wait goes on. -/
def driveDB (v : Byte) (s : State) : Host.Outcome State Fault Refusal :=
  let t := s.elapse s.dataDue
  requireThat (s.dir == .output && !s.e) (({ t with dbOut := v }).countSetup.append (.data v))

/-- E rises, to be held for C_PW_E edges (R105, R106). -/
def State.raiseE (s : State) : State :=
  let t := s.elapse s.riseDue
  { t with e := true, dcnt := s.platform.cPwE, dcntUse := .hold }.append .eUp

/-- E falls, and every output is held for C_H edges (R105, R106). -/
def State.dropE (ev : Event) (s : State) : State :=
  { s with e := false, dcnt := s.platform.cH, dcntUse := .hold, lastFall := some s.cycle }.append ev

/-- `Strobe()` up to the rising edge (R105). -/
def strobeUp (s : State) : Host.Outcome State Fault Refusal :=
  requireThat (!s.e && s.dir == .output && s.rw == .write) s.raiseE

/-- The falling edge of `Strobe()`, before the device's reaction (R105). -/
def strobeFall (s : State) : Host.Outcome State Fault Refusal :=
  requireThat (s.e && s.dir == .output && s.rw == .write) ((s.elapse s.due).dropE .eDown)

/-- What the device does at `EDown`: it latches (RS, DB), if the block drives the control lines (R224). -/
def latchWrite (s : State) : Host.Outcome State Fault Refusal :=
  if s.ctlOe then
    match s.rs with
    | .instruction => latchInstruction s.dbOut s
    | .data => .next (latchData s.dbOut s)
  else .next s

/-- `StrobeSample()` up to the rising edge (R106). -/
def sampleUp (s : State) : Host.Outcome State Fault Refusal :=
  requireThat (!s.e && s.dir == .input && s.rw == .read) s.raiseE

/-- The level of the data lines `j` edges after the rising edge of a read strobe: the device's answer once
it is valid (R223, R115, R288 item 3), any value before that or without StrobeTimingOK. -/
def State.readLevel (s : State) (j : Nat) : Byte :=
  if s.ctlOe && s.platform.strobeTimingOK && s.platform.covers j s.platform.devReadDelay then
    s.lcd.answer s.rs
  else Config.floatLevel s.free j

/-- The sampling falling edge of `StrobeSample()`: `DB_IN <- SYNC_1`, the level SYNC_STAGES edges before E
falls (R106). -/
def sampleFall (s : State) : Host.Outcome State Fault Refusal :=
  let g := s.due + s.stretch
  let s1 := s.dropStretch
  let b := sync1After s1.readLevel (g - 1) s1.sync0 s1.sync1
  let t := s1.tickWith s1.readLevel g
  requireThat (s.e && s.dir == .input && s.rw == .read)
    ({ t with dbIn := b, lcd := if s.ctlOe then s.lcd.afterRead s.rs else s.lcd }.dropE
      (.eDownSample b))

/-- `Delay(P)`: `Wait(P)`, then no event for P edges (R110). -/
def startDelay (p : DelayLength) (s : State) : Host.Outcome State Fault Refusal :=
  .next
    ({ s.elapse s.due with dcnt := s.platform.delayEdges p, dcntUse := .hold }.append (.wait p))

/-! ### The sequencer -/

/-- Go on with the rest of the program after an event. -/
def continueWith (rest : List Micro) (fin : Finish) (o : Host.Outcome State Fault Refusal) :
    Host.Outcome State Fault Refusal :=
  match o with
  | .next s => .next (s.goOn rest fin)
  | .fault f => .fault f
  | .refused r => .refused r

/-- The falling edge of a write strobe with the device's reaction to it; the sequencer has gone on when
the device reacts. -/
def strobeDown (rest : List Micro) (fin : Finish) (s : State) : Host.Outcome State Fault Refusal :=
  match strobeFall s with
  | .next t => latchWrite (t.goOn rest fin)
  | .fault f => .fault f
  | .refused r => .refused r

/-- One event of the running program (or its response), with the steps folded into its edge. -/
def microStep (todo : List Micro) (fin : Finish) (s : State) :
    Host.Outcome State Fault Refusal :=
  match todo with
  | [] => .next (s.finish fin)
  | .enableCtl :: r => continueWith r fin (enableCtl s)
  | .setDir d :: r => continueWith r fin (setDir d s)
  | .setCtl rs rw :: r => continueWith r fin (setCtl rs rw s)
  | .driveDB v :: r => continueWith r fin (driveDB v s)
  | .strobeUp :: r => continueWith r fin (strobeUp s)
  | .strobeDown :: r => strobeDown r fin s
  | .sampleUp :: r => continueWith r fin (sampleUp s)
  | .sampleDown :: r => continueWith r fin (sampleFall s)
  | .delay p :: r => continueWith r fin (startDelay p s)
  | .delayEnd p :: r => microStep r fin { s with lcd := s.lcd.afterDelay s.platform p }
  | .setDrv d :: r => microStep r fin { s with drvState := d }
  | .initEnd :: r => microStep r fin { s with lcd := s.lcd.afterInit s.platform }
  | .clearRcnt :: r => microStep r fin { s with rcnt := 0 }
  | .incRcnt :: r => microStep r fin { s with rcnt := s.rcnt + 1 }
  | .legacyTest :: r =>
    if s.rcnt = Config.legacyFsCount then microStep r fin s
    else continueWith (legacyBody.tail ++ r) fin (setDir .output s)
  | .pollAgain :: r =>
    if busyFlag s.dbIn then continueWith (busRead.tail ++ .pollAgain :: r) fin (setDir .input s)
    else microStep r fin s
  | .setPcnt n :: r => microStep r fin { s with pcnt := n }
  | .boundedTest :: r =>
    if busyFlag s.dbIn && s.pcnt - 1 != 0 then
      continueWith (busRead.tail ++ .boundedTest :: r) fin
        (setDir .input { s with pcnt := s.pcnt - 1 })
    else microStep r fin { s with pcnt := s.pcnt - 1 }

/-- At most `n` events of the running program; it stops at the response (log 1). -/
def runEvents (n : Nat) (s : State) : Host.Outcome State Fault Refusal :=
  match n with
  | 0 => .next s
  | n + 1 =>
    match s.seq with
    | .idle => .next s
    | .decode => .next s
    | .running todo fin =>
      match microStep todo fin s with
      | .next t => runEvents n t
      | .fault f => .fault f
      | .refused r => .refused r

/-- The running program goes on for one step: its next event and as many more as the pace says. -/
def resume (s : State) : Host.Outcome State Fault Refusal := runEvents (s.pace + 1) s

/-- A command's program is started (R32). -/
def runProgram (todo : List Micro) (fin : Finish) (s : State) : Host.Outcome State Fault Refusal :=
  resume (s.goOn todo fin)

/-- `if DRV_STATE != d: raise Err(ERR_STATE)` before a command's program (R254). -/
def inState (d : DrvState) (s : State) (body : State → Host.Outcome State Fault Refusal) :
    Host.Outcome State Fault Refusal :=
  if s.drvState = d then body s else .next (s.raiseErr .errState)

end Sys2Proof.Machine
end

