-- ==== Sys2Proof/Machine/Display.lean ====
section
/-! DEFINITION. GOTO, the display API's command with the address mapper (43_display_api.md). -/

namespace Sys2Proof.Machine

/-- GOTO x, y: the range check before any bus event, then the set-address write; answered with the
address (R192, R255). -/
def execGoto (x y : Byte) (s : State) : Host.Outcome State Fault Refusal :=
  inState .ready s fun s =>
    if inRange x y then
      runProgram (writeInstruction (setAddressByte (mapXY x y))) (.done .ok (zext8 (mapXY x y))) s
    else .next (s.raiseErr .errRange)

end Sys2Proof.Machine
end

