-- ==== Sys2Proof/Machine/Init.lean ====
section
/-! DEFINITION. INIT, the initialization state machine (41_init_sequence.md). -/

namespace Sys2Proof.Machine

/-- Resetting: outputs first, the power-up delay, the three legacy function-sets (R131 to R134). -/
def resettingPart : List Micro :=
  [.setDrv .resetting, .enableCtl, .setDir .output] ++ delayFor .powerup ++ [.clearRcnt, .legacyTest]

/-- FunctionSet: the final function-set and its settle delay, no busy check (R135). -/
def functionSetPart : List Micro :=
  .setDrv .functionSet :: busWrite .instruction Config.fsFinal ++ delayFor .settle

/-- Configured: four instructions, each after `WaitIdle` (R136); then Ready (R137), with the device as far
as R289 knows it. -/
def configuredPart : List Micro :=
  .setDrv .configured ::
    (writeInstruction Config.displayOff ++ writeInstruction Config.clear ++
      writeInstruction Config.entryIncNoshift ++ writeInstruction Config.displayOn ++
      [.initEnd, .setDrv .ready])

/-- INIT's whole program (R130). -/
def initProgram : List Micro := resettingPart ++ functionSetPart ++ configuredPart

/-- INIT (R130); `ERR_STATE` unless Uninitialized (R141). -/
def execInit (s : State) : Host.Outcome State Fault Refusal :=
  inState .uninitialized s (runProgram initProgram (.done .ok 0x00))

end Sys2Proof.Machine
end

