-- ==== Sys2Proof/Machine/Transfer.lean ====
section
/-! DEFINITION. The transfer commands CMD, PUTC, STATUS, WAITIDLE and WAITB (42_transfer.md). -/

namespace Sys2Proof.Machine

/-- CMD b8: `WriteInstruction(b8)`, any byte, unfiltered (R164). -/
def execCmd (b8 : Byte) (s : State) : Host.Outcome State Fault Refusal :=
  inState .ready s (runProgram (writeInstruction b8) (.done .ok 0x00))

/-- PUTC b8: `WriteData(b8)` (R165). -/
def execPutc (b8 : Byte) (s : State) : Host.Outcome State Fault Refusal :=
  inState .ready s (runProgram (writeData b8) (.done .ok 0x00))

/-- STATUS: one status read, no `WaitIdle` first (R166). -/
def execStatus (s : State) : Host.Outcome State Fault Refusal :=
  inState .ready s (runProgram busRead .sampled)

/-- WAITIDLE: `WaitIdle`, answered with the idle status byte (R167). -/
def execWaitidle (s : State) : Host.Outcome State Fault Refusal :=
  inState .ready s (runProgram waitIdle .sampled)

/-- WAITB n: at most n status reads (R168). With n = 0 no read is made and the byte is 0x00. -/
def execWaitb (n : Byte) (s : State) : Host.Outcome State Fault Refusal :=
  if s.platform.hasBoundedWait then
    inState .ready s fun s =>
      if n = 0 then runProgram [.setPcnt n] (.done .errTimeout 0x00) s
      else runProgram (.setPcnt n :: busRead ++ [.boundedTest]) .bounded s
  else .next (s.raiseErr .errIllegal)

end Sys2Proof.Machine
end

