-- ==== Sys2Proof/Machine/Dispatch.lean ====
section
/-! DEFINITION. The dispatch of instructions to their meanings. A host command's meaning starts at DECODE,
an LCD byte's is the device's reaction at the falling edge of E. -/

namespace Sys2Proof.Machine

def exec (i : Instr) (s : State) : Host.Outcome State Fault Refusal :=
  match i with
  | .init => Sys2Proof.Machine.execInit s
  | .cmd b8 => Sys2Proof.Machine.execCmd b8 s
  | .putc b8 => Sys2Proof.Machine.execPutc b8 s
  | .status => Sys2Proof.Machine.execStatus s
  | .waitidle => Sys2Proof.Machine.execWaitidle s
  | .goto x y => Sys2Proof.Machine.execGoto x y s
  | .waitb n => Sys2Proof.Machine.execWaitb n s
  | .lcdClear => Sys2Proof.Machine.execLcdClear s
  | .lcdReturnHome x => Sys2Proof.Machine.execLcdReturnHome x s
  | .lcdEntryMode id sh => Sys2Proof.Machine.execLcdEntryMode id sh s
  | .lcdDisplayControl d c b => Sys2Proof.Machine.execLcdDisplayControl d c b s
  | .lcdShift sc rl x => Sys2Proof.Machine.execLcdShift sc rl x s
  | .lcdFunctionSet dl n f x => Sys2Proof.Machine.execLcdFunctionSet dl n f x s
  | .lcdSetCgram acg => Sys2Proof.Machine.execLcdSetCgram acg s
  | .lcdSetDdram add => Sys2Proof.Machine.execLcdSetDdram add s
  | .lcdNone => Sys2Proof.Machine.execLcdNone s

end Sys2Proof.Machine
end

