-- ==== Sys2Proof/Machine/Fetch.lean ====
section
/-! DEFINITION. Where instructions come from: the host's acts at a step, the idle and accepting edges (R26),
and the decoding of the command latch (R34). -/

namespace Sys2Proof.Machine

/-- The host asserts `rst` at this step. -/
def State.rstNow (s : State) : Bool := s.host.head? == some HostAct.reset

/-- The host's act at this step is over, unless it is an offer that waits to be accepted (R26). -/
def State.hostPasses (s : State) : State :=
  match s.host with
  | .quiet :: h => { s with host := h }
  | .reset :: h => { s with host := h }
  | _ => s

/-- A step in IDLE: an offer is accepted (R26), a guarded one only after an OK response (R194). -/
def idleStep (s : State) : State :=
  match s.host with
  | .offer w :: h => ({ s with host := h }).accept w
  | .offerIfOk w :: h =>
    if s.rspCode = .ok then ({ s with host := h }).accept w else ({ s with host := h }).idleEdge
  | _ => s.hostPasses.idleEdge

/-- The command latch decoded (R34, R70). -/
def State.latched (s : State) : Except DecodeError Instr :=
  decodeFields s.platform.hasBoundedWait s.cmdOp s.cmdA s.cmdB

/-- A step in DECODE: an illegal word is answered `ERR_ILLEGAL` (R253), a command is run. -/
def decodeStep (s : State) : Host.Outcome State Fault Refusal :=
  match s.latched with
  | .ok i => exec i s.hostPasses
  | .error _ => .next (s.hostPasses.raiseErr .errIllegal)

/-- A host command word stands in the command latch, at DECODE. -/
def State.placeCommand (w : CommandWord) (s : State) : State :=
  { s with cmdOp := opField w, cmdA := aField w, cmdB := bField w, seq := .decode }

/-- A byte stands on the data lines of a write strobe about to fall, with RS = Instruction, at the end of
a program: the next event is the falling edge at which the device latches it (log 21). -/
def State.placeLcdByte (v : Byte) (s : State) : State :=
  { s with
    ctlOe := true
    dir := .output
    rs := .instruction
    rw := .write
    e := true
    dbOut := v
    seq := .running [.strobeDown] (.done .ok 0x00) }

/-- The host does not assert `rst` at the next step. -/
def State.withoutReset (s : State) : State :=
  { s with host := s.host.dropWhile (· == HostAct.reset) }

end Sys2Proof.Machine
end

