-- ==== Sys2Proof/Machine/Step.lean ====
section
/-! DEFINITION. One step of the machine. The host's next act and SEQ say what happens: an edge with `rst`,
an idle or accepting edge, the decoding and start of the latched command, or the next events of the
running program (log 1, log 2). -/

namespace Sys2Proof.Machine

/-- One step. -/
def step (s : State) : Host.Outcome State Fault Refusal :=
  if s.rstNow then .next s.hostPasses.applyReset
  else
    match s.seq with
    | .idle => .next (idleStep s)
    | .decode => decodeStep s
    | .running _ _ => resume s.hostPasses

/-- The state with the bits `w` of an opcode-table row where the next step fetches them: a host command
(more than eight bits) in the command latch, an LCD instruction byte in a write strobe about to fall
(log 2, log 21). -/
def State.withFetchWord (s : State) (nbits w : Nat) : State :=
  if nbits ≤ 8 then s.withoutReset.placeLcdByte (BitVec.ofNat 8 w)
  else s.withoutReset.placeCommand (BitVec.ofNat 20 w)

end Sys2Proof.Machine
end

