-- ==== Sys2Proof/Machine/Assembler.lean ====
section
/-! DEFINITION. The assembler of command streams (R82) with its pseudo-instructions (R193 to R197), and the
host's script for them. This is host behaviour, outside the block. -/

namespace Sys2Proof.Machine

/-- A line of assembly; operands are numbers as written, checked when the line is assembled. -/
inductive Asm where
  | init
  | cmd (b8 : Nat)
  | putc (b8 : Nat)
  | status
  | waitidle
  | goto (x y : Nat)
  | waitb (n : Nat)
  /-- `CLEAR` (R195). -/
  | clear
  /-- `HOME` (R197). -/
  | home
  /-- `DISPOFF` (R197). -/
  | dispoff
  /-- `DISPON` (R197). -/
  | dispon
  /-- `ENTRY i, s` (R197). -/
  | entry (i s : Nat)
  /-- `SETADDR a` (R197). -/
  | setaddr (a : Nat)
  /-- `PUTS "s"` (R194). -/
  | puts (s : List Byte)
  /-- `RENDER "s"` (R196). -/
  | render (s : List Byte)
  deriving DecidableEq, Repr

/-- Operand ranges; one outside its range is an assembly error (R82). -/
def Asm.wellFormed : Asm → Bool
  | .init => true
  | .cmd b8 => decide (b8 ≤ 255)
  | .putc b8 => decide (b8 ≤ 255)
  | .status => true
  | .waitidle => true
  | .goto x y => decide (x ≤ 255) && decide (y ≤ 255)
  | .waitb n => decide (n ≤ 255)
  | .clear => true
  | .home => true
  | .dispoff => true
  | .dispon => true
  | .entry i s => decide (i ≤ 1) && decide (s ≤ 1)
  | .setaddr a => decide (a ≤ 127)
  | .puts _ => true
  | .render _ => true

/-- `'\n'` (R82). -/
def newline : Byte := 0x0A

/-- The renderer (R196): up to the first 0x00, a newline becomes `GOTO 1, 2`, any other byte `PUTC`. -/
def renderBytes : List Byte → List Instr
  | [] => []
  | c :: r =>
    if c = 0x00 then [] else (if c = newline then .goto 1 2 else .putc c) :: renderBytes r

/-- The commands a line stands for (R82). -/
def Asm.expand (a : Asm) : Option (List Instr) :=
  if a.wellFormed then
    match a with
    | .init => some [.init]
    | .cmd b8 => some [.cmd (BitVec.ofNat 8 b8)]
    | .putc b8 => some [.putc (BitVec.ofNat 8 b8)]
    | .status => some [.status]
    | .waitidle => some [.waitidle]
    | .goto x y => some [.goto (BitVec.ofNat 8 x) (BitVec.ofNat 8 y)]
    | .waitb n => some [.waitb (BitVec.ofNat 8 n)]
    | .clear => some [.cmd Config.clear]
    | .home => some [.cmd Config.returnHome]
    | .dispoff => some [.cmd Config.displayOff]
    | .dispon => some [.cmd Config.displayOn]
    | .entry i s => some [.cmd (0x04 ||| BitVec.ofNat 8 i <<< 1 ||| BitVec.ofNat 8 s)]
    | .setaddr a => some [.cmd (0x80 ||| BitVec.ofNat 8 a)]
    | .puts s => some (s.map .putc)
    | .render s => some (renderBytes s)
  else none

/-- The command word of an instruction; an LCD byte is no command. -/
def commandWord? (i : Instr) : Option CommandWord :=
  match encode i with
  | .command w => some w
  | .lcdByte _ => none

/-- The words of a line. -/
def Asm.words (a : Asm) : Option (List CommandWord) := a.expand.map (·.filterMap commandWord?)

/-- What the host does for a line: it offers each word after the previous one's response, and the words
of PUTS after the first only while the responses are OK (R194). -/
def Asm.script (a : Asm) : Option (List HostAct) :=
  match a, a.words with
  | _, none => none
  | .puts _, some (w :: ws) => some (.offer w :: ws.map .offerIfOk)
  | _, some ws => some (ws.map .offer)

end Sys2Proof.Machine
end

