-- ==== Sys2Proof/Machine/Observe.lean ====
section
/-! DEFINITION. What can be seen of the machine (R266): the ports (R21 to R24), the pads (R40), the event
trace and its pin trace (R100), the screen (R243), and the reference schedule (R294). -/

namespace Sys2Proof.Machine

/-- `cmd_ready` = 1 exactly when `rst` = 0 and SEQ is IDLE (R26). -/
def State.cmdReady (s : State) : Bool := !s.rstNow && s.seq == .idle

/-- The output ports (R22 to R24). -/
structure Ports where
  cmdReady : Bool
  rspValid : Bool
  rspCode : BitVec 3
  rspData : Byte
  drvState : BitVec 3
  lcdDbO : Byte
  lcdDbOe : Bool
  lcdRsO : Bool
  lcdRwO : Bool
  lcdEO : Bool
  lcdCtlOe : Bool
  deriving DecidableEq, Repr

/-- The levels at the output ports: each is a register's. -/
def State.ports (s : State) : Ports where
  cmdReady := s.cmdReady
  rspValid := s.rspValid
  rspCode := s.rspCode.code
  rspData := s.rspData
  drvState := s.drvState.code
  lcdDbO := s.dbOut
  lcdDbOe := s.dir.level
  lcdRsO := s.rs.level
  lcdRwO := s.rw.level
  lcdEO := s.e
  lcdCtlOe := s.ctlOe

/-- The block drives the data lines (R40). -/
def State.blockDrives (s : State) : Bool := s.dir == .output

/-- The device drives the data lines (R223). -/
def State.deviceDrives (s : State) : Bool := s.ctlOe && s.e && s.rw == .read

/-- The level the block drives on the line of a role, none where it drives nothing (R40). The roles are
numbered as PIN_MAP lists them: DB0 to DB7, RS, RW, E (R25, R54). -/
def State.roleLevel (s : State) (role : Nat) : Option Bool :=
  if role < 8 then (if s.dir = .output then some (s.dbOut.getLsbD role) else none)
  else if s.ctlOe then
    match role with
    | 8 => some s.rs.level
    | 9 => some s.rw.level
    | 10 => some s.e
    | _ => none
  else none

/-- The place of a pin in a list of pins. -/
def pinRole (pin : Nat) : List Nat → Option Nat
  | [] => none
  | p :: r => if p = pin then some 0 else (pinRole pin r).map (· + 1)

/-- The level the block drives on a physical pin (R25), none where it drives nothing. -/
def State.padLevel (s : State) (pin : Nat) : Option Bool :=
  (pinRole pin s.platform.pinMap).bind s.roleLevel

/-- The event trace, oldest first, without the edges (R100). -/
def State.events (s : State) : List Event := (s.trace.map (·.2)).reverse

/-- The outputs an event can change, for the pin trace. -/
structure Pins where
  dir : Direction
  rs : RegSel
  rw : ReadWrite
  dbOut : Byte
  deriving DecidableEq, Repr

/-- The pins a reset leaves (R39). -/
def Pins.atReset : Pins := ⟨.input, .instruction, .write, 0x00⟩

/-- The pins of a state. -/
def State.pins (s : State) : Pins := ⟨s.dir, s.rs, s.rw, s.dbOut⟩

/-- The pins after an event. `EnCtl` is the first event after a reset, so it finds the reset's pins
whatever the events before the reset left (R39, R132). -/
def Pins.after (p : Pins) : Event → Pins
  | .enCtl => .atReset
  | .dir d => { p with dir := d }
  | .ctl rs rw => { p with rs := rs, rw := rw }
  | .data v => { p with dbOut := v }
  | .eUp => p
  | .eDown => p
  | .eDownSample _ => p
  | .wait _ => p

/-- Whether an event changes a pin: an edge of E or of the enable always does, a delay never, the others
where the value differs (R100). -/
def Pins.changedBy (p : Pins) : Event → Bool
  | .enCtl => true
  | .dir d => p.dir != d
  | .ctl rs rw => p.rs != rs || p.rw != rw
  | .data v => p.dbOut != v
  | .eUp => true
  | .eDown => true
  | .eDownSample _ => true
  | .wait _ => false

/-- The pins after a trace of events, newest first, that starts at a reset. -/
def pinsOf : List Event → Pins
  | [] => .atReset
  | ev :: r => (pinsOf r).after ev

/-- The pin trace: the events (oldest first) with those that change no pin removed (R100), from the pins
`p`; a reset among the events is seen at the `EnCtl` that follows it. -/
def pinTrace (p : Pins) : List Event → List Event
  | [] => []
  | ev :: r => (if p.changedBy ev then [ev] else []) ++ pinTrace (p.after ev) r

/-- Screen cell (x, y): the byte whose glyph it shows, nothing while the display is off (R243). DESIGN
CHOICE (log 25): nothing outside the screen's 32 cells, where the rule gives no cell, and no display shift
is accounted for, of which the rule says nothing. -/
def State.screen (s : State) (x y : Byte) : Option Byte :=
  if s.lcd.device.d && inRange x y then some (s.lcd.device.ddram.read (mapXY x y)) else none

/-- `T_W`, the edges of `BusWrite` in the reference schedule (R294). -/
def tW (p : Platform) : Nat := 1 + max p.cAs 2 + p.cPwE + p.cH

/-- `T_R`, the edges of `BusRead` in the reference schedule (R294). -/
def tR (p : Platform) : Nat := 1 + p.cAs + p.cPwE + p.cH

/-! ### The phases and polls as events -/

/-- The events of `BusWrite(rs, v)` (R107). -/
def writeEvents (rs : RegSel) (v : Byte) : List Event :=
  [.dir .output, .ctl rs .write, .data v, .eUp, .eDown]

/-- The events of one poll that samples `b` (R108, R138). -/
def pollEvents (b : Byte) : List Event :=
  [.dir .input, .ctl .instruction .read, .eUp, .eDownSample b]

/-- The device after `n` status reads. -/
def Lcd.afterPolls (n : Nat) (l : Lcd) : Lcd :=
  match n with
  | 0 => l
  | n + 1 => Lcd.afterPolls n l.afterStatus

/-- The bytes it answers to them, in order. -/
def Lcd.answers (n : Nat) (l : Lcd) : List Byte :=
  match n with
  | 0 => []
  | n + 1 => l.statusAnswer :: Lcd.answers n l.afterStatus

/-- The events of `n` polls of the device. -/
def Lcd.pollTrace (n : Nat) (l : Lcd) : List Event := (l.answers n).flatMap pollEvents

end Sys2Proof.Machine
end

