-- ==== Sys2Proof/Safety.lean ====
section
/-! DEFINITION. What counts as a safe state and a safe trace: the invariants of R41, the busy-flag rule of
R161, the spacing of events (R105, R106, R110, R111), and the premises and frames the statements use. -/

namespace Sys2Proof.Machine

/-! ### The remaining program fits the lines -/

/-- What the last bus event allows next, for R161. -/
inductive LastEvent where
  /-- `Wait`, `EnCtl`, or a sample tested idle: a write phase may begin. -/
  | settled
  /-- A sample not yet tested. -/
  | sampled
  | other
  deriving DecidableEq, Repr

/-- The registers a program's `require`s speak of, and the last event. -/
structure Lines where
  ctlOe : Bool
  dir : Direction
  rs : RegSel
  rw : ReadWrite
  e : Bool
  drv : DrvState
  last : LastEvent
  deriving DecidableEq, Repr

/-- The kind of an event as the last one. -/
def Event.kind : Event → LastEvent
  | .enCtl => .settled
  | .wait _ => .settled
  | .eDownSample _ => .sampled
  | .dir _ => .other
  | .ctl _ _ => .other
  | .data _ => .other
  | .eUp => .other
  | .eDown => .other

/-- The lines of a state. -/
def State.lines (s : State) : Lines where
  ctlOe := s.ctlOe
  dir := s.dir
  rs := s.rs
  rw := s.rw
  e := s.e
  drv := s.drvState
  last := (s.trace.head?.map (·.2.kind)).getD .other

/-- DRV_STATE's place in the order of R131. -/
def DrvState.rank : DrvState → Nat
  | .uninitialized => 0
  | .resetting => 1
  | .functionSet => 2
  | .configured => 3
  | .ready => 4

/-- The block drives the control lines and E is low. -/
def Lines.quiet (l : Lines) : Bool := l.ctlOe && !l.e

/-- The lines after a poll: the bus of R109 after a read. -/
def Lines.polled (l : Lines) : Bool :=
  l.quiet && l.dir == .input && l.rs == .instruction && l.rw == .read && l.last == .sampled

/-- The timed part of INIT, the only one with delays (R133 to R135). -/
def Lines.timed (l : Lines) : Bool :=
  l.quiet && (l.drv == .resetting || l.drv == .functionSet)

/-- Every step of the rest of a program meets its `require`, DRV_STATE moves one place at a time, every
write phase begins where R161 allows it, and the program ends in Ready. -/
def Lines.admits (l : Lines) : List Micro → Bool
  | [] => l.quiet && l.drv == .ready
  | .enableCtl :: r =>
    !l.ctlOe && !l.e && l.drv == .resetting &&
      Lines.admits
        { l with ctlOe := true, rs := .instruction, rw := .write, last := .settled } r
  | .setDir .output :: r =>
    l.quiet && l.last == .settled && Lines.admits { l with dir := .output, last := .other } r
  | .setDir .input :: r => l.quiet && Lines.admits { l with dir := .input, last := .other } r
  | .setCtl rs rw :: r =>
    l.quiet && Lines.admits { l with rs := rs, rw := rw, last := .other } r
  | .driveDB _ :: r =>
    l.quiet && l.dir == .output && Lines.admits { l with last := .other } r
  | .strobeUp :: r =>
    l.quiet && l.dir == .output && l.rw == .write &&
      Lines.admits { l with e := true, last := .other } r
  | .strobeDown :: r =>
    l.ctlOe && l.e && l.dir == .output && l.rw == .write &&
      Lines.admits { l with e := false, last := .other } r
  | .sampleUp :: r =>
    l.quiet && l.dir == .input && l.rw == .read &&
      Lines.admits { l with e := true, last := .other } r
  | .sampleDown :: r =>
    l.ctlOe && l.e && l.dir == .input && l.rw == .read &&
      Lines.admits { l with e := false, last := .sampled } r
  | .delay _ :: r => l.timed && Lines.admits { l with last := .settled } r
  | .delayEnd _ :: r => l.timed && Lines.admits l r
  | .setDrv d :: r =>
    !l.e && d.rank == l.drv.rank + 1 && Lines.admits { l with drv := d } r
  | .initEnd :: r => l.quiet && l.drv == .configured && Lines.admits l r
  | .clearRcnt :: r => l.quiet && Lines.admits l r
  | .incRcnt :: r => l.quiet && Lines.admits l r
  | .legacyTest :: r =>
    l.timed && l.dir == .output && l.rs == .instruction && l.rw == .write && l.last == .settled &&
      Lines.admits l r
  | .pollAgain :: r => l.polled && Lines.admits { l with last := .settled } r
  | .setPcnt _ :: r => l.quiet && Lines.admits l r
  | .boundedTest :: r => l.polled && Lines.admits l r

/-! ### The invariant (R41) -/

/-- SEQ fits the registers: between commands E is low and the block is either untouched or Ready (R254);
in a program the rest of it fits, and DB_IN is the byte of the last sample. -/
def State.seqFits (s : State) : Prop :=
  match s.seq with
  | .running todo _ =>
    s.lines.admits todo = true ∧
      ∀ c v, s.trace.head? = some (c, .eDownSample v) → s.dbIn = v
  | _ =>
    s.e = false ∧
      ((s.drvState = .uninitialized ∧ s.ctlOe = false) ∨ (s.drvState = .ready ∧ s.ctlOe = true))

/-- R161 over a trace, newest first: every write phase's `Dir(Output)` directly follows an idle status
read, a delay (the timed function-sets) or `EnCtl` (INIT's first step). -/
def busyRule : List Event → Bool
  | .dir .output :: .eDownSample v :: r => !busyFlag v && busyRule (.eDownSample v :: r)
  | .dir .output :: .wait p :: r => busyRule (.wait p :: r)
  | .dir .output :: .enCtl :: r => busyRule (.enCtl :: r)
  | .dir .output :: _ => false
  | _ :: r => busyRule r
  | [] => true

/-- The invariant of the machine. -/
structure Inv (s : State) : Prop where
  /-- The platform meets R7 and R25. -/
  platform : s.platform.wellFormed = true
  /-- The device's memory is in canonical form. -/
  ddram : s.lcd.device.ddram.wf = true
  /-- R41 item 2: E is high only inside a strobe. -/
  strobing : s.e = true →
    ∃ r fin, s.seq = .running (.strobeDown :: r) fin ∨ s.seq = .running (.sampleDown :: r) fin
  /-- R41 item 3. -/
  writing : s.e = true → s.rw = .write → s.dir = .output
  /-- R41 item 3. -/
  reading : s.e = true → s.rw = .read → s.dir = .input
  /-- R41 item 5. -/
  released : s.ctlOe = false → s.drvState = .uninitialized ∧ s.e = false
  /-- EnableCtl is INIT's first event, so a driven block has left Uninitialized (R132). -/
  driven : s.ctlOe = true → s.drvState ≠ .uninitialized
  /-- SEQ fits the registers. -/
  seqFits : s.seqFits
  /-- R161. -/
  busyRule : busyRule (s.trace.map (·.2)) = true

/-! ### The spacing of events (R105, R106, R110, R111) -/

/-- The least gap from an event to the next one. -/
def gapAfter (p : Platform) : Event → Nat
  | .eUp => p.cPwE
  | .eDown => p.cH
  | .eDownSample _ => p.cH
  | .wait l => p.delayEdges l
  | .enCtl => 1
  | .dir _ => 1
  | .ctl _ _ => 1
  | .data _ => 1

/-- The edge of the newest `Ctl` event. -/
def lastCtlIn : List (Nat × Event) → Option Nat
  | [] => none
  | (t, .ctl _ _) :: _ => some t
  | _ :: r => lastCtlIn r

/-- The edge of the newest falling edge of E. -/
def lastFallIn : List (Nat × Event) → Option Nat
  | [] => none
  | (t, .eDown) :: _ => some t
  | (t, .eDownSample _) :: _ => some t
  | _ :: r => lastFallIn r

/-- The event `ev` at edge `t` keeps its distance from the events before it. Only `EnCtl`, the first event
after a reset, may cut the hold of the event before it short (R281). -/
def keepsDistance (p : Platform) (t : Nat) (ev : Event) (before : List (Nat × Event)) : Prop :=
  (∀ u old, before.head? = some (u, old) → u < t ∧ (ev ≠ .enCtl → u + gapAfter p old ≤ t)) ∧
    (ev = .eUp →
      (∀ c, lastCtlIn before = some c → c + p.cAs ≤ t) ∧
      (∀ f, lastFallIn before = some f → f + max p.cELow p.cH ≤ t))

/-- Every event of a trace (newest first) keeps its distance. -/
def spaced (p : Platform) : List (Nat × Event) → Prop
  | [] => True
  | (t, ev) :: r => keepsDistance p t ev r ∧ spaced p r

/-- The trace is spaced, the registers that time the next event agree with it, and the next event will
keep its distance too. -/
structure Spaced (s : State) : Prop where
  trace : spaced s.platform s.trace
  ctl : s.lastCtl = lastCtlIn s.trace
  fall : s.lastFall = lastFallIn s.trace
  past : ∀ t ev, s.trace.head? = some (t, ev) → t ≤ s.cycle
  next : ∀ t ev, s.trace.head? = some (t, ev) →
    s.drvState = .uninitialized ∨ t + gapAfter s.platform ev ≤ s.cycle + s.dataDue

/-! ### What DCNT holds (R33) -/

/-- The wait of the strobe to come, as the trace has it: what is left of C_AS since the last `Ctl`, and of
C_E_LOW and C_H since the last fall of E (R105, R106, R111). -/
def State.strobeWait (s : State) : Nat :=
  max ((lastCtlIn s.trace).elim 0 fun c => c + s.platform.cAs - s.cycle)
    ((lastFallIn s.trace).elim 0 fun f => f + max s.platform.cELow s.platform.cH - s.cycle)

/-- What DCNT holds when the event has just been appended: the pulse after a rise of E, the hold after a fall,
a delay's length after `Wait`, the wait of the strobe to come after `Ctl` and `Data`, and nothing after the
other events (R33, R105, R106, R110). -/
def State.counted (s : State) : Event → Nat
  | .eUp => s.platform.cPwE
  | .eDown => s.platform.cH
  | .eDownSample _ => s.platform.cH
  | .wait p => s.platform.delayEdges p
  | .ctl _ _ => s.strobeWait
  | .data _ => s.strobeWait
  | .dir _ => 0
  | .enCtl => 0

/-! ### The record of the pins (R100) -/

/-- The trace accounts for the pins: while the control lines are driven they are what its events make of a
reset's pins, and while they are released they are a reset's (R39, R132). -/
structure PinsRecorded (s : State) : Prop where
  driven : s.ctlOe = true → s.pins = pinsOf (s.trace.map (·.2))
  released : s.ctlOe = false → s.pins = Pins.atReset

/-! ### Polling without end (R169, R257) -/

/-- The sequencer is inside `WaitIdle` (R160), at one of the places of a poll, on a platform that meets R288,
and the device is modelled and busy for ever: the pulse that is on lasts, and the byte not yet tested says
busy. -/
structure PollsForever (s : State) : Prop where
  timing : s.platform.strobeTimingOK = true
  modelled : s.lcd.device.unmodelled = false
  busy : s.lcd.device.busy = .forever
  polling : ∃ k r fin, s.seq = .running ((busRead ++ Micro.pollAgain :: r).drop k) fin ∧ k ≤ 4 ∧
    (k = 3 → s.platform.cPwE ≤ s.dcnt) ∧ (k = 4 → busyFlag s.dbIn = true)

/-! ### Premises and frames of the statements -/

/-- A block that may run commands on a platform that meets R288: Ready, driving the control lines, E low;
the device's memory in canonical form. -/
structure Operable (s : State) : Prop where
  ready : s.drvState = .ready
  driven : s.ctlOe = true
  low : s.e = false
  wellFormed : s.platform.wellFormed = true
  timing : s.platform.strobeTimingOK = true
  ddram : s.lcd.device.ddram.wf = true

/-- The device is modelled and will answer busy `k` times. -/
def Lcd.busyFor (k : Nat) (l : Lcd) : Prop :=
  l.device.unmodelled = false ∧ l.device.busy = .finite k

/-- The command has been answered with this code and byte (R27). -/
structure Answered (s t : State) (code : RspCode) (data : Byte) : Prop where
  seq : t.seq = .idle
  valid : t.rspValid = true
  rspCode : t.rspCode = code
  rspData : t.rspData = data
  log : t.responses = ⟨code, data⟩ :: s.responses

/-- What no transfer command changes: DRV_STATE, CTL_OE, RCNT, the command latch, and the environment. -/
structure TransferFrame (s t : State) : Prop where
  drvState : t.drvState = s.drvState
  ctlOe : t.ctlOe = s.ctlOe
  rcnt : t.rcnt = s.rcnt
  cmdOp : t.cmdOp = s.cmdOp
  cmdA : t.cmdA = s.cmdA
  cmdB : t.cmdB = s.cmdB
  platform : t.platform = s.platform
  host : t.host = s.host
  pace : t.pace = s.pace

/-- The bus after a write phase (R109). -/
structure BusAfterWrite (t : State) (rs : RegSel) (v : Byte) : Prop where
  dir : t.dir = .output
  rs : t.rs = rs
  rw : t.rw = .write
  low : t.e = false
  dbOut : t.dbOut = v

/-- The bus after a read phase (R109); DB_OUT is not touched. -/
structure BusAfterRead (s t : State) (v : Byte) : Prop where
  dir : t.dir = .input
  rs : t.rs = .instruction
  rw : t.rw = .read
  low : t.e = false
  dbIn : t.dbIn = v
  dbOut : t.dbOut = s.dbOut

/-- An error answer (R251, R252): one edge later, the response, and nothing else but the synchronizer. -/
structure OnlyAnswered (s t : State) (code : RspCode) : Prop where
  answered : Answered s t code 0x00
  frame : TransferFrame s t
  pcnt : t.pcnt = s.pcnt
  dcnt : t.dcnt = s.dcnt
  dir : t.dir = s.dir
  rs : t.rs = s.rs
  rw : t.rw = s.rw
  e : t.e = s.e
  dbOut : t.dbOut = s.dbOut
  dbIn : t.dbIn = s.dbIn
  lcd : t.lcd = s.lcd
  trace : t.trace = s.trace
  cycle : t.cycle = s.cycle + 1

/-- What no edge outside a program changes: every register but the synchronizer, RSP_VALID, SEQ and the
command latch, the device, and every record. -/
structure EdgeFrame (s t : State) : Prop where
  drvState : t.drvState = s.drvState
  dir : t.dir = s.dir
  rs : t.rs = s.rs
  rw : t.rw = s.rw
  e : t.e = s.e
  ctlOe : t.ctlOe = s.ctlOe
  dbOut : t.dbOut = s.dbOut
  dbIn : t.dbIn = s.dbIn
  dcnt : t.dcnt = s.dcnt
  rcnt : t.rcnt = s.rcnt
  pcnt : t.pcnt = s.pcnt
  rspValid : t.rspValid = false
  rspCode : t.rspCode = s.rspCode
  rspData : t.rspData = s.rspData
  lcd : t.lcd = s.lcd
  platform : t.platform = s.platform
  trace : t.trace = s.trace
  responses : t.responses = s.responses
  lastCtl : t.lastCtl = s.lastCtl
  lastFall : t.lastFall = s.lastFall
  cycle : t.cycle = s.cycle + 1
  pace : t.pace = s.pace

/-- A device that takes the instruction byte latched now: modelled, idle, 8-bit, on a platform that meets
R288 (R227, R240). -/
structure Takes (s : State) : Prop where
  timing : s.platform.strobeTimingOK = true
  modelled : s.lcd.device.unmodelled = false
  idle : s.lcd.device.busy = .finite 0
  if8 : s.lcd.device.if8 = true

/-- BUSY has been drawn (R224, R225): the next draw the environment lists, any value where it lists none. -/
def DrawsBusy (l m : Lcd) : Prop :=
  match l.busyDraws with
  | q :: r => m.device.busy = q ∧ m.busyDraws = r
  | [] => m.busyDraws = []

/-- Interface, lines and font, which no instruction changes while the device is modelled. -/
structure SameInterface (old new : Device) : Prop where
  if8 : new.if8 = old.if8
  n2 : new.n2 = old.n2
  f10 : new.f10 = old.f10
  modelled : new.unmodelled = false

/-- Display control bits. -/
structure SameDisplay (old new : Device) : Prop where
  d : new.d = old.d
  c : new.c = old.c
  b : new.b = old.b

/-- Entry mode. -/
structure SameEntry (old new : Device) : Prop where
  id : new.id = old.id
  s : new.s = old.s

/-- Every DDRAM cell reads as before. -/
def SameDdram (old new : Device) : Prop := ∀ a, new.ddram.read a = old.ddram.read a

/-- The commands that wait for the busy flag without a bound (R169), INIT apart. -/
def waitsForIdle : Instr → Bool
  | .cmd _ => true
  | .putc _ => true
  | .waitidle => true
  | .goto x y => inRange x y
  | .init => false
  | .status => false
  | .waitb _ => false
  | .lcdClear => false
  | .lcdReturnHome _ => false
  | .lcdEntryMode _ _ => false
  | .lcdDisplayControl _ _ _ => false
  | .lcdShift _ _ _ => false
  | .lcdFunctionSet _ _ _ _ => false
  | .lcdSetCgram _ => false
  | .lcdSetDdram _ => false
  | .lcdNone => false

/-- The device has had a delay's time. -/
def State.delayed (p : DelayLength) (s : State) : State :=
  { s with lcd := s.lcd.afterDelay s.platform p }

/-- A device write followed by a settle delay. -/
def settled (o : Host.Outcome State Fault Refusal) : Host.Outcome State Fault Refusal :=
  match o with
  | .next s => .next (s.delayed .settle)
  | .fault f => .fault f
  | .refused r => .refused r

/-- Go on from a next state. -/
def andThen (o : Host.Outcome State Fault Refusal)
    (f : State → Host.Outcome State Fault Refusal) : Host.Outcome State Fault Refusal :=
  match o with
  | .next s => f s
  | .fault f => .fault f
  | .refused r => .refused r

/-- The reset by instruction as the device sees it: the power-up delay, three function sets 0x30 and one
0x38, each with its settle delay (R239). -/
def resetSequence (s : State) : Host.Outcome State Fault Refusal :=
  let legacy := fun s => settled (exec (decodeLcd Config.fsLegacy) s)
  andThen (andThen (andThen (legacy (s.delayed .powerup)) legacy) legacy) fun s =>
    settled (exec (decodeLcd Config.fsFinal) s)

/-- Everything but the device is the same. -/
def SameButLcd (s t : State) : Prop := { t with lcd := s.lcd } = s

end Sys2Proof.Machine
end

