-- ==== Sys2Proof/Certificates/Slice0/Obligations.lean ====
section
/-! DEFINITION. The statements for the provers. Each docstring names the rule of spec/ it comes from, and
says where a clause is the model's own choice. Events are counted by the pace (log 1): a command whose
trace has `n` events answers in the step that runs it when the pace is at least `n`. -/

open Sys2Proof Sys2Proof.Machine

/-! ### Encodings -/

/-- Every well-formed instruction, with any operands, decodes back from its own words (R70 to R74, R78). -/
def Obligations.EncodedInstructionDecodesBack : Prop :=
  ∀ (hbw : Bool) (i : Instr), i.wellFormed hbw = true → decode hbw (encode i) = .ok i

/-- A word or byte that decodes is the encoding of what it decodes to, and that is well formed: no bit of
a legal word is ignored (R70 to R74, R78). -/
def Obligations.DecodedWordEncodesBack : Prop :=
  ∀ (hbw : Bool) (e : Encoded) (i : Instr),
    decode hbw e = .ok i → encode i = e ∧ i.wellFormed hbw = true

/-- R75: every command word is exactly one of the seven legal forms, selected by match and mask, or
illegal; no two rows match the same word. -/
def Obligations.EveryWordIsOneLegalRowOrIllegal : Prop :=
  ∀ w : CommandWord,
    (∀ i, decodeCommand true w = .ok i →
      (tableRow i).matches w.toNat = true ∧ tableRow i ∈ commandRows) ∧
    (∀ err, decodeCommand true w = .error err → ∀ r ∈ commandRows, r.matches w.toNat = false) ∧
    (∀ r ∈ commandRows, ∀ r' ∈ commandRows,
      r.matches w.toNat = true → r'.matches w.toNat = true → r = r')

/-- Words of the spec's own table of legal words, and LCD bytes of the block's constants, decode as the
spec says. -/
def Obligations.SpecWordsDecode : Prop :=
  decodeCommand true 0x10000 = .ok .init ∧ decodeCommand true 0x2FF00 = .ok (.cmd 0xFF) ∧
    decodeCommand true 0x34800 = .ok (.putc 0x48) ∧ decodeCommand true 0x40000 = .ok .status ∧
    decodeCommand true 0x50000 = .ok .waitidle ∧ decodeCommand true 0x60102 = .ok (.goto 1 2) ∧
    decodeCommand true 0x70300 = .ok (.waitb 3) ∧ decodeLcd 0x38 = .lcdFunctionSet 1 1 0 0 ∧
    decodeLcd 0x06 = .lcdEntryMode 1 0 ∧ decodeLcd 0xC0 = .lcdSetDdram 0x40

/-! ### The handshake and the step -/

/-- A step in DECODE whose latch holds a legal word runs the instruction that word decodes to; the step
adds only that the host's act is over (log 2). -/
def Obligations.StepRunsLatchedCommand : Prop :=
  ∀ (s : State) (w : CommandWord) (i : Instr),
    s.rstNow = false → s.seq = .decode →
    s.cmdOp = opField w → s.cmdA = aField w → s.cmdB = bField w →
    decodeCommand s.platform.hasBoundedWait w = .ok i →
    step s = exec i s.hostPasses

/-- A step at the falling edge of an instruction-register write strobe runs the instruction that the byte
on the data lines decodes to, on the state in which E has fallen and SEQ has gone on (R224, R227). -/
def Obligations.StepRunsLcdByteAtFallingEdge : Prop :=
  ∀ (s : State) (rest : List Micro) (fin : Finish),
    s.rstNow = false → s.pace = 0 → s.seq = .running (.strobeDown :: rest) fin →
    s.e = true → s.ctlOe = true → s.dir = .output → s.rw = .write → s.rs = .instruction →
    step s =
      exec (decodeLcd s.dbOut)
        (((s.hostPasses.elapse s.hostPasses.due).dropE .eDown).goOn rest fin)

/-- R26, R194: in IDLE with rst = 0 an offered word is accepted, and so is one offered only after an OK
response when the last was OK: the latch takes its fields and SEQ goes to DECODE, one edge later, and the
host's offer is over. Nothing else changes but the edge's own effects (the synchronizer, RSP_VALID falling).
While SEQ is not IDLE either offer stays. -/
def Obligations.OfferedCommandIsAccepted : Prop :=
  ∀ (s : State) (w : CommandWord) (h : List HostAct),
    (s.host = .offer w :: h ∨ (s.host = .offerIfOk w :: h ∧ s.rspCode = .ok) →
      s.cmdReady = true →
      ∃ t, step s = .next t ∧ EdgeFrame s t ∧ t.cmdOp = opField w ∧ t.cmdA = aField w ∧
        t.cmdB = bField w ∧ t.seq = .decode ∧ t.host = h) ∧
    (s.host = .offer w :: h ∨ s.host = .offerIfOk w :: h → s.seq ≠ .idle →
      ∀ t, step s = .next t → t.host = s.host)

/-- R253 with R251 and R252: a word that spells no command is answered ERR_ILLEGAL one edge later, in
every DRV_STATE and whatever the host does meanwhile, with no bus event and nothing else changed but that
the host's act at this step is over (an offer waits, log 16). -/
def Obligations.IllegalWordIsAnsweredErrIllegal : Prop :=
  ∀ (s : State) (w : CommandWord) (err : DecodeError),
    s.rstNow = false → s.seq = .decode →
    s.cmdOp = opField w → s.cmdA = aField w → s.cmdB = bField w →
    decodeCommand s.platform.hasBoundedWait w = .error err →
    ∃ t, step s = .next t ∧ OnlyAnswered s.hostPasses t .errIllegal ∧
      ∀ v h, s.host = .offer v :: h → t.host = s.host

/-- R254: INIT outside Uninitialized, and CMD, PUTC, STATUS, WAITIDLE, GOTO and (where it exists) WAITB
outside Ready are answered ERR_STATE and do nothing else. -/
def Obligations.CommandOutOfStateIsAnsweredErrState : Prop :=
  ∀ (s : State),
    (s.drvState ≠ .uninitialized →
      ∃ t, exec .init s = .next t ∧ OnlyAnswered s t .errState) ∧
    (s.drvState ≠ .ready →
      (∀ b8, ∃ t, exec (.cmd b8) s = .next t ∧ OnlyAnswered s t .errState) ∧
      (∀ b8, ∃ t, exec (.putc b8) s = .next t ∧ OnlyAnswered s t .errState) ∧
      (∃ t, exec .status s = .next t ∧ OnlyAnswered s t .errState) ∧
      (∃ t, exec .waitidle s = .next t ∧ OnlyAnswered s t .errState) ∧
      (∀ x y, ∃ t, exec (.goto x y) s = .next t ∧ OnlyAnswered s t .errState) ∧
      (s.platform.hasBoundedWait = true →
        ∀ n, ∃ t, exec (.waitb n) s = .next t ∧ OnlyAnswered s t .errState))

/-- R255, R199: in Ready, GOTO with x outside 1 to 16 or y outside {1, 2} is answered ERR_RANGE with no
bus event and no other change. -/
def Obligations.GotoOutOfRangeIsAnsweredErrRange : Prop :=
  ∀ (s : State) (x y : Byte), s.drvState = .ready →
    (x = 0 ∨ 16 < x.toNat ∨ (y ≠ 1 ∧ y ≠ 2)) →
    ∃ t, exec (.goto x y) s = .next t ∧ OnlyAnswered s t .errRange

/-- R258: ERR_ILLEGAL comes before ERR_STATE, and ERR_STATE before ERR_RANGE. -/
def Obligations.ErrorsKeepTheirPriority : Prop :=
  ∀ (s : State), s.rstNow = false → s.seq = .decode →
    (∀ err, s.latched = .error err → ∃ t, step s = .next t ∧ t.rspCode = .errIllegal) ∧
    (∀ x y, s.latched = .ok (.goto x y) → s.drvState ≠ .ready →
      ∃ t, step s = .next t ∧ t.rspCode = .errState) ∧
    (∀ x y, s.latched = .ok (.goto x y) → s.drvState = .ready → inRange x y = false →
      ∃ t, step s = .next t ∧ t.rspCode = .errRange)

/-- R27, R35: RSP_VALID is high after a step exactly when the step gave a response, which it then shows;
otherwise RSP_CODE and RSP_DATA hold. A step gives at most one response. (Steps with rst = 1 apart.) -/
def Obligations.ResponseIsOnePulseAndHolds : Prop :=
  ∀ (s t : State), s.rstNow = false → step s = .next t →
    (t.rspValid = true ∧ t.seq = .idle ∧ t.responses = ⟨t.rspCode, t.rspData⟩ :: s.responses) ∨
    (t.rspValid = false ∧ t.responses = s.responses ∧ t.rspCode = s.rspCode ∧
      t.rspData = s.rspData)

/-- R34: the command latch is written only at acceptance: a step that does not go to DECODE keeps it, and
one that does starts in IDLE. (Steps with rst = 1 apart.) -/
def Obligations.CommandLatchChangesOnlyAtAcceptance : Prop :=
  ∀ (s t : State), s.rstNow = false → step s = .next t →
    (t.seq ≠ .decode → t.cmdOp = s.cmdOp ∧ t.cmdA = s.cmdA ∧ t.cmdB = s.cmdB) ∧
      (t.seq = .decode → s.seq = .idle)

/-! ### Host commands complete -/

/-- INIT from Uninitialized on an untouched block, on a platform that meets R288 and R289, with a device in
any state whose draws after the four synchronized points are the finite k2, k3, k4 (the first four draws
are those of the timed function-sets, whose delays end them): it answers OK with the trace of R138 and
leaves R140's state. -/
def Obligations.InitCompletes : Prop :=
  ∀ (s : State) (q1 q2 q3 q4 q8 : Busy) (k2 k3 k4 : Nat) (r : List Busy),
    s.drvState = .uninitialized → s.ctlOe = false → s.e = false →
    s.platform.wellFormed = true → s.platform.strobeTimingOK = true →
    s.platform.delaySufficient = true →
    s.lcd.busyDraws = q1 :: q2 :: q3 :: q4 :: .finite k2 :: .finite k3 :: .finite k4 :: q8 :: r →
    63 + 4 * (k2 + k3 + k4) ≤ s.pace →
    ∃ t, exec .init s = .next t ∧ Answered s t .ok 0x00 ∧ t.drvState = .ready ∧ t.ctlOe = true ∧
      BusAfterWrite t .instruction 0x0C ∧ t.dbIn = 0x00 ∧ t.rcnt = 3 ∧ t.pcnt = s.pcnt ∧
      t.cmdOp = s.cmdOp ∧ t.cmdA = s.cmdA ∧ t.cmdB = s.cmdB ∧ t.platform = s.platform ∧
      t.host = s.host ∧ t.pace = s.pace ∧
      t.lcd.device.if8 = true ∧ t.lcd.device.n2 = true ∧ t.lcd.device.f10 = false ∧
      t.lcd.device.d = true ∧ t.lcd.device.c = false ∧ t.lcd.device.b = false ∧
      t.lcd.device.id = true ∧ t.lcd.device.s = false ∧ t.lcd.device.ac = 0 ∧
      (∀ a, t.lcd.device.ddram.read a = 0x20) ∧ t.lcd.device.unmodelled = false ∧
      t.lcd.device.busy = q8 ∧ t.lcd.busyDraws = r ∧
      ∃ (b1 i2 : Byte) (p2 p3 p4 : List Byte),
        busyFlag b1 = false ∧ busyFlag i2 = false ∧
        p2.length = k2 ∧ p3.length = k3 ∧ p4.length = k4 ∧
        (∀ b ∈ p2 ++ p3 ++ p4, busyFlag b = true) ∧
        t.events = s.events ++ [.enCtl, .dir .output, .wait .powerup] ++
          (List.replicate 3 (writeEvents .instruction 0x30 ++ [.wait .settle])).flatten ++
          writeEvents .instruction 0x38 ++ [.wait .settle] ++
          pollEvents b1 ++ writeEvents .instruction 0x08 ++
          p2.flatMap pollEvents ++ pollEvents i2 ++ writeEvents .instruction 0x01 ++
          p3.flatMap pollEvents ++ pollEvents 0x00 ++ writeEvents .instruction 0x06 ++
          p4.flatMap pollEvents ++ pollEvents 0x00 ++ writeEvents .instruction 0x0C

/-- CMD b8 with the device busy for k more reads: k busy polls and an idle one, the write phase of b8 on
the instruction register, OK. The device then holds what the meaning of the byte's LCD instruction gives;
no other register changes (R164, R162, R109). -/
def Obligations.CmdCompletes : Prop :=
  ∀ (s : State) (b8 : Byte) (k : Nat),
    Operable s → s.lcd.busyFor k → 4 * (k + 1) + 5 ≤ s.pace →
    ∃ t, exec (.cmd b8) s = .next t ∧ Answered s t .ok 0x00 ∧ TransferFrame s t ∧
      t.pcnt = s.pcnt ∧ BusAfterWrite t .instruction b8 ∧
      t.dbIn = statusByte false s.lcd.device.ac ∧
      t.events = s.events ++ s.lcd.pollTrace (k + 1) ++ writeEvents .instruction b8 ∧
      (∀ f, f.lcd = s.lcd.afterPolls (k + 1) → f.platform = s.platform →
        ∃ g, exec (decodeLcd b8) f = .next g ∧ t.lcd = g.lcd)

/-- PUTC b8 with the device busy for k more reads: the polls, the write phase of b8 on the data register,
OK. With the display shift off, on an 8-bit two-line device whose address counter is in the two-line map,
DDRAM at the counter holds b8, every other cell is as before and the counter has moved on; with the shift on,
the device is unmodelled (R165, R163, R236, R237). -/
def Obligations.PutcCompletes : Prop :=
  ∀ (s : State) (b8 : Byte) (k : Nat),
    Operable s → s.lcd.busyFor k → 4 * (k + 1) + 5 ≤ s.pace →
    ∃ t, exec (.putc b8) s = .next t ∧ Answered s t .ok 0x00 ∧ TransferFrame s t ∧
      t.pcnt = s.pcnt ∧ BusAfterWrite t .data b8 ∧
      t.dbIn = statusByte false s.lcd.device.ac ∧
      t.events = s.events ++ s.lcd.pollTrace (k + 1) ++ writeEvents .data b8 ∧
      DrawsBusy s.lcd t.lcd ∧
      (s.lcd.device.s = false → s.lcd.device.if8 = true → s.lcd.device.n2 = true →
        inTwoLineMap s.lcd.device.ac = true →
        t.lcd.device.ddram.read s.lcd.device.ac = b8 ∧
        (∀ a, a ≠ s.lcd.device.ac → t.lcd.device.ddram.read a = s.lcd.device.ddram.read a) ∧
        t.lcd.device.ac = nextAddr s.lcd.device.ac s.lcd.device.id ∧
        SameInterface s.lcd.device t.lcd.device ∧ SameDisplay s.lcd.device t.lcd.device ∧
        SameEntry s.lcd.device t.lcd.device) ∧
      (s.lcd.device.s = true → t.lcd.device.unmodelled = true)

/-- STATUS makes one read phase, whatever the device's state, and answers OK with the byte: busy in bit 7,
the address counter below it when idle. It never waits and changes nothing of the device but BUSY's count
(R166, R226, R109). -/
def Obligations.StatusCompletes : Prop :=
  ∀ (s : State), Operable s → 4 ≤ s.pace →
    ∃ t v, exec .status s = .next t ∧ Answered s t .ok v ∧ TransferFrame s t ∧ t.pcnt = s.pcnt ∧
      BusAfterRead s t v ∧ t.events = s.events ++ pollEvents v ∧ t.lcd = s.lcd.afterStatus ∧
      (s.lcd.device.unmodelled = false → s.lcd.device.busy = .finite 0 →
        v = statusByte false s.lcd.device.ac) ∧
      (s.lcd.device.unmodelled = false → s.lcd.device.busy ≠ .finite 0 → busyFlag v = true)

/-- WAITIDLE with the device busy for k more reads: k + 1 polls, OK with the idle status byte (R167, R160). -/
def Obligations.WaitidleCompletes : Prop :=
  ∀ (s : State) (k : Nat), Operable s → s.lcd.busyFor k → 4 * (k + 1) ≤ s.pace →
    ∃ t, exec .waitidle s = .next t ∧ Answered s t .ok (statusByte false s.lcd.device.ac) ∧
      TransferFrame s t ∧ t.pcnt = s.pcnt ∧ BusAfterRead s t (statusByte false s.lcd.device.ac) ∧
      t.events = s.events ++ s.lcd.pollTrace (k + 1) ∧ t.lcd = s.lcd.afterPolls (k + 1)

/-- GOTO x, y in range: the polls, the write phase of the set-address byte, OK with the DDRAM address
`(y - 1) * 0x40 + (x - 1)`; an 8-bit 2-line device's address counter is that address and its DDRAM is as
before, and a device that is not so is unmodelled (R192, R190, R235). -/
def Obligations.GotoCompletes : Prop :=
  ∀ (s : State) (x y : Byte) (k : Nat),
    Operable s → s.lcd.busyFor k → 4 * (k + 1) + 5 ≤ s.pace →
    1 ≤ x.toNat → x.toNat ≤ 16 → (y = 1 ∨ y = 2) →
    ∃ t, exec (.goto x y) s = .next t ∧
      Answered s t .ok (BitVec.ofNat 8 ((y.toNat - 1) * 0x40 + (x.toNat - 1))) ∧
      TransferFrame s t ∧ t.pcnt = s.pcnt ∧
      BusAfterWrite t .instruction
        (BitVec.ofNat 8 (0x80 + (y.toNat - 1) * 0x40 + (x.toNat - 1))) ∧
      t.dbIn = statusByte false s.lcd.device.ac ∧
      t.events = s.events ++ s.lcd.pollTrace (k + 1) ++
        writeEvents .instruction
          (BitVec.ofNat 8 (0x80 + (y.toNat - 1) * 0x40 + (x.toNat - 1))) ∧
      DrawsBusy s.lcd t.lcd ∧
      (s.lcd.device.if8 = true → s.lcd.device.n2 = true →
        t.lcd.device.ac = BitVec.ofNat 7 ((y.toNat - 1) * 0x40 + (x.toNat - 1)) ∧
        SameDdram s.lcd.device t.lcd.device ∧ SameInterface s.lcd.device t.lcd.device ∧
        SameDisplay s.lcd.device t.lcd.device ∧ SameEntry s.lcd.device t.lcd.device) ∧
      (s.lcd.device.if8 = false ∨ s.lcd.device.n2 = false → t.lcd.device.unmodelled = true)

/-- WAITB n where the busy flag clears within the bound (k < n busy polls): k + 1 polls, OK with the idle
status byte, PCNT counted down by the polls made (R168). -/
def Obligations.WaitbCompletesWithinBound : Prop :=
  ∀ (s : State) (n : Byte) (k : Nat),
    Operable s → s.platform.hasBoundedWait = true → s.lcd.busyFor k → k < n.toNat →
    4 * (k + 1) ≤ s.pace →
    ∃ t, exec (.waitb n) s = .next t ∧ Answered s t .ok (statusByte false s.lcd.device.ac) ∧
      TransferFrame s t ∧ t.pcnt = n - BitVec.ofNat 8 (k + 1) ∧
      BusAfterRead s t (statusByte false s.lcd.device.ac) ∧
      t.events = s.events ++ s.lcd.pollTrace (k + 1) ∧ t.lcd = s.lcd.afterPolls (k + 1)

/-- WAITB n where the device stays busy for n polls or more, or for ever: exactly n polls, ERR_TIMEOUT with
the last busy byte, or with 0x00 and no poll when n = 0 (R168, R256). -/
def Obligations.WaitbTimesOut : Prop :=
  ∀ (s : State) (n : Byte),
    Operable s → s.platform.hasBoundedWait = true → s.lcd.device.unmodelled = false →
    (s.lcd.device.busy = .forever ∨ ∃ k, s.lcd.device.busy = .finite k ∧ n.toNat ≤ k) →
    4 * n.toNat ≤ s.pace →
    ∃ t v, exec (.waitb n) s = .next t ∧ Answered s t .errTimeout v ∧ TransferFrame s t ∧
      t.pcnt = 0 ∧ t.events = s.events ++ s.lcd.pollTrace n.toNat ∧
      t.lcd = s.lcd.afterPolls n.toNat ∧ t.dbOut = s.dbOut ∧ t.e = false ∧
      (n = 0 → v = 0x00 ∧ t.dir = s.dir ∧ t.rs = s.rs ∧ t.rw = s.rw ∧ t.dbIn = s.dbIn) ∧
      (n ≠ 0 → busyFlag v = true ∧ (s.lcd.answers n.toNat).getLast? = some v ∧
        BusAfterRead s t v)

/-! ### LCD instruction bytes: the device's reaction -/

/-- LCD_CLEAR on a device that takes it: every cell reads 0x20, AC is 0, ID is increment; S, display
control and interface as before; BUSY is drawn (R228, R224). Nothing of the block changes. -/
def Obligations.ClearDisplayCompletes : Prop :=
  ∀ (s : State), Takes s →
    ∃ t, exec .lcdClear s = .next t ∧ SameButLcd s t ∧ DrawsBusy s.lcd t.lcd ∧
      (∀ a, t.lcd.device.ddram.read a = 0x20) ∧ t.lcd.device.ac = 0 ∧ t.lcd.device.id = true ∧
      t.lcd.device.s = s.lcd.device.s ∧ SameInterface s.lcd.device t.lcd.device ∧
      SameDisplay s.lcd.device t.lcd.device

/-- LCD_RETURN_HOME on a device that takes it: AC is 0, all else as before (R229, R224). -/
def Obligations.ReturnHomeCompletes : Prop :=
  ∀ (s : State) (x : BitVec 1), Takes s →
    ∃ t, exec (.lcdReturnHome x) s = .next t ∧ SameButLcd s t ∧ DrawsBusy s.lcd t.lcd ∧
      t.lcd.device.ac = 0 ∧ SameDdram s.lcd.device t.lcd.device ∧
      SameInterface s.lcd.device t.lcd.device ∧ SameDisplay s.lcd.device t.lcd.device ∧
      SameEntry s.lcd.device t.lcd.device

/-- LCD_ENTRY_MODE on a device that takes it: ID is v[1], S is v[0], all else as before (R230, R224). -/
def Obligations.EntryModeCompletes : Prop :=
  ∀ (s : State) (id sh : BitVec 1), Takes s →
    ∃ t, exec (.lcdEntryMode id sh) s = .next t ∧ SameButLcd s t ∧ DrawsBusy s.lcd t.lcd ∧
      (t.lcd.device.id = true ↔ id = 1) ∧ (t.lcd.device.s = true ↔ sh = 1) ∧
      t.lcd.device.ac = s.lcd.device.ac ∧ SameDdram s.lcd.device t.lcd.device ∧
      SameInterface s.lcd.device t.lcd.device ∧ SameDisplay s.lcd.device t.lcd.device

/-- LCD_DISPLAY_CONTROL on a device that takes it: D, C, B are v[2], v[1], v[0]; DDRAM, AC and all else as
before (R231, R224). -/
def Obligations.DisplayControlCompletes : Prop :=
  ∀ (s : State) (d c b : BitVec 1), Takes s →
    ∃ t, exec (.lcdDisplayControl d c b) s = .next t ∧ SameButLcd s t ∧
      DrawsBusy s.lcd t.lcd ∧ (t.lcd.device.d = true ↔ d = 1) ∧
      (t.lcd.device.c = true ↔ c = 1) ∧ (t.lcd.device.b = true ↔ b = 1) ∧
      t.lcd.device.ac = s.lcd.device.ac ∧ SameDdram s.lcd.device t.lcd.device ∧
      SameInterface s.lcd.device t.lcd.device ∧ SameEntry s.lcd.device t.lcd.device

/-- LCD_SET_DDRAM on a device that takes it: with two lines and an address in 0x00 to 0x27 or 0x40 to 0x67
AC is that address and all else is as before; otherwise the device is unmodelled (R235, R224). -/
def Obligations.SetDdramCompletes : Prop :=
  ∀ (s : State) (a : Addr7), Takes s →
    ∃ t, exec (.lcdSetDdram a) s = .next t ∧ SameButLcd s t ∧ DrawsBusy s.lcd t.lcd ∧
      (s.lcd.device.n2 = true →
        (a.toNat ≤ 0x27 ∨ (0x40 ≤ a.toNat ∧ a.toNat ≤ 0x67)) →
        t.lcd.device.ac = a ∧ SameDdram s.lcd.device t.lcd.device ∧
        SameInterface s.lcd.device t.lcd.device ∧ SameDisplay s.lcd.device t.lcd.device ∧
        SameEntry s.lcd.device t.lcd.device) ∧
      (s.lcd.device.n2 = false ∨ (0x27 < a.toNat ∧ a.toNat < 0x40) ∨ 0x67 < a.toNat →
        t.lcd.device.unmodelled = true)

/-- LCD_FUNCTION_SET outside the reset sequence (as log 10 tells it apart) on a device that takes it: 8-bit,
two lines and the current font change nothing; any other setting leaves the device unmodelled (R233,
R224). -/
def Obligations.FunctionSetCompletes : Prop :=
  ∀ (s : State) (dl n f : BitVec 1) (x : BitVec 2), Takes s →
    continuesReset s.lcd.device.seqPos dl n f x = false →
    ∃ t, exec (.lcdFunctionSet dl n f x) s = .next t ∧ SameButLcd s t ∧
      DrawsBusy s.lcd t.lcd ∧
      (dl = 1 ∧ n = 1 ∧ (f = 1 ↔ s.lcd.device.f10 = true) →
        t.lcd.device.ac = s.lcd.device.ac ∧ SameDdram s.lcd.device t.lcd.device ∧
        SameInterface s.lcd.device t.lcd.device ∧ SameDisplay s.lcd.device t.lcd.device ∧
        SameEntry s.lcd.device t.lcd.device) ∧
      (dl = 0 ∨ n = 0 ∨ (f = 1 ↔ s.lcd.device.f10 = false) → t.lcd.device.unmodelled = true)

/-- LCD_SHIFT, LCD_SET_CGRAM and LCD_NONE_0x00 set UNMODELLED, whatever the device, and change nothing of
the block (R232, R234, R241). -/
def Obligations.UnfollowedBytesSetUnmodelled : Prop :=
  ∀ (s : State), s.platform.strobeTimingOK = true →
    (∀ sc rl x, ∃ t, exec (.lcdShift sc rl x) s = .next t ∧ SameButLcd s t ∧
      t.lcd.device.unmodelled = true ∧ DrawsBusy s.lcd t.lcd) ∧
    (∀ a, ∃ t, exec (.lcdSetCgram a) s = .next t ∧ SameButLcd s t ∧
      t.lcd.device.unmodelled = true ∧ DrawsBusy s.lcd t.lcd) ∧
    (∃ t, exec .lcdNone s = .next t ∧ SameButLcd s t ∧ t.lcd.device.unmodelled = true ∧
      DrawsBusy s.lcd t.lcd)

/-- R240 and R227: any byte, instruction or data, latched while the device is busy leaves it unmodelled, and
so does an instruction byte latched while it has a 4-bit interface, outside the reset sequence (as log 10
tells it apart). -/
def Obligations.WriteToBusyOrFourBitDeviceSetsUnmodelled : Prop :=
  ∀ (s : State) (v : Byte), s.platform.strobeTimingOK = true →
    (s.lcd.device.busy ≠ .finite 0 →
      (∃ t, exec (decodeLcd v) s = .next t ∧ t.lcd.device.unmodelled = true) ∧
        (latchData v s).lcd.device.unmodelled = true) ∧
    (s.lcd.device.if8 = false →
      (∀ dl n f x, decodeLcd v = .lcdFunctionSet dl n f x →
        continuesReset s.lcd.device.seqPos dl n f x = false) →
      ∃ t, exec (decodeLcd v) s = .next t ∧ t.lcd.device.unmodelled = true)

/-- R228, V-L1-6: two clears in a row leave the device as one does: the same cells, address counter, entry
mode, display control and interface. The first leaves it busy for k more reads, and the second is latched
after the k + 1 status reads that find it idle again. -/
def Obligations.ClearTwiceIsClearOnce : Prop :=
  ∀ (s t : State) (k : Nat), Takes s → exec .lcdClear s = .next t → t.lcd.busyFor k →
    ∃ u, exec .lcdClear { t with lcd := t.lcd.afterPolls (k + 1) } = .next u ∧
      { u.lcd.device with busy := t.lcd.device.busy } = t.lcd.device

/-- R239: from any device state, on a platform that meets R288 and R289, the power-up delay, three writes
of 0x30 and one of 0x38, each followed by a settle delay, leave an 8-bit, 2-line, 5x8 device, idle and
modelled. -/
def Obligations.ResetByInstructionRestoresDevice : Prop :=
  ∀ (s : State), s.platform.strobeTimingOK = true → s.platform.delaySufficient = true →
    ∃ t, resetSequence s = .next t ∧ SameButLcd s t ∧ t.lcd.device.if8 = true ∧
      t.lcd.device.n2 = true ∧ t.lcd.device.f10 = false ∧ t.lcd.device.busy = .finite 0 ∧
      t.lcd.device.unmodelled = false

/-- R226, R60: a status read of a modelled device changes only the count of busy answers (and uses up a
draw); a count of zero or infinity stays. -/
def Obligations.StatusReadOnlyCountsBusy : Prop :=
  ∀ (l : Lcd), l.device.unmodelled = false →
    ({ l.afterStatus.device with busy := l.device.busy } = l.device) ∧
    l.afterStatus.busyDraws = l.busyDraws ∧
    (l.device.busy = .finite 0 → l.afterStatus.device.busy = .finite 0) ∧
    (∀ k, l.device.busy = .finite (k + 1) → l.afterStatus.device.busy = .finite k) ∧
    (l.device.busy = .forever → l.afterStatus.device.busy = .forever)

/-! ### Operands -/

/-- R190, R191 and R198: the range; the mapper's value, also as the concatenation `{y - 1, 00, x - 1}`; its
inverse (hence it is injective); its image; the set-address byte, which the device reads as set DDRAM
address; and the successor law. -/
def Obligations.MapperLaws : Prop :=
  (∀ x y : Byte, inRange x y = true ↔ (1 ≤ x.toNat ∧ x.toNat ≤ 16 ∧ (y = 1 ∨ y = 2))) ∧
  (∀ x y : Byte, inRange x y = true →
    (mapXY x y).toNat = (x.toNat - 1) + (y.toNat - 1) * 0x40 ∧
    mapXY x y = (y - 1).extractLsb' 0 1 ++ 0b00#2 ++ (x - 1).extractLsb' 0 4 ∧
    x.toNat = ((mapXY x y).extractLsb' 0 4).toNat + 1 ∧
    y.toNat = ((mapXY x y).extractLsb' 6 1).toNat + 1 ∧
    ((mapXY x y).toNat ≤ 0x0F ∨ (0x40 ≤ (mapXY x y).toNat ∧ (mapXY x y).toNat ≤ 0x4F)) ∧
    (setAddressByte (mapXY x y)).toNat = 0x80 + (mapXY x y).toNat ∧
    decodeLcd (setAddressByte (mapXY x y)) = .lcdSetDdram (mapXY x y) ∧
    (x.toNat ≤ 15 → mapXY x y + 1 = mapXY (x + 1) y)) ∧
  (∀ a : Addr7, a.toNat ≤ 0x0F ∨ (0x40 ≤ a.toNat ∧ a.toNat ≤ 0x4F) →
    ∃ x y, inRange x y = true ∧ mapXY x y = a)

/-- R237: the address counter's successor and predecessor in 2-line mode, with both wraps (the successor of
0x7F apart, which the rule does not give: log 24); inside the map both stay inside and undo each other. -/
def Obligations.NextAddressFollowsTwoLineMap : Prop :=
  ∀ ac : Addr7,
    (ac ≠ 0x7F → nextAddr ac true =
      if ac = 0x27 then 0x40 else if ac = 0x67 then 0x00 else ac + 1) ∧
    (nextAddr ac false =
      if ac = 0x40 then 0x27 else if ac = 0x00 then 0x67 else ac - 1) ∧
    (inTwoLineMap ac = true → ∀ inc,
      inTwoLineMap (nextAddr ac inc) = true ∧ nextAddr (nextAddr ac inc) (!inc) = ac)

/-- R79: the status byte's fields: busy is bit 7, the address counter bits 6 to 0. -/
def Obligations.StatusByteFields : Prop :=
  (∀ s : Byte, busyFlag s = s[7] ∧ addressCounter s = s.extractLsb' 0 7) ∧
  (∀ busy ac, busyFlag (statusByte busy ac) = busy ∧ addressCounter (statusByte busy ac) = ac)

/-- R195, R197, R194, R196: the pseudo-instructions expand as the table of R82 says. -/
def Obligations.PseudoInstructionsExpand : Prop :=
  Asm.expand .clear = some [.cmd 0x01] ∧ Asm.expand .home = some [.cmd 0x02] ∧
    Asm.expand .dispoff = some [.cmd 0x08] ∧ Asm.expand .dispon = some [.cmd 0x0C] ∧
    (∀ i s, i ≤ 1 → s ≤ 1 →
      Asm.expand (.entry i s) = some [.cmd (BitVec.ofNat 8 (4 + 2 * i + s))]) ∧
    (∀ a, a ≤ 127 → Asm.expand (.setaddr a) = some [.cmd (BitVec.ofNat 8 (128 + a))]) ∧
    (∀ l, Asm.expand (.puts l) = some (l.map .putc)) ∧
    (∀ l r, (∀ c ∈ l, c ≠ 0x00) →
      Asm.expand (.render (l ++ 0x00 :: r)) =
        some (l.map fun c => if c = 0x0A then .goto 1 2 else .putc c)) ∧
    (∀ l, (∀ c ∈ l, c ≠ 0x00) →
      Asm.expand (.render l) = some (l.map fun c => if c = 0x0A then .goto 1 2 else .putc c))

/-! ### Reset -/

/-- R39: after a step with rst = 1 every register of the block holds its reset value, whatever the block was
doing (SYNC_0 and SYNC_1 hold any value), and the output ports show it. -/
def Obligations.ResetEdgeRestoresRegisters : Prop :=
  ∀ (s : State), s.rstNow = true →
    ∃ t, step s = .next t ∧ t.drvState = .uninitialized ∧ t.dir = .input ∧ t.dbOut = 0x00 ∧
      t.rs = .instruction ∧ t.rw = .write ∧ t.e = false ∧ t.ctlOe = false ∧ t.dbIn = 0x00 ∧
      t.seq = .idle ∧ t.dcnt = 0 ∧ t.rcnt = 0 ∧ t.pcnt = 0 ∧ t.cmdOp = 0 ∧ t.cmdA = 0 ∧
      t.cmdB = 0 ∧ t.rspValid = false ∧ t.rspCode = .ok ∧ t.rspData = 0x00 ∧
      (t.rstNow = false →
        t.ports =
          { cmdReady := true, rspValid := false, rspCode := 0, rspData := 0x00, drvState := 0,
            lcdDbO := 0x00, lcdDbOe := false, lcdRsO := false, lcdRwO := false, lcdEO := false,
            lcdCtlOe := false })

/-- R281, R282: a reset with E = 1 leaves the device unmodelled; with E = 0 it changes no device field. No
response is given and no event appended. -/
def Obligations.ResetTouchesDeviceOnlyInStrobe : Prop :=
  ∀ (s t : State), s.rstNow = true → step s = .next t →
    (s.e = true → t.lcd.device.unmodelled = true) ∧ (s.e = false → t.lcd = s.lcd) ∧
      t.responses = s.responses ∧ t.trace = s.trace

/-- The state after reset meets the invariant, the spacing of events and the record of the pins. Its free values are any (log 5,
log 6) and its open parameters meet R7 (log 4); the statement rests on none of their values. -/
def Obligations.ResetMeetsInvariant : Prop :=
  Inv State.reset ∧ Spaced State.reset ∧ PinsRecorded State.reset

/-! ### Every step -/

/-- R41, R161: every step keeps the invariant: E high only in a strobe, with the direction matching RW; the
control lines released only in Uninitialized with E low; every write phase directly after an idle status
read, a timed delay or EnCtl; DDRAM in canonical form. -/
def Obligations.StepKeepsInvariant : Prop :=
  ∀ (s t : State), Inv s → step s = .next t → Inv t

/-- R113: the block's programs meet every `require` of the transport: from a state that meets the
invariant, every step answers a next state. -/
def Obligations.StepNeverStops : Prop :=
  ∀ (s : State), Inv s → ∃ t, step s = .next t

/-- R105, R106, R110, R111: every step keeps every event's least distance from the events before it. -/
def Obligations.StepKeepsEventSpacing : Prop :=
  ∀ (s t : State), Inv s → Spaced s → step s = .next t → Spaced t

/-- R112: the block and the device never drive the data lines at once. -/
def Obligations.NoBusContention : Prop :=
  ∀ (s : State), Inv s → ¬ (s.blockDrives = true ∧ s.deviceDrives = true)

/-- R25, R40, R54: on a well-formed platform the pin PIN_MAP gives a role carries that role's line: bit k of
DB_OUT on DBk while DIR is Output, RS, RW and E while CTL_OE is 1, and the block drives no other pin. -/
def Obligations.PadsFollowPinMap : Prop :=
  ∀ (s : State), s.platform.wellFormed = true →
    (∀ k pin, s.platform.pinMap[k]? = some pin →
      (k < 8 → s.padLevel pin = if s.dir = .output then some (s.dbOut.getLsbD k) else none) ∧
      (k = 8 → s.padLevel pin = if s.ctlOe then some s.rs.level else none) ∧
      (k = 9 → s.padLevel pin = if s.ctlOe then some s.rw.level else none) ∧
      (k = 10 → s.padLevel pin = if s.ctlOe then some s.e else none)) ∧
    (∀ pin, pin ∉ s.platform.pinMap → s.padLevel pin = none)

/-- R41 items 5 and 6, R131, R137: without rst, DRV_STATE only moves forward, Ready is terminal, and the
control lines once driven stay driven. -/
def Obligations.DrvStateMovesForward : Prop :=
  ∀ (s t : State), Inv s → s.rstNow = false → step s = .next t →
    s.drvState.rank ≤ t.drvState.rank ∧ (s.drvState = .ready → t.drvState = .ready) ∧
      (s.ctlOe = true → t.ctlOe = true)

/-- R41 item 4 and R105, R106: the event that ends a strobe finds every other output as it was when E rose:
while E is high, one event (pace 0) only lowers E. -/
def Obligations.OutputsHoldWhileStrobing : Prop :=
  ∀ (s t : State), Inv s → s.rstNow = false → s.pace = 0 → s.e = true → step s = .next t →
    t.e = false ∧ t.dir = s.dir ∧ t.rs = s.rs ∧ t.rw = s.rw ∧ t.dbOut = s.dbOut ∧
      t.ctlOe = s.ctlOe ∧ t.drvState = s.drvState

/-- R242: once true, UNMODELLED stays true in Configured and Ready, through a block reset too; only the
timed part of INIT can clear it. -/
def Obligations.UnmodelledStays : Prop :=
  ∀ (s t : State), Inv s → (s.drvState = .configured ∨ s.drvState = .ready) →
    s.lcd.device.unmodelled = true → step s = .next t → t.lcd.device.unmodelled = true

/-- R169, R257: CMD, PUTC, WAITIDLE and GOTO on a device that is busy for ever never answer: after any number of
further steps the block is still in the command, has given no response, has strobed no write, and has
appended one event for every event the pace allows. -/
def Obligations.BusyForeverNeverAnswers : Prop :=
  ∀ (s : State) (i : Instr) (n : Nat),
    Operable s → s.host = [] → s.lcd.device.unmodelled = false →
    s.lcd.device.busy = .forever → waitsForIdle i = true →
    ∃ u t, exec i s = .next u ∧ Sys2Proof.core.run n u = .next t ∧ t.cmdReady = false ∧
      t.responses = s.responses ∧ t.rspValid = false ∧ t.lcd.device.busy = .forever ∧
      t.trace.length = s.trace.length + (n + 1) * (s.pace + 1) ∧
      (t.events.drop s.events.length).all (fun ev => ev != .eDown) = true

/-- R190, R192, R236: GOTO x, y and then PUTC c, on a display that is on with shift off, shows c in screen
cell (x, y) and leaves every other cell as it was. That the screen shows the unshifted cells is R243 only
while no shift has ever been applied, which no field of the state holds; on a device that was shifted before
it is the model's choice (log 25). -/
def Obligations.GotoThenPutcShowsCharacter : Prop :=
  ∀ (s : State) (x y c : Byte) (k k' : Nat) (r : List Busy),
    Operable s → s.lcd.busyFor k → s.lcd.busyDraws = .finite k' :: r →
    4 * (k + 1) + 5 ≤ s.pace → 4 * (k' + 1) + 5 ≤ s.pace →
    s.lcd.device.if8 = true → s.lcd.device.n2 = true → s.lcd.device.s = false →
    s.lcd.device.d = true → inRange x y = true →
    ∃ u t, exec (.goto x y) s = .next u ∧ exec (.putc c) u = .next t ∧
      t.screen x y = some c ∧
      ∀ x' y', inRange x' y' = true → (x', y') ≠ (x, y) → t.screen x' y' = s.screen x' y'

/-! ### Statements added after the first review -/

/-- PUTC with the display shift off on any modelled device, 4-bit and one-line ones and an address counter
outside the map included: it completes, DDRAM at the counter holds b8, every other cell and the other fields
are as before, and the counter has moved on where R237 gives the next address. That a 4-bit device takes the
byte is log 18, that every address has a cell log 7, and the counter elsewhere log 24. -/
def Obligations.PutcOffTheTwoLineMapCompletes : Prop :=
  ∀ (s : State) (b8 : Byte) (k : Nat),
    Operable s → s.lcd.busyFor k → 4 * (k + 1) + 5 ≤ s.pace → s.lcd.device.s = false →
    ∃ t, exec (.putc b8) s = .next t ∧ Answered s t .ok 0x00 ∧ TransferFrame s t ∧
      DrawsBusy s.lcd t.lcd ∧
      t.lcd.device.ddram.read s.lcd.device.ac = b8 ∧
      (∀ a, a ≠ s.lcd.device.ac → t.lcd.device.ddram.read a = s.lcd.device.ddram.read a) ∧
      (s.lcd.device.n2 = true → ¬ (s.lcd.device.id = true ∧ s.lcd.device.ac = 0x7F) →
        t.lcd.device.ac = nextAddr s.lcd.device.ac s.lcd.device.id) ∧
      SameInterface s.lcd.device t.lcd.device ∧ SameDisplay s.lcd.device t.lcd.device ∧
      SameEntry s.lcd.device t.lcd.device

/-- R100, R39: every step keeps the record of the pins: DIR, RS, RW and DB_OUT are what the events of the
trace make of a reset's pins while the control lines are driven, and a reset's while they are released. -/
def Obligations.StepKeepsPinRecord : Prop :=
  ∀ (s t : State), Inv s → PinsRecorded s → step s = .next t → PinsRecorded t

/-- R100: the pin trace is the event trace with the events that change no pin removed: at pace 0, the event a
step appends is appended to the pin trace exactly when one of the outputs to the LCD is not what it was, and
otherwise the pin trace stays. -/
def Obligations.PinTraceKeepsEventsThatChangePins : Prop :=
  ∀ (s t : State) (c : Nat) (ev : Event), Inv s → PinsRecorded s → s.rstNow = false → s.pace = 0 →
    step s = .next t → t.trace = (c, ev) :: s.trace →
    (t.pins ≠ s.pins ∨ t.e ≠ s.e ∨ t.ctlOe ≠ s.ctlOe →
      pinTrace .atReset t.events = pinTrace .atReset s.events ++ [ev]) ∧
    (t.pins = s.pins ∧ t.e = s.e ∧ t.ctlOe = s.ctlOe →
      pinTrace .atReset t.events = pinTrace .atReset s.events)

/-- R169, R257, R160: a state that polls a modelled device busy for ever steps to such a state, with no
response, no write strobed, DRV_STATE, DB_OUT and the device as before, and one event for every event the
pace allows. -/
def Obligations.PollingForeverStaysPolling : Prop :=
  ∀ (s t : State), Inv s → PollsForever s → s.rstNow = false → step s = .next t →
    PollsForever t ∧ t.rspValid = false ∧ t.responses = s.responses ∧ t.cmdReady = false ∧
      t.drvState = s.drvState ∧ t.dbOut = s.dbOut ∧ t.lcd.device = s.lcd.device ∧
      ∃ es, t.events = s.events ++ es ∧ es.length = s.pace + 1 ∧ ∀ ev ∈ es, ev ≠ .eDown

/-- R139, R169, R257: INIT from Uninitialized on an untouched block, whose draws after the synchronized
writes are at most two finite ones and then an infinite one (after display-off, clear or entry mode), has
given no response and polls the device in Configured, for ever (PollingForeverStaysPolling). -/
def Obligations.InitOnBusyForeverDeviceKeepsPolling : Prop :=
  ∀ (s : State) (q1 q2 q3 q4 : Busy) (ks : List Nat) (r : List Busy),
    s.drvState = .uninitialized → s.ctlOe = false → s.e = false →
    s.platform.strobeTimingOK = true → s.platform.delaySufficient = true → ks.length ≤ 2 →
    s.lcd.busyDraws = q1 :: q2 :: q3 :: q4 :: (ks.map .finite ++ .forever :: r) →
    36 + (ks.map fun k => 4 * (k + 1) + 5).sum ≤ s.pace →
    ∃ t, exec .init s = .next t ∧ PollsForever t ∧ t.drvState = .configured ∧
      t.rspValid = false ∧ t.responses = s.responses

/-! ### Statements added after the second review -/

/-- R26, R194, R109: an edge in IDLE at which no word is accepted (the host offers nothing, is quiet, or drops
a word it offers only after an OK response because the last was none) changes the synchronizer, RSP_VALID,
the edge's index and the host's list, and nothing else of the block, the device or the records. -/
def Obligations.IdleEdgeChangesOnlySynchronizer : Prop :=
  ∀ (s : State), s.seq = .idle →
    (s.host = [] ∨ (∃ h, s.host = .quiet :: h) ∨
      ∃ w h, s.host = .offerIfOk w :: h ∧ s.rspCode ≠ .ok) →
    ∃ t, step s = .next t ∧ EdgeFrame s t ∧ t.seq = .idle ∧ t.host = s.host.tail ∧
      t.cmdOp = s.cmdOp ∧ t.cmdA = s.cmdA ∧ t.cmdB = s.cmdB

/-- R33, R105, R106, R110: while a program runs, DCNT holds what the event just appended makes it count: a
pulse, a hold, a delay, or the wait of the strobe to come for C_AS and C_E_LOW. (That it does so from `Ctl`
on, and is 0 after `Dir` and `EnCtl`, is log 20.) -/
def Obligations.DelayCounterHoldsWhatIsDue : Prop :=
  ∀ (s t : State) (c : Nat) (ev : Event) (old : List (Nat × Event)) (todo : List Micro)
    (fin : Finish), Inv s → Spaced s → step s = .next t → t.seq = .running todo fin →
    t.trace = (c, ev) :: old → t.cycle = c ∧ t.dcnt = t.counted ev

/-- The pace is only how far one step goes (log 1): outside IDLE, with no act of the host that a step uses up,
one step at pace n is m + 1 steps at pace 0, where m is n or the last of them has given the response. -/
def Obligations.StepAtPaceIsStepsAtPaceZero : Prop :=
  ∀ (s u : State) (n : Nat), s.seq ≠ .idle → s.hostPasses = s →
    step { s with pace := n } = .next u →
    ∃ m ≤ n, Sys2Proof.core.run (m + 1) { s with pace := 0 } = .next { u with pace := 0 } ∧
      (m < n → u.seq = .idle ∧ u.rspValid = true)
end

