-- ==== Sys2Proof/Laws/Memory.lean ====
section
/-! SUPPORT. The laws of the device's DDRAM: a cell reads what was last written to it, a write leaves every
other cell, and every operation keeps the canonical form. -/

namespace Sys2Proof.Machine

/-! ### Lookup in placed cells -/

theorem lookup_none_of_rising {a : Nat} {cells : List Host.Cell} :
    ∀ {lo : Nat}, a ≤ lo → Memory.risingFrom (some lo) cells = true →
      Memory.lookup a cells = none := by
  induction cells with
  | nil => intro lo _ _; rfl
  | cons c r ih =>
    intro lo hlo h
    obtain ⟨k, v⟩ := c
    simp only [Memory.risingFrom, Option.all_some, Bool.and_eq_true, decide_eq_true_eq] at h
    have hk : k ≠ a := by omega
    simp only [Memory.lookup, hk, if_false]
    exact ih (by omega) h.2

theorem lookup_place_other {a b : Nat} (h : b ≠ a) (v : Option Byte) (cells : List Host.Cell) :
    Memory.lookup b (Memory.place a v cells) = Memory.lookup b cells := by
  induction cells with
  | nil => cases v <;> simp [Memory.place, Memory.lookup, Ne.symm h]
  | cons c r ih =>
    obtain ⟨k, w⟩ := c
    by_cases hk : k < a
    · simp [Memory.place, hk, Memory.lookup, ih]
    · by_cases hka : k = a
      · subst hka
        cases v <;> simp [Memory.place, Memory.lookup, Ne.symm h]
      · cases v <;> simp [Memory.place, hk, hka, Memory.lookup, Ne.symm h]

theorem lookup_place_same {a : Nat} (v : Option Byte) (cells : List Host.Cell) :
    ∀ lo, Memory.risingFrom lo cells = true → Memory.lookup a (Memory.place a v cells) = v := by
  induction cells with
  | nil => intro _ _; cases v <;> simp [Memory.place, Memory.lookup]
  | cons c r ih =>
    intro lo h
    obtain ⟨k, w⟩ := c
    simp only [Memory.risingFrom, Bool.and_eq_true] at h
    by_cases hk : k < a
    · have hne : k ≠ a := by omega
      simp [Memory.place, hk, Memory.lookup, hne, ih _ h.2]
    · cases v with
      | some b => simp [Memory.place, hk, Memory.lookup]
      | none =>
        by_cases hka : k = a
        · subst hka
          simp [Memory.place, lookup_none_of_rising le_rfl h.2]
        · simp [Memory.place, hk, hka, Memory.lookup,
            lookup_none_of_rising (show a ≤ k by omega) h.2]

/-! ### The canonical form -/

theorem rising_mono {cells : List Host.Cell} {lo hi : Nat} (h : lo ≤ hi)
    (hr : Memory.risingFrom (some hi) cells = true) :
    Memory.risingFrom (some lo) cells = true := by
  cases cells with
  | nil => rfl
  | cons c r =>
    obtain ⟨k, v⟩ := c
    simp only [Memory.risingFrom, Option.all_some, Bool.and_eq_true, decide_eq_true_eq] at hr ⊢
    exact ⟨by omega, hr.2⟩

theorem rising_place {a : Nat} (v : Option Byte) (cells : List Host.Cell) :
    ∀ lo : Option Nat, lo.all (· < a) = true → Memory.risingFrom lo cells = true →
      Memory.risingFrom lo (Memory.place a v cells) = true := by
  induction cells with
  | nil => intro lo hlo _; cases v <;> simp [Memory.place, Memory.risingFrom, hlo]
  | cons c r ih =>
    intro lo hlo h
    obtain ⟨k, w⟩ := c
    simp only [Memory.risingFrom, Bool.and_eq_true] at h
    by_cases hk : k < a
    · simp only [Memory.place, hk, if_true, Memory.risingFrom, Bool.and_eq_true]
      exact ⟨h.1, ih (some k) (by simpa using hk) h.2⟩
    · have hkeep : Memory.risingFrom lo (if k = a then r else (k, w) :: r) = true ∧
          Memory.risingFrom (some a) (if k = a then r else (k, w) :: r) = true := by
        by_cases hka : k = a
        · subst hka
          refine ⟨?_, by simpa using h.2⟩
          cases lo with
          | none =>
            cases r with
            | nil => simp [Memory.risingFrom]
            | cons d r =>
              obtain ⟨j, u⟩ := d
              have := h.2
              simp_all [Memory.risingFrom]
          | some l => simpa using rising_mono (by simp at hlo; omega) h.2
        · have : a < k := by omega
          simp [hka, Memory.risingFrom, h.1, h.2, this]
      cases v with
      | none => simpa [Memory.place, hk] using hkeep.1
      | some b =>
        simp only [Memory.place, hk, if_false, Option.map_some, Option.toList_some,
          List.singleton_append, Memory.risingFrom, Bool.and_eq_true]
        exact ⟨hlo, hkeep.2⟩

theorem mem_place {a : Nat} {v : Option Byte} {cells : List Host.Cell} {c : Host.Cell}
    (h : c ∈ Memory.place a v cells) : c ∈ cells ∨ ∃ b, v = some b ∧ c = (a, b) := by
  induction cells with
  | nil => cases v <;> simp_all [Memory.place]
  | cons d r ih =>
    obtain ⟨k, w⟩ := d
    by_cases hk : k < a
    · simp only [Memory.place, hk, if_true, List.mem_cons] at h
      rcases h with h | h
      · exact .inl (by simp [h])
      · exact (ih h).imp (by simp +contextual) id
    · have hle : ¬ k < a := hk
      cases v <;> by_cases hka : k = a <;>
        simp only [Memory.place, hle, hka, if_true, if_false, Option.map_some, Option.map_none,
          Option.toList_some, Option.toList_none, List.nil_append, List.singleton_append,
          List.mem_cons] at h ⊢ <;> aesop

/-- A write keeps the canonical form. -/
theorem Memory.write_wf {m : Memory} (h : m.wf = true) (a : Addr7) (v : Byte) :
    (m.write a v).wf = true := by
  simp only [Memory.wf, Bool.and_eq_true, List.all_eq_true, decide_eq_true_eq,
    bne_iff_ne, ne_eq] at h ⊢
  refine ⟨rising_place _ _ _ rfl h.1, fun c hc => ?_⟩
  rcases mem_place hc with hc | ⟨b, hb, rfl⟩
  · exact h.2 c hc
  · refine ⟨a.isLt, ?_⟩
    by_cases hv : v = m.unlisted a.toNat
    · simp [hv] at hb
    · simp only [hv, if_false, Option.some.injEq] at hb
      subst hb
      exact hv

/-- Cleared memory is in canonical form. -/
theorem Memory.allCleared_wf : Memory.allCleared.wf = true := rfl

/-- Memory that is any value is in canonical form. -/
theorem Memory.unknown_wf (n : Nat) : (Memory.mk (.unknown n) []).wf = true := rfl

/-! ### Reading -/

/-- A cell reads what was written to it. -/
theorem Memory.read_write_same {m : Memory} (h : m.wf = true) (a : Addr7) (v : Byte) :
    (m.write a v).read a = v := by
  simp only [Memory.wf, Bool.and_eq_true] at h
  simp only [Memory.read, Memory.write, lookup_place_same _ _ _ h.1]
  split
  · rename_i hv; rw [hv]; rfl
  · rfl

/-- A write leaves every other cell. -/
theorem Memory.read_write_other (m : Memory) {a b : Addr7} (h : b ≠ a) (v : Byte) :
    (m.write a v).read b = m.read b := by
  have hn : b.toNat ≠ a.toNat := fun e => h (BitVec.eq_of_toNat_eq e)
  simp only [Memory.read, Memory.write, lookup_place_other hn]
  rfl

/-- Every cleared cell reads CLEAR_FILL. -/
@[simp] theorem Memory.read_allCleared (a : Addr7) :
    Memory.allCleared.read a = Config.clearFill := rfl

end Sys2Proof.Machine
end

