-- ==== Sys2Proof/Laws/Device.lean ====
section
/-! SUPPORT. What the device's operations do: the status byte's fields, what a write does to a device that
takes it or not, that an LCD byte's meaning touches the device alone, that every operation keeps DDRAM in
canonical form, and what polls and delays change. -/

namespace Sys2Proof.Machine

/-! ### The status byte (R79) -/

@[simp] theorem busyFlag_statusByte (b : Bool) (a : Addr7) : busyFlag (statusByte b a) = b := by
  rw [busyFlag, statusByte, BitVec.getLsbD_append]
  simp

@[simp] theorem addressCounter_statusByte (b : Bool) (a : Addr7) :
    addressCounter (statusByte b a) = a := by
  simp only [addressCounter, statusByte]
  exact BitVec.extractLsb'_append_eq_right

/-! ### Single fields -/

@[simp] theorem Lcd.withBusy_device (q : Busy) (l : Lcd) :
    (l.withBusy q).device = { l.device with busy := q } := rfl
@[simp] theorem Lcd.withBusy_busyDraws (q : Busy) (l : Lcd) :
    (l.withBusy q).busyDraws = l.busyDraws := rfl
@[simp] theorem Lcd.atPos_device (pos : Nat) (l : Lcd) :
    (l.atPos pos).device = { l.device with seqPos := pos } := rfl
@[simp] theorem Lcd.atPos_busyDraws (pos : Nat) (l : Lcd) :
    (l.atPos pos).busyDraws = l.busyDraws := rfl
@[simp] theorem Lcd.dropByte_device (l : Lcd) : l.dropByte.device = l.device := rfl
@[simp] theorem Lcd.dropByte_busyDraws (l : Lcd) : l.dropByte.busyDraws = l.busyDraws := rfl

/-! ### Draws -/

theorem Lcd.drawBusy_draws (l : Lcd) : DrawsBusy l l.drawBusy := by
  unfold DrawsBusy Lcd.drawBusy
  cases h : l.busyDraws
  · exact h
  · exact ⟨rfl, rfl⟩

/-- A draw of BUSY changes no other field of the device. -/
theorem Lcd.drawBusy_device (l : Lcd) :
    ∃ q, l.drawBusy.device = { l.device with busy := q } := by
  unfold Lcd.drawBusy
  cases l.busyDraws <;> exact ⟨_, rfl⟩

theorem Lcd.lose_busyDraws (l : Lcd) : l.lose.busyDraws = l.busyDraws := rfl

@[simp] theorem Lcd.lose_unmodelled (l : Lcd) : l.lose.device.unmodelled = true := rfl

/-! ### Writes -/

theorem Lcd.drawsBusy_of_busyDraws {l m : Lcd} (h : m.busyDraws = l.busyDraws) :
    DrawsBusy l m.drawBusy := by
  have := m.drawBusy_draws
  simpa [DrawsBusy, h] using this

theorem Lcd.apply_busyDraws (f : Device → Option Device) (l : Lcd) :
    (l.apply f).busyDraws = l.busyDraws := by
  unfold Lcd.apply; split <;> rfl

/-- A write that is not lost draws BUSY, if what it does leaves the listed draws. -/
theorem Lcd.latch_draws {pos : Nat} {take : Lcd → Lcd} {l : Lcd}
    (h : (take l).busyDraws = l.busyDraws) : DrawsBusy l (l.latch pos take) := by
  unfold Lcd.latch
  apply Lcd.drawsBusy_of_busyDraws
  split
  · rfl
  · exact h

/-- A device that is unmodelled or busy when a write is latched is unmodelled afterwards (R240, R242). -/
theorem Lcd.latch_lost {pos : Nat} {take : Lcd → Lcd} {l : Lcd}
    (h : l.device.unmodelled = true ∨ l.device.busy ≠ .finite 0) :
    (l.latch pos take).device.unmodelled = true := by
  have hc : (l.device.unmodelled || l.device.busy != .finite 0) = true := by
    rcases h with h | h <;> simp [h]
  obtain ⟨q, hq⟩ := Lcd.drawBusy_device (l.lose.atPos pos)
  simp [Lcd.latch, hc, hq]

/-- A device that takes a write does what the write says, and draws BUSY. -/
theorem Lcd.latch_taken {pos : Nat} {take : Lcd → Lcd} {l : Lcd}
    (hm : l.device.unmodelled = false) (hb : l.device.busy = .finite 0) :
    ∃ q, (l.latch pos take).device = { (take l).device with seqPos := pos, busy := q } := by
  have hc : (l.device.unmodelled || l.device.busy != .finite 0) = false := by simp [hm, hb]
  obtain ⟨q, hq⟩ := Lcd.drawBusy_device ((take l).atPos pos)
  exact ⟨q, by simp [Lcd.latch, hc, hq]⟩

theorem Lcd.write_eq_latch {p : Platform} (h : p.strobeTimingOK = true) (pos : Nat)
    (take : Lcd → Lcd) (l : Lcd) : l.write p pos take = l.latch pos take := by
  simp [Lcd.write, h]

/-- An instruction byte on a device that takes it. -/
theorem Lcd.instruction_taken {f : Device → Option Device} {d : Device} {s : State} (h : Takes s)
    (hf : f s.lcd.device = some d) :
    ∃ q, (s.lcd.instruction f s.platform).device = { d with seqPos := 0, busy := q } := by
  obtain ⟨q, hq⟩ := Lcd.latch_taken (pos := 0)
    (take := fun l => if l.device.if8 then l.apply f else l.lose) h.modelled h.idle
  refine ⟨q, ?_⟩
  rw [Lcd.instruction, Lcd.write_eq_latch h.timing, hq]
  simp [h.if8, Lcd.apply, hf]

theorem Lcd.instruction_draws {f : Device → Option Device} {p : Platform} {l : Lcd}
    (h : p.strobeTimingOK = true) : DrawsBusy l (l.instruction f p) := by
  rw [Lcd.instruction, Lcd.write_eq_latch h]
  refine Lcd.latch_draws ?_
  split
  · exact Lcd.apply_busyDraws _ _
  · rfl

/-- An instruction byte that the model does not follow, or on a device that does not take it (R227, R240,
R242). -/
theorem Lcd.instruction_lost {f : Device → Option Device} {p : Platform} {l : Lcd}
    (h : p.strobeTimingOK = true)
    (hl : l.device.unmodelled = true ∨ l.device.busy ≠ .finite 0 ∨ l.device.if8 = false ∨
      f l.device = none) :
    (l.instruction f p).device.unmodelled = true := by
  rw [Lcd.instruction, Lcd.write_eq_latch h]
  by_cases hc : l.device.unmodelled = true ∨ l.device.busy ≠ .finite 0
  · exact Lcd.latch_lost hc
  · push Not at hc
    obtain ⟨q, hq⟩ := Lcd.latch_taken (pos := 0)
      (take := fun l => if l.device.if8 then l.apply f else l.lose)
      (by simpa using hc.1) hc.2
    rw [hq]
    rcases hl with hl | hl | hl | hl
    · exact absurd hl hc.1
    · exact absurd hc.2 hl
    · simp [hl]
    · by_cases h8 : l.device.if8 = true <;> simp [h8, Lcd.apply, hl]

/-! ### The meaning of an LCD byte -/

/-- The device's reaction to a byte is the meaning of the instruction the byte decodes to. -/
theorem latchInstruction_eq_exec (v : Byte) (s : State) :
    latchInstruction v s = exec (decodeLcd v) s := by
  simp only [latchInstruction, decodeLcd, lcdCase]
  repeat' split
  all_goals rfl

/-- An LCD byte's meaning always answers a next state in which the device alone has changed, by a function
of the platform and the device. -/
theorem latchInstruction_next (v : Byte) :
    ∃ F : Platform → Lcd → Lcd, ∀ s,
      latchInstruction v s = .next { s with lcd := F s.platform s.lcd } := by
  simp only [latchInstruction, lcdCase]
  split
  · exact ⟨_, fun s => rfl⟩
  split
  · exact ⟨_, fun s => rfl⟩
  split
  · refine ⟨fun p l => if continuesReset l.device.seqPos (v.extractLsb' 4 1) (v.extractLsb' 3 1)
        (v.extractLsb' 2 1) (v.extractLsb' 0 2) then l.write p (l.device.seqPos + 1) id
      else l.instruction (functionSetEffect (v.extractLsb' 4 1) (v.extractLsb' 3 1)
        (v.extractLsb' 2 1)) p, fun s => ?_⟩
    simp only [execLcdFunctionSet, State.deviceInstruction]
    split <;> rfl
  split
  · exact ⟨_, fun s => rfl⟩
  split
  · exact ⟨_, fun s => rfl⟩
  split
  · exact ⟨_, fun s => rfl⟩
  split
  · exact ⟨_, fun s => rfl⟩
  split <;> exact ⟨_, fun s => rfl⟩

/-! ### Canonical DDRAM -/

theorem Lcd.lose_wf (l : Lcd) : l.lose.device.ddram.wf = true := rfl

theorem Lcd.drawBusy_wf {l : Lcd} (h : l.device.ddram.wf = true) :
    l.drawBusy.device.ddram.wf = true := by
  obtain ⟨q, hq⟩ := l.drawBusy_device
  rw [hq]; exact h

theorem Lcd.write_wf {p : Platform} {pos : Nat} {take : Lcd → Lcd} {l : Lcd}
    (h : l.device.ddram.wf = true)
    (ht : ∀ l : Lcd, l.device.ddram.wf = true → (take l).device.ddram.wf = true) :
    (l.write p pos take).device.ddram.wf = true := by
  have hl : ∀ l : Lcd, l.device.ddram.wf = true → (l.latch pos take).device.ddram.wf = true := by
    intro l h
    unfold Lcd.latch
    apply Lcd.drawBusy_wf
    simp only [Lcd.atPos_device]
    split
    · rfl
    · exact ht l h
  unfold Lcd.write
  split
  · exact hl l h
  · dsimp only
    split
    · exact h
    · exact hl _ h

theorem Lcd.apply_wf {f : Device → Option Device} {l : Lcd} (h : l.device.ddram.wf = true)
    (hf : ∀ d d', f d = some d' → d.ddram.wf = true → d'.ddram.wf = true) :
    (l.apply f).device.ddram.wf = true := by
  unfold Lcd.apply
  split
  · rename_i d hd; exact hf _ _ hd h
  · rfl

theorem Lcd.instruction_wf {f : Device → Option Device} {p : Platform} {l : Lcd}
    (h : l.device.ddram.wf = true)
    (hf : ∀ d d', f d = some d' → d.ddram.wf = true → d'.ddram.wf = true) :
    (l.instruction f p).device.ddram.wf = true := by
  refine Lcd.write_wf h fun l h => ?_
  split
  · exact Lcd.apply_wf h hf
  · rfl

/-- An LCD byte's meaning keeps DDRAM in canonical form. -/
theorem exec_lcd_wf {v : Byte} {s t : State} (h : s.lcd.device.ddram.wf = true)
    (ht : latchInstruction v s = .next t) : t.lcd.device.ddram.wf = true := by
  have key : ∀ f : Device → Option Device,
      (∀ d d', f d = some d' → d.ddram.wf = true → d'.ddram.wf = true) →
      Host.Outcome.next (s.deviceInstruction f) = (.next t : Host.Outcome State Fault Refusal) →
      t.lcd.device.ddram.wf = true := by
    intro f hf e
    cases e
    exact Lcd.instruction_wf h hf
  have same : ∀ g : Device → Device, (∀ d, (g d).ddram = d.ddram) →
      ∀ d d', some (g d) = some d' → d.ddram.wf = true → d'.ddram.wf = true := by
    intro g hg d d' e hd
    cases e
    rw [hg]; exact hd
  simp only [latchInstruction, lcdCase] at ht
  split at ht
  · refine key _ (fun d d' e hd => ?_) ht
    split at e
    · exact same (fun d => { d with ac := v.extractLsb' 0 7 }) (fun _ => rfl) d d' e hd
    · cases e
  split at ht
  · exact key _ (fun d d' e => by cases e) ht
  split at ht
  · simp only [execLcdFunctionSet] at ht
    split at ht
    · cases ht
      exact Lcd.write_wf h fun _ h => h
    · refine key _ (fun d d' e hd => ?_) ht
      unfold functionSetEffect at e
      split at e
      · cases e; exact hd
      · cases e
  split at ht
  · exact key _ (fun d d' e => by cases e) ht
  split at ht
  · exact key _ (fun d d' e hd => by cases e; exact hd) ht
  split at ht
  · exact key _ (fun d d' e hd => by cases e; exact hd) ht
  split at ht
  · exact key _ (fun d d' e hd => by cases e; exact hd) ht
  split at ht
  · exact key _ (fun d d' e hd => by cases e; rfl) ht
  · exact key _ (fun d d' e => by cases e) ht

theorem latchData_wf {v : Byte} {s : State} (h : s.lcd.device.ddram.wf = true) :
    (latchData v s).lcd.device.ddram.wf = true := by
  refine Lcd.write_wf h fun l h => Lcd.apply_wf h fun d d' e hd => ?_
  unfold dataEffect at e
  split at e
  · cases e
  · cases e; exact Memory.write_wf hd _ _

theorem Lcd.afterStatus_wf {l : Lcd} (h : l.device.ddram.wf = true) :
    l.afterStatus.device.ddram.wf = true := by
  unfold Lcd.afterStatus
  repeat' split
  all_goals exact h

theorem Lcd.afterRead_wf {l : Lcd} (rs : RegSel) (h : l.device.ddram.wf = true) :
    (l.afterRead rs).device.ddram.wf = true := by
  cases rs
  · exact Lcd.afterStatus_wf h
  · rfl

theorem Lcd.afterDelay_wf {l : Lcd} (p : Platform) (n : DelayLength)
    (h : l.device.ddram.wf = true) : (l.afterDelay p n).device.ddram.wf = true := by
  unfold Lcd.afterDelay
  dsimp only
  split
  · dsimp only; split <;> rfl
  · exact h

theorem Lcd.afterInit_wf {l : Lcd} (p : Platform) (h : l.device.ddram.wf = true) :
    (l.afterInit p).device.ddram.wf = true := by
  unfold Lcd.afterInit
  split
  · exact h
  · rfl

/-- Under DelaySufficient the end of INIT changes nothing of the device (R289). -/
theorem Lcd.afterInit_sufficient {p : Platform} (h : p.delaySufficient = true) (l : Lcd) :
    l.afterInit p = l := by simp [Lcd.afterInit, h]

/-- An unmodelled device stays so at the end of INIT (R242). -/
theorem Lcd.afterInit_keeps_unmodelled {p : Platform} {l : Lcd}
    (h : l.device.unmodelled = true) : (l.afterInit p).device.unmodelled = true := by
  unfold Lcd.afterInit
  split
  · exact h
  · simp [Device.any, h]

/-! ### The next address (R237) -/

/-- Where the rule gives the next address, the counter takes it. -/
theorem Device.nextAc_stated {d : Device} (h : d.nextStated = true) (draw : Nat) :
    d.nextAc draw = nextAddr d.ac d.id := by simp [Device.nextAc, h]

/-- Every address of a two-line device's map has a next address. -/
theorem Device.nextStated_of_map {d : Device} (hn : d.n2 = true) (ha : inTwoLineMap d.ac = true) :
    d.nextStated = true := by
  have : d.ac ≠ 0x7F := by rintro h; simp [h, inTwoLineMap] at ha
  have h7 : d.ac ≠ 127#7 := this
  simp [Device.nextStated, hn, h7]

/-! ### Polls -/

/-- A status read of a modelled device changes only BUSY and the draws. -/
theorem Lcd.afterStatus_device {l : Lcd} (h : l.device.unmodelled = false) :
    l.afterStatus.device = { l.device with busy := polled l.device.busy } ∧
      l.afterStatus.busyDraws = l.busyDraws := by
  unfold Lcd.afterStatus
  by_cases hb : l.device.busy = .finite 0
  · obtain ⟨d, _, _, _⟩ := l
    cases d
    simp_all [polled]
  · simp [h, hb]

/-- After `k + 1` reads of a device that was busy for `k`, it is idle and otherwise as it was. -/
theorem Lcd.afterPolls_device {k : Nat} : ∀ {l : Lcd}, l.busyFor k →
    (l.afterPolls (k + 1)).device = { l.device with busy := .finite 0 } ∧
      (l.afterPolls (k + 1)).busyDraws = l.busyDraws := by
  induction k with
  | zero =>
    intro l h
    have := Lcd.afterStatus_device h.1
    simp only [Lcd.afterPolls]
    rw [this.1, h.2]
    exact ⟨rfl, this.2⟩
  | succ k ih =>
    intro l h
    have h' := Lcd.afterStatus_device h.1
    have hb : l.afterStatus.busyFor k := by
      refine ⟨by rw [h'.1]; exact h.1, ?_⟩
      rw [h'.1]; simp [h.2, polled]
    obtain ⟨h1, h2⟩ := ih hb
    rw [Lcd.afterPolls, h1, h2, h'.1, h'.2]
    exact ⟨rfl, rfl⟩

/-- The answer of a modelled device says whether it is busy (R226). -/
theorem Lcd.busyFlag_statusAnswer {l : Lcd} (h : l.device.unmodelled = false) :
    busyFlag l.statusAnswer = decide (l.device.busy ≠ .finite 0) := by
  unfold Lcd.statusAnswer
  by_cases hb : l.device.busy = .finite 0 <;> simp [h, hb]

/-- The answer of an idle modelled device is its address counter (R226). -/
theorem Lcd.statusAnswer_idle {l : Lcd} (h : l.device.unmodelled = false)
    (hb : l.device.busy = .finite 0) : l.statusAnswer = statusByte false l.device.ac := by
  simp [Lcd.statusAnswer, h, hb]

end Sys2Proof.Machine
end

