-- ==== Sys2Proof/Laws/State.lean ====
section
/-! SUPPORT. What each shared update of the state does to each field, one lemma per field per update, so
that no later proof unfolds an update. -/

namespace Sys2Proof.Machine.State

/-! ### `tick` -/

section
variable (s : State)

@[simp] theorem tick_drvState (g : Nat) : (s.tick g).drvState = s.drvState := rfl
@[simp] theorem tick_dir (g : Nat) : (s.tick g).dir = s.dir := rfl
@[simp] theorem tick_rs (g : Nat) : (s.tick g).rs = s.rs := rfl
@[simp] theorem tick_rw (g : Nat) : (s.tick g).rw = s.rw := rfl
@[simp] theorem tick_e (g : Nat) : (s.tick g).e = s.e := rfl
@[simp] theorem tick_ctlOe (g : Nat) : (s.tick g).ctlOe = s.ctlOe := rfl
@[simp] theorem tick_dbOut (g : Nat) : (s.tick g).dbOut = s.dbOut := rfl
@[simp] theorem tick_dbIn (g : Nat) : (s.tick g).dbIn = s.dbIn := rfl
@[simp] theorem tick_seq (g : Nat) : (s.tick g).seq = s.seq := rfl
@[simp] theorem tick_dcnt (g : Nat) : (s.tick g).dcnt = s.dcnt := rfl
@[simp] theorem tick_dcntUse (g : Nat) : (s.tick g).dcntUse = s.dcntUse := rfl
@[simp] theorem tick_rcnt (g : Nat) : (s.tick g).rcnt = s.rcnt := rfl
@[simp] theorem tick_pcnt (g : Nat) : (s.tick g).pcnt = s.pcnt := rfl
@[simp] theorem tick_cmdOp (g : Nat) : (s.tick g).cmdOp = s.cmdOp := rfl
@[simp] theorem tick_cmdA (g : Nat) : (s.tick g).cmdA = s.cmdA := rfl
@[simp] theorem tick_cmdB (g : Nat) : (s.tick g).cmdB = s.cmdB := rfl
@[simp] theorem tick_rspValid (g : Nat) : (s.tick g).rspValid = false := rfl
@[simp] theorem tick_rspCode (g : Nat) : (s.tick g).rspCode = s.rspCode := rfl
@[simp] theorem tick_rspData (g : Nat) : (s.tick g).rspData = s.rspData := rfl
@[simp] theorem tick_lcd (g : Nat) : (s.tick g).lcd = s.lcd := rfl
@[simp] theorem tick_platform (g : Nat) : (s.tick g).platform = s.platform := rfl
@[simp] theorem tick_host (g : Nat) : (s.tick g).host = s.host := rfl
@[simp] theorem tick_trace (g : Nat) : (s.tick g).trace = s.trace := rfl
@[simp] theorem tick_responses (g : Nat) : (s.tick g).responses = s.responses := rfl
@[simp] theorem tick_cycle (g : Nat) : (s.tick g).cycle = s.cycle + g := rfl
@[simp] theorem tick_lastCtl (g : Nat) : (s.tick g).lastCtl = s.lastCtl := rfl
@[simp] theorem tick_lastFall (g : Nat) : (s.tick g).lastFall = s.lastFall := rfl
@[simp] theorem tick_stretches (g : Nat) : (s.tick g).stretches = s.stretches := rfl
@[simp] theorem tick_pace (g : Nat) : (s.tick g).pace = s.pace := rfl

end

/-! ### `elapse` -/

section
variable (s : State)

@[simp] theorem elapse_drvState (b : Nat) : (s.elapse b).drvState = s.drvState := rfl
@[simp] theorem elapse_dir (b : Nat) : (s.elapse b).dir = s.dir := rfl
@[simp] theorem elapse_rs (b : Nat) : (s.elapse b).rs = s.rs := rfl
@[simp] theorem elapse_rw (b : Nat) : (s.elapse b).rw = s.rw := rfl
@[simp] theorem elapse_e (b : Nat) : (s.elapse b).e = s.e := rfl
@[simp] theorem elapse_ctlOe (b : Nat) : (s.elapse b).ctlOe = s.ctlOe := rfl
@[simp] theorem elapse_dbOut (b : Nat) : (s.elapse b).dbOut = s.dbOut := rfl
@[simp] theorem elapse_dbIn (b : Nat) : (s.elapse b).dbIn = s.dbIn := rfl
@[simp] theorem elapse_seq (b : Nat) : (s.elapse b).seq = s.seq := rfl
@[simp] theorem elapse_dcnt (b : Nat) : (s.elapse b).dcnt = 0 := rfl
@[simp] theorem elapse_dcntUse (b : Nat) : (s.elapse b).dcntUse = .hold := rfl
@[simp] theorem elapse_rcnt (b : Nat) : (s.elapse b).rcnt = s.rcnt := rfl
@[simp] theorem elapse_pcnt (b : Nat) : (s.elapse b).pcnt = s.pcnt := rfl
@[simp] theorem elapse_cmdOp (b : Nat) : (s.elapse b).cmdOp = s.cmdOp := rfl
@[simp] theorem elapse_cmdA (b : Nat) : (s.elapse b).cmdA = s.cmdA := rfl
@[simp] theorem elapse_cmdB (b : Nat) : (s.elapse b).cmdB = s.cmdB := rfl
@[simp] theorem elapse_rspValid (b : Nat) : (s.elapse b).rspValid = false := rfl
@[simp] theorem elapse_rspCode (b : Nat) : (s.elapse b).rspCode = s.rspCode := rfl
@[simp] theorem elapse_rspData (b : Nat) : (s.elapse b).rspData = s.rspData := rfl
@[simp] theorem elapse_lcd (b : Nat) : (s.elapse b).lcd = s.lcd := rfl
@[simp] theorem elapse_platform (b : Nat) : (s.elapse b).platform = s.platform := rfl
@[simp] theorem elapse_host (b : Nat) : (s.elapse b).host = s.host := rfl
@[simp] theorem elapse_trace (b : Nat) : (s.elapse b).trace = s.trace := rfl
@[simp] theorem elapse_responses (b : Nat) : (s.elapse b).responses = s.responses := rfl
@[simp] theorem elapse_cycle (b : Nat) : (s.elapse b).cycle = s.cycle + (b + s.stretch) := rfl
@[simp] theorem elapse_lastCtl (b : Nat) : (s.elapse b).lastCtl = s.lastCtl := rfl
@[simp] theorem elapse_lastFall (b : Nat) : (s.elapse b).lastFall = s.lastFall := rfl
@[simp] theorem elapse_stretches (b : Nat) : (s.elapse b).stretches = s.stretches.tail := rfl
@[simp] theorem elapse_pace (b : Nat) : (s.elapse b).pace = s.pace := rfl

end

/-! ### `append` -/

section
variable (s : State)

@[simp] theorem append_drvState (ev : Event) : (s.append ev).drvState = s.drvState := rfl
@[simp] theorem append_dir (ev : Event) : (s.append ev).dir = s.dir := rfl
@[simp] theorem append_rs (ev : Event) : (s.append ev).rs = s.rs := rfl
@[simp] theorem append_rw (ev : Event) : (s.append ev).rw = s.rw := rfl
@[simp] theorem append_e (ev : Event) : (s.append ev).e = s.e := rfl
@[simp] theorem append_ctlOe (ev : Event) : (s.append ev).ctlOe = s.ctlOe := rfl
@[simp] theorem append_dbOut (ev : Event) : (s.append ev).dbOut = s.dbOut := rfl
@[simp] theorem append_sync0 (ev : Event) : (s.append ev).sync0 = s.sync0 := rfl
@[simp] theorem append_sync1 (ev : Event) : (s.append ev).sync1 = s.sync1 := rfl
@[simp] theorem append_dbIn (ev : Event) : (s.append ev).dbIn = s.dbIn := rfl
@[simp] theorem append_seq (ev : Event) : (s.append ev).seq = s.seq := rfl
@[simp] theorem append_dcnt (ev : Event) : (s.append ev).dcnt = s.dcnt := rfl
@[simp] theorem append_dcntUse (ev : Event) : (s.append ev).dcntUse = s.dcntUse := rfl
@[simp] theorem append_rcnt (ev : Event) : (s.append ev).rcnt = s.rcnt := rfl
@[simp] theorem append_pcnt (ev : Event) : (s.append ev).pcnt = s.pcnt := rfl
@[simp] theorem append_cmdOp (ev : Event) : (s.append ev).cmdOp = s.cmdOp := rfl
@[simp] theorem append_cmdA (ev : Event) : (s.append ev).cmdA = s.cmdA := rfl
@[simp] theorem append_cmdB (ev : Event) : (s.append ev).cmdB = s.cmdB := rfl
@[simp] theorem append_rspValid (ev : Event) : (s.append ev).rspValid = s.rspValid := rfl
@[simp] theorem append_rspCode (ev : Event) : (s.append ev).rspCode = s.rspCode := rfl
@[simp] theorem append_rspData (ev : Event) : (s.append ev).rspData = s.rspData := rfl
@[simp] theorem append_lcd (ev : Event) : (s.append ev).lcd = s.lcd := rfl
@[simp] theorem append_platform (ev : Event) : (s.append ev).platform = s.platform := rfl
@[simp] theorem append_host (ev : Event) : (s.append ev).host = s.host := rfl
@[simp] theorem append_trace (ev : Event) : (s.append ev).trace = (s.cycle, ev) :: s.trace := rfl
@[simp] theorem append_responses (ev : Event) : (s.append ev).responses = s.responses := rfl
@[simp] theorem append_cycle (ev : Event) : (s.append ev).cycle = s.cycle := rfl
@[simp] theorem append_lastCtl (ev : Event) : (s.append ev).lastCtl = s.lastCtl := rfl
@[simp] theorem append_lastFall (ev : Event) : (s.append ev).lastFall = s.lastFall := rfl
@[simp] theorem append_stretches (ev : Event) : (s.append ev).stretches = s.stretches := rfl
@[simp] theorem append_free (ev : Event) : (s.append ev).free = s.free := rfl
@[simp] theorem append_pace (ev : Event) : (s.append ev).pace = s.pace := rfl

end

/-! ### `respond` -/

section
variable (s : State)

@[simp] theorem respond_drvState (c : RspCode) (d : Byte) : (s.respond c d).drvState = s.drvState := rfl
@[simp] theorem respond_dir (c : RspCode) (d : Byte) : (s.respond c d).dir = s.dir := rfl
@[simp] theorem respond_rs (c : RspCode) (d : Byte) : (s.respond c d).rs = s.rs := rfl
@[simp] theorem respond_rw (c : RspCode) (d : Byte) : (s.respond c d).rw = s.rw := rfl
@[simp] theorem respond_e (c : RspCode) (d : Byte) : (s.respond c d).e = s.e := rfl
@[simp] theorem respond_ctlOe (c : RspCode) (d : Byte) : (s.respond c d).ctlOe = s.ctlOe := rfl
@[simp] theorem respond_dbOut (c : RspCode) (d : Byte) : (s.respond c d).dbOut = s.dbOut := rfl
@[simp] theorem respond_sync0 (c : RspCode) (d : Byte) : (s.respond c d).sync0 = s.sync0 := rfl
@[simp] theorem respond_sync1 (c : RspCode) (d : Byte) : (s.respond c d).sync1 = s.sync1 := rfl
@[simp] theorem respond_dbIn (c : RspCode) (d : Byte) : (s.respond c d).dbIn = s.dbIn := rfl
@[simp] theorem respond_seq (c : RspCode) (d : Byte) : (s.respond c d).seq = .idle := rfl
@[simp] theorem respond_dcnt (c : RspCode) (d : Byte) : (s.respond c d).dcnt = s.dcnt := rfl
@[simp] theorem respond_dcntUse (c : RspCode) (d : Byte) : (s.respond c d).dcntUse = s.dcntUse := rfl
@[simp] theorem respond_rcnt (c : RspCode) (d : Byte) : (s.respond c d).rcnt = s.rcnt := rfl
@[simp] theorem respond_pcnt (c : RspCode) (d : Byte) : (s.respond c d).pcnt = s.pcnt := rfl
@[simp] theorem respond_cmdOp (c : RspCode) (d : Byte) : (s.respond c d).cmdOp = s.cmdOp := rfl
@[simp] theorem respond_cmdA (c : RspCode) (d : Byte) : (s.respond c d).cmdA = s.cmdA := rfl
@[simp] theorem respond_cmdB (c : RspCode) (d : Byte) : (s.respond c d).cmdB = s.cmdB := rfl
@[simp] theorem respond_rspValid (c : RspCode) (d : Byte) : (s.respond c d).rspValid = true := rfl
@[simp] theorem respond_rspCode (c : RspCode) (d : Byte) : (s.respond c d).rspCode = c := rfl
@[simp] theorem respond_rspData (c : RspCode) (d : Byte) : (s.respond c d).rspData = d := rfl
@[simp] theorem respond_lcd (c : RspCode) (d : Byte) : (s.respond c d).lcd = s.lcd := rfl
@[simp] theorem respond_platform (c : RspCode) (d : Byte) : (s.respond c d).platform = s.platform := rfl
@[simp] theorem respond_host (c : RspCode) (d : Byte) : (s.respond c d).host = s.host := rfl
@[simp] theorem respond_trace (c : RspCode) (d : Byte) : (s.respond c d).trace = s.trace := rfl
@[simp] theorem respond_responses (c : RspCode) (d : Byte) : (s.respond c d).responses = ⟨c, d⟩ :: s.responses := rfl
@[simp] theorem respond_cycle (c : RspCode) (d : Byte) : (s.respond c d).cycle = s.cycle := rfl
@[simp] theorem respond_lastCtl (c : RspCode) (d : Byte) : (s.respond c d).lastCtl = s.lastCtl := rfl
@[simp] theorem respond_lastFall (c : RspCode) (d : Byte) : (s.respond c d).lastFall = s.lastFall := rfl
@[simp] theorem respond_stretches (c : RspCode) (d : Byte) : (s.respond c d).stretches = s.stretches := rfl
@[simp] theorem respond_free (c : RspCode) (d : Byte) : (s.respond c d).free = s.free := rfl
@[simp] theorem respond_pace (c : RspCode) (d : Byte) : (s.respond c d).pace = s.pace := rfl

end

/-! ### `goOn` -/

section
variable (s : State)

@[simp] theorem goOn_drvState (r : List Micro) (f : Finish) : (s.goOn r f).drvState = s.drvState := rfl
@[simp] theorem goOn_dir (r : List Micro) (f : Finish) : (s.goOn r f).dir = s.dir := rfl
@[simp] theorem goOn_rs (r : List Micro) (f : Finish) : (s.goOn r f).rs = s.rs := rfl
@[simp] theorem goOn_rw (r : List Micro) (f : Finish) : (s.goOn r f).rw = s.rw := rfl
@[simp] theorem goOn_e (r : List Micro) (f : Finish) : (s.goOn r f).e = s.e := rfl
@[simp] theorem goOn_ctlOe (r : List Micro) (f : Finish) : (s.goOn r f).ctlOe = s.ctlOe := rfl
@[simp] theorem goOn_dbOut (r : List Micro) (f : Finish) : (s.goOn r f).dbOut = s.dbOut := rfl
@[simp] theorem goOn_sync0 (r : List Micro) (f : Finish) : (s.goOn r f).sync0 = s.sync0 := rfl
@[simp] theorem goOn_sync1 (r : List Micro) (f : Finish) : (s.goOn r f).sync1 = s.sync1 := rfl
@[simp] theorem goOn_dbIn (r : List Micro) (f : Finish) : (s.goOn r f).dbIn = s.dbIn := rfl
@[simp] theorem goOn_seq (r : List Micro) (f : Finish) : (s.goOn r f).seq = .running r f := rfl
@[simp] theorem goOn_dcnt (r : List Micro) (f : Finish) : (s.goOn r f).dcnt = s.dcnt := rfl
@[simp] theorem goOn_dcntUse (r : List Micro) (f : Finish) : (s.goOn r f).dcntUse = s.dcntUse := rfl
@[simp] theorem goOn_rcnt (r : List Micro) (f : Finish) : (s.goOn r f).rcnt = s.rcnt := rfl
@[simp] theorem goOn_pcnt (r : List Micro) (f : Finish) : (s.goOn r f).pcnt = s.pcnt := rfl
@[simp] theorem goOn_cmdOp (r : List Micro) (f : Finish) : (s.goOn r f).cmdOp = s.cmdOp := rfl
@[simp] theorem goOn_cmdA (r : List Micro) (f : Finish) : (s.goOn r f).cmdA = s.cmdA := rfl
@[simp] theorem goOn_cmdB (r : List Micro) (f : Finish) : (s.goOn r f).cmdB = s.cmdB := rfl
@[simp] theorem goOn_rspValid (r : List Micro) (f : Finish) : (s.goOn r f).rspValid = s.rspValid := rfl
@[simp] theorem goOn_rspCode (r : List Micro) (f : Finish) : (s.goOn r f).rspCode = s.rspCode := rfl
@[simp] theorem goOn_rspData (r : List Micro) (f : Finish) : (s.goOn r f).rspData = s.rspData := rfl
@[simp] theorem goOn_lcd (r : List Micro) (f : Finish) : (s.goOn r f).lcd = s.lcd := rfl
@[simp] theorem goOn_platform (r : List Micro) (f : Finish) : (s.goOn r f).platform = s.platform := rfl
@[simp] theorem goOn_host (r : List Micro) (f : Finish) : (s.goOn r f).host = s.host := rfl
@[simp] theorem goOn_trace (r : List Micro) (f : Finish) : (s.goOn r f).trace = s.trace := rfl
@[simp] theorem goOn_responses (r : List Micro) (f : Finish) : (s.goOn r f).responses = s.responses := rfl
@[simp] theorem goOn_cycle (r : List Micro) (f : Finish) : (s.goOn r f).cycle = s.cycle := rfl
@[simp] theorem goOn_lastCtl (r : List Micro) (f : Finish) : (s.goOn r f).lastCtl = s.lastCtl := rfl
@[simp] theorem goOn_lastFall (r : List Micro) (f : Finish) : (s.goOn r f).lastFall = s.lastFall := rfl
@[simp] theorem goOn_stretches (r : List Micro) (f : Finish) : (s.goOn r f).stretches = s.stretches := rfl
@[simp] theorem goOn_free (r : List Micro) (f : Finish) : (s.goOn r f).free = s.free := rfl
@[simp] theorem goOn_pace (r : List Micro) (f : Finish) : (s.goOn r f).pace = s.pace := rfl

end

/-! ### `dropE` -/

section
variable (s : State)

@[simp] theorem dropE_drvState (ev : Event) : (s.dropE ev).drvState = s.drvState := rfl
@[simp] theorem dropE_dir (ev : Event) : (s.dropE ev).dir = s.dir := rfl
@[simp] theorem dropE_rs (ev : Event) : (s.dropE ev).rs = s.rs := rfl
@[simp] theorem dropE_rw (ev : Event) : (s.dropE ev).rw = s.rw := rfl
@[simp] theorem dropE_e (ev : Event) : (s.dropE ev).e = false := rfl
@[simp] theorem dropE_ctlOe (ev : Event) : (s.dropE ev).ctlOe = s.ctlOe := rfl
@[simp] theorem dropE_dbOut (ev : Event) : (s.dropE ev).dbOut = s.dbOut := rfl
@[simp] theorem dropE_sync0 (ev : Event) : (s.dropE ev).sync0 = s.sync0 := rfl
@[simp] theorem dropE_sync1 (ev : Event) : (s.dropE ev).sync1 = s.sync1 := rfl
@[simp] theorem dropE_dbIn (ev : Event) : (s.dropE ev).dbIn = s.dbIn := rfl
@[simp] theorem dropE_seq (ev : Event) : (s.dropE ev).seq = s.seq := rfl
@[simp] theorem dropE_dcnt (ev : Event) : (s.dropE ev).dcnt = s.platform.cH := rfl
@[simp] theorem dropE_dcntUse (ev : Event) : (s.dropE ev).dcntUse = .hold := rfl
@[simp] theorem dropE_rcnt (ev : Event) : (s.dropE ev).rcnt = s.rcnt := rfl
@[simp] theorem dropE_pcnt (ev : Event) : (s.dropE ev).pcnt = s.pcnt := rfl
@[simp] theorem dropE_cmdOp (ev : Event) : (s.dropE ev).cmdOp = s.cmdOp := rfl
@[simp] theorem dropE_cmdA (ev : Event) : (s.dropE ev).cmdA = s.cmdA := rfl
@[simp] theorem dropE_cmdB (ev : Event) : (s.dropE ev).cmdB = s.cmdB := rfl
@[simp] theorem dropE_rspValid (ev : Event) : (s.dropE ev).rspValid = s.rspValid := rfl
@[simp] theorem dropE_rspCode (ev : Event) : (s.dropE ev).rspCode = s.rspCode := rfl
@[simp] theorem dropE_rspData (ev : Event) : (s.dropE ev).rspData = s.rspData := rfl
@[simp] theorem dropE_lcd (ev : Event) : (s.dropE ev).lcd = s.lcd := rfl
@[simp] theorem dropE_platform (ev : Event) : (s.dropE ev).platform = s.platform := rfl
@[simp] theorem dropE_host (ev : Event) : (s.dropE ev).host = s.host := rfl
@[simp] theorem dropE_trace (ev : Event) : (s.dropE ev).trace = (s.cycle, ev) :: s.trace := rfl
@[simp] theorem dropE_responses (ev : Event) : (s.dropE ev).responses = s.responses := rfl
@[simp] theorem dropE_cycle (ev : Event) : (s.dropE ev).cycle = s.cycle := rfl
@[simp] theorem dropE_lastCtl (ev : Event) : (s.dropE ev).lastCtl = s.lastCtl := rfl
@[simp] theorem dropE_lastFall (ev : Event) : (s.dropE ev).lastFall = some s.cycle := rfl
@[simp] theorem dropE_stretches (ev : Event) : (s.dropE ev).stretches = s.stretches := rfl
@[simp] theorem dropE_free (ev : Event) : (s.dropE ev).free = s.free := rfl
@[simp] theorem dropE_pace (ev : Event) : (s.dropE ev).pace = s.pace := rfl

end

/-! ### `raiseE` -/

section
variable (s : State)

@[simp] theorem raiseE_drvState : (s.raiseE).drvState = s.drvState := rfl
@[simp] theorem raiseE_dir : (s.raiseE).dir = s.dir := rfl
@[simp] theorem raiseE_rs : (s.raiseE).rs = s.rs := rfl
@[simp] theorem raiseE_rw : (s.raiseE).rw = s.rw := rfl
@[simp] theorem raiseE_e : (s.raiseE).e = true := rfl
@[simp] theorem raiseE_ctlOe : (s.raiseE).ctlOe = s.ctlOe := rfl
@[simp] theorem raiseE_dbOut : (s.raiseE).dbOut = s.dbOut := rfl
@[simp] theorem raiseE_dbIn : (s.raiseE).dbIn = s.dbIn := rfl
@[simp] theorem raiseE_seq : (s.raiseE).seq = s.seq := rfl
@[simp] theorem raiseE_dcnt : (s.raiseE).dcnt = s.platform.cPwE := rfl
@[simp] theorem raiseE_dcntUse : (s.raiseE).dcntUse = .hold := rfl
@[simp] theorem raiseE_rcnt : (s.raiseE).rcnt = s.rcnt := rfl
@[simp] theorem raiseE_pcnt : (s.raiseE).pcnt = s.pcnt := rfl
@[simp] theorem raiseE_cmdOp : (s.raiseE).cmdOp = s.cmdOp := rfl
@[simp] theorem raiseE_cmdA : (s.raiseE).cmdA = s.cmdA := rfl
@[simp] theorem raiseE_cmdB : (s.raiseE).cmdB = s.cmdB := rfl
@[simp] theorem raiseE_rspValid : (s.raiseE).rspValid = false := rfl
@[simp] theorem raiseE_rspCode : (s.raiseE).rspCode = s.rspCode := rfl
@[simp] theorem raiseE_rspData : (s.raiseE).rspData = s.rspData := rfl
@[simp] theorem raiseE_lcd : (s.raiseE).lcd = s.lcd := rfl
@[simp] theorem raiseE_platform : (s.raiseE).platform = s.platform := rfl
@[simp] theorem raiseE_host : (s.raiseE).host = s.host := rfl
@[simp] theorem raiseE_trace : (s.raiseE).trace = (s.cycle + (s.riseDue + s.stretch), .eUp) :: s.trace := rfl
@[simp] theorem raiseE_responses : (s.raiseE).responses = s.responses := rfl
@[simp] theorem raiseE_cycle : (s.raiseE).cycle = s.cycle + (s.riseDue + s.stretch) := rfl
@[simp] theorem raiseE_lastCtl : (s.raiseE).lastCtl = s.lastCtl := rfl
@[simp] theorem raiseE_lastFall : (s.raiseE).lastFall = s.lastFall := rfl
@[simp] theorem raiseE_stretches : (s.raiseE).stretches = s.stretches.tail := rfl
@[simp] theorem raiseE_pace : (s.raiseE).pace = s.pace := rfl

end

/-! ### `countSetup` -/

section
variable (s : State)

@[simp] theorem countSetup_drvState : s.countSetup.drvState = s.drvState := rfl
@[simp] theorem countSetup_dir : s.countSetup.dir = s.dir := rfl
@[simp] theorem countSetup_rs : s.countSetup.rs = s.rs := rfl
@[simp] theorem countSetup_rw : s.countSetup.rw = s.rw := rfl
@[simp] theorem countSetup_e : s.countSetup.e = s.e := rfl
@[simp] theorem countSetup_ctlOe : s.countSetup.ctlOe = s.ctlOe := rfl
@[simp] theorem countSetup_dbOut : s.countSetup.dbOut = s.dbOut := rfl
@[simp] theorem countSetup_sync0 : s.countSetup.sync0 = s.sync0 := rfl
@[simp] theorem countSetup_sync1 : s.countSetup.sync1 = s.sync1 := rfl
@[simp] theorem countSetup_dbIn : s.countSetup.dbIn = s.dbIn := rfl
@[simp] theorem countSetup_seq : s.countSetup.seq = s.seq := rfl
@[simp] theorem countSetup_rcnt : s.countSetup.rcnt = s.rcnt := rfl
@[simp] theorem countSetup_pcnt : s.countSetup.pcnt = s.pcnt := rfl
@[simp] theorem countSetup_cmdOp : s.countSetup.cmdOp = s.cmdOp := rfl
@[simp] theorem countSetup_cmdA : s.countSetup.cmdA = s.cmdA := rfl
@[simp] theorem countSetup_cmdB : s.countSetup.cmdB = s.cmdB := rfl
@[simp] theorem countSetup_rspValid : s.countSetup.rspValid = s.rspValid := rfl
@[simp] theorem countSetup_rspCode : s.countSetup.rspCode = s.rspCode := rfl
@[simp] theorem countSetup_rspData : s.countSetup.rspData = s.rspData := rfl
@[simp] theorem countSetup_lcd : s.countSetup.lcd = s.lcd := rfl
@[simp] theorem countSetup_platform : s.countSetup.platform = s.platform := rfl
@[simp] theorem countSetup_host : s.countSetup.host = s.host := rfl
@[simp] theorem countSetup_trace : s.countSetup.trace = s.trace := rfl
@[simp] theorem countSetup_responses : s.countSetup.responses = s.responses := rfl
@[simp] theorem countSetup_cycle : s.countSetup.cycle = s.cycle := rfl
@[simp] theorem countSetup_lastCtl : s.countSetup.lastCtl = s.lastCtl := rfl
@[simp] theorem countSetup_lastFall : s.countSetup.lastFall = s.lastFall := rfl
@[simp] theorem countSetup_stretches : s.countSetup.stretches = s.stretches := rfl
@[simp] theorem countSetup_free : s.countSetup.free = s.free := rfl
@[simp] theorem countSetup_pace : s.countSetup.pace = s.pace := rfl
@[simp] theorem countSetup_dcnt : s.countSetup.dcnt = s.setupLeft := rfl
@[simp] theorem countSetup_dcntUse : s.countSetup.dcntUse = .setup := rfl
@[simp] theorem countSetup_dataDue : s.countSetup.dataDue = 1 := rfl

end

end Sys2Proof.Machine.State
end

