-- ==== Sys2Proof/Laws/Transport.lean ====
section
/-! SUPPORT. One lemma per micro-operation and per phase of the transport, saying all it does. A state's
`view` forgets the timing (edges, synchronizer, DCNT, draws of the block) and SEQ, so that a phase is one equation
between views, and everything it does not name is unchanged. -/

namespace Sys2Proof.Machine

/-! ### Views -/

/-- The state without its timing and SEQ. -/
def State.view (s : State) : State :=
  { s with
    cycle := 0
    sync0 := 0
    sync1 := 0
    seq := .idle
    dcnt := 0
    dcntUse := .hold
    lastCtl := none
    lastFall := none
    stretches := []
    free := 0
    trace := s.trace.map fun e => (0, e.2) }

theorem events_of_view (s : State) : s.view.events = s.events := by
  simp [State.events, State.view]

/-- Timing-free events put before a timing-free trace. -/
def stamped (evs : List Event) : List (Nat × Event) := evs.reverse.map fun e => (0, e)

theorem events_of_view_append {s t : State} {evs : List Event}
    (h : t.view.trace = stamped evs ++ s.view.trace) : t.events = s.events ++ evs := by
  rw [← events_of_view t, ← events_of_view s]
  simp [State.events, h, stamped, Function.comp_def]

/-! ### Micro-operations -/

section
variable {s : State}

theorem requireThat_true {ok : Bool} (h : ok = true) (s : State) : requireThat ok s = .next s := by
  simp [requireThat, h]

theorem setDir_next (he : s.e = false) (d : Direction) :
    ∃ t, setDir d s = .next t ∧
      t.view =
        { s.view with dir := d, rspValid := false, trace := stamped [.dir d] ++ s.view.trace } :=
  ⟨_, requireThat_true (by simp [he]) _, rfl⟩

theorem setCtl_next (he : s.e = false) (rs : RegSel) (rw : ReadWrite) :
    ∃ t, setCtl rs rw s = .next t ∧
      t.view =
        { s.view with
          rs := rs, rw := rw, rspValid := false,
          trace := stamped [.ctl rs rw] ++ s.view.trace } :=
  ⟨_, requireThat_true (by simp [he]) _, rfl⟩

theorem driveDB_next (he : s.e = false) (hd : s.dir = .output) (v : Byte) :
    ∃ t, driveDB v s = .next t ∧
      t.view =
        { s.view with dbOut := v, rspValid := false, trace := stamped [.data v] ++ s.view.trace } :=
  ⟨_, requireThat_true (by simp [he, hd]) _, rfl⟩

theorem enableCtl_next (hc : s.ctlOe = false) :
    ∃ t, enableCtl s = .next t ∧
      t.view =
        { s.view with
          e := false, rs := .instruction, rw := .write, ctlOe := true, rspValid := false,
          trace := stamped [.enCtl] ++ s.view.trace } :=
  ⟨_, requireThat_true (by simp [hc]) _, rfl⟩

theorem startDelay_next (p : DelayLength) :
    ∃ t, startDelay p s = .next t ∧
      t.view = { s.view with rspValid := false, trace := stamped [.wait p] ++ s.view.trace } :=
  ⟨_, rfl, rfl⟩

theorem raiseE_view :
    s.raiseE.view =
      { s.view with e := true, rspValid := false, trace := stamped [.eUp] ++ s.view.trace } := rfl

theorem strobeUp_next (he : s.e = false) (hd : s.dir = .output) (hw : s.rw = .write) :
    strobeUp s = .next s.raiseE := requireThat_true (by simp [he, hd, hw]) _

theorem sampleUp_next (he : s.e = false) (hd : s.dir = .input) (hw : s.rw = .read) :
    sampleUp s = .next s.raiseE := requireThat_true (by simp [he, hd, hw]) _

theorem strobeFall_next (he : s.e = true) (hd : s.dir = .output) (hw : s.rw = .write) :
    ∃ t, strobeFall s = .next t ∧
      t.view =
        { s.view with e := false, rspValid := false, trace := stamped [.eDown] ++ s.view.trace } :=
  ⟨_, requireThat_true (by simp [he, hd, hw]) _, rfl⟩

/-- A read strobe falls: some byte is sampled, and the device has answered (R106, R226). -/
theorem sampleFall_any (he : s.e = true) (hd : s.dir = .input) (hw : s.rw = .read) :
    ∃ t b, sampleFall s = .next t ∧
      t.view =
        { s.view with
          e := false, dbIn := b, lcd := if s.ctlOe then s.lcd.afterRead s.rs else s.lcd,
          rspValid := false, trace := stamped [.eDownSample b] ++ s.view.trace } ∧
      t.trace = (t.cycle, .eDownSample b) :: s.trace :=
  ⟨_, _, requireThat_true (by simp [he, hd, hw]) _, rfl, rfl⟩

/-- A longer gap covers what a shorter one does. -/
theorem covers_mono {p : Platform} {m n f : Nat} (h : m ≤ n) (hc : p.covers m f = true) :
    p.covers n f = true := by
  simp only [Platform.covers, decide_eq_true_eq] at hc ⊢
  exact hc.trans (Nat.mul_le_mul_right _ h)

theorem strobeTimingOK_pulse {p : Platform} (h : p.strobeTimingOK = true) :
    3 ≤ p.cPwE ∧ p.covers (p.cPwE - 2) p.devReadDelay = true := by
  simp only [Platform.strobeTimingOK, Config.syncStages, Bool.and_eq_true] at h
  exact ⟨of_decide_eq_true h.1.1.1.1.1, h.1.1.1.2⟩

/-- A read strobe that has been high for C_PW_E edges or more samples the device's answer (R106, R115). -/
theorem sampleFall_next (he : s.e = true) (hd : s.dir = .input) (hw : s.rw = .read)
    (hc : s.ctlOe = true) (ht : s.platform.strobeTimingOK = true)
    (hn : s.platform.cPwE ≤ s.dcnt) :
    ∃ t, sampleFall s = .next t ∧
      t.view =
        { s.view with
          e := false, dbIn := s.lcd.answer s.rs, lcd := s.lcd.afterRead s.rs, rspValid := false,
          trace := stamped [.eDownSample (s.lcd.answer s.rs)] ++ s.view.trace } := by
  obtain ⟨h3, hr⟩ := strobeTimingOK_pulse ht
  have hb : sync1After s.dropStretch.readLevel (s.due + s.stretch - 1) s.dropStretch.sync0
      s.dropStretch.sync1 = s.lcd.answer s.rs := by
    have hdue : s.platform.cPwE ≤ s.due := le_trans hn (le_max_right _ _)
    obtain ⟨n, hg⟩ : ∃ n, s.due + s.stretch - 1 = n + 2 :=
      ⟨s.due + s.stretch - 3, by omega⟩
    rw [hg]
    have hcov : s.platform.covers (n + 1) s.platform.devReadDelay = true :=
      covers_mono (by omega) hr
    simp [sync1After, State.readLevel, State.dropStretch, hc, ht, hcov]
  refine ⟨_, requireThat_true (by simp [he, hd, hw]) _, ?_⟩
  simp only [hb, hc, if_true]
  rfl

@[simp] theorem finish_seq (fin : Finish) : (s.finish fin).seq = .idle := by cases fin <;> rfl

/-- The response that ends a program. -/
theorem finish_view (fin : Finish) :
    ∃ c d, (s.finish fin).view =
        { s.view with
          rspCode := c, rspData := d, rspValid := true,
          responses := ⟨c, d⟩ :: s.responses } ∧
      (∀ c' d', fin = .done c' d' → c = c' ∧ d = d') ∧
      (fin = .sampled → c = .ok ∧ d = s.dbIn) ∧
      (fin = .bounded → c = (if busyFlag s.dbIn then .errTimeout else .ok) ∧ d = s.dbIn) := by
  cases fin with
  | done c d => exact ⟨c, d, rfl, by simp +contextual⟩
  | sampled => exact ⟨.ok, s.dbIn, rfl, by simp⟩
  | bounded =>
    exact ⟨if busyFlag s.dbIn then .errTimeout else .ok, s.dbIn, rfl, by simp⟩

end

/-! ### Running a program -/

theorem continueWith_next {o : Host.Outcome State Fault Refusal} {t : State} (h : o = .next t)
    (r : List Micro) (fin : Finish) : continueWith r fin o = .next (t.goOn r fin) := by
  subst h; rfl

/-- What a check lets through is all that counts of it. -/
theorem continueWith_requireThat {r : List Micro} {fin : Finish} {b : Bool} {s t : State}
    (h : s.goOn r fin = t.goOn r fin) :
    continueWith r fin (requireThat b s) = continueWith r fin (requireThat b t) := by
  cases b
  · rfl
  · simp [continueWith, requireThat, h]

theorem setDir_goOn (r a : List Micro) (fin b : Finish) (d : Direction) (s : State) :
    continueWith r fin (setDir d (s.goOn a b)) = continueWith r fin (setDir d s) :=
  continueWith_requireThat rfl

theorem enableCtl_goOn (r a : List Micro) (fin b : Finish) (s : State) :
    continueWith r fin (enableCtl (s.goOn a b)) = continueWith r fin (enableCtl s) :=
  continueWith_requireThat rfl

theorem setCtl_goOn (r a : List Micro) (fin b : Finish) (rs : RegSel) (rw : ReadWrite) (s : State) :
    continueWith r fin (setCtl rs rw (s.goOn a b)) = continueWith r fin (setCtl rs rw s) :=
  continueWith_requireThat rfl

theorem driveDB_goOn (r a : List Micro) (fin b : Finish) (v : Byte) (s : State) :
    continueWith r fin (driveDB v (s.goOn a b)) = continueWith r fin (driveDB v s) :=
  continueWith_requireThat rfl

theorem strobeUp_goOn (r a : List Micro) (fin b : Finish) (s : State) :
    continueWith r fin (strobeUp (s.goOn a b)) = continueWith r fin (strobeUp s) :=
  continueWith_requireThat rfl

theorem sampleUp_goOn (r a : List Micro) (fin b : Finish) (s : State) :
    continueWith r fin (sampleUp (s.goOn a b)) = continueWith r fin (sampleUp s) :=
  continueWith_requireThat rfl

theorem sampleFall_goOn (r a : List Micro) (fin b : Finish) (s : State) :
    continueWith r fin (sampleFall (s.goOn a b)) = continueWith r fin (sampleFall s) :=
  continueWith_requireThat rfl

theorem strobeDown_goOn (r a : List Micro) (fin b : Finish) (s : State) :
    strobeDown r fin (s.goOn a b) = strobeDown r fin s := by
  by_cases h : (s.e && s.dir == .output && s.rw == .write) = true
  · simp only [strobeDown, strobeFall, requireThat, State.goOn_e, State.goOn_dir, State.goOn_rw, h,
      if_true]
    rfl
  · simp only [strobeDown, strobeFall, requireThat, State.goOn_e, State.goOn_dir, State.goOn_rw, h]
    rfl

/-- The sequencer does not look at SEQ within an event. -/
theorem microStep_goOn (todo a : List Micro) (fin b : Finish) :
    ∀ s : State, microStep todo fin (s.goOn a b) = microStep todo fin s := by
  induction todo with
  | nil => intro s; cases fin <;> rfl
  | cons op r ih =>
    intro s
    cases op with
    | delayEnd p => exact ih { s with lcd := s.lcd.afterDelay s.platform p }
    | setDrv d => exact ih { s with drvState := d }
    | initEnd => exact ih { s with lcd := s.lcd.afterInit s.platform }
    | clearRcnt => exact ih { s with rcnt := 0 }
    | incRcnt => exact ih { s with rcnt := s.rcnt + 1 }
    | setPcnt n => exact ih { s with pcnt := n }
    | legacyTest =>
      simp only [microStep, State.goOn_rcnt, ih s, setDir_goOn]
    | pollAgain =>
      simp only [microStep, State.goOn_dbIn, ih s, setDir_goOn]
    | boundedTest =>
      have h1 := ih { s with pcnt := s.pcnt - 1 }
      have h2 := setDir_goOn (busRead.tail ++ .boundedTest :: r) a fin b .input
        { s with pcnt := s.pcnt - 1 }
      simp only [State.goOn] at h1 h2
      simp only [microStep, State.goOn, h1, h2]
    | enableCtl => exact enableCtl_goOn ..
    | setDir d => exact setDir_goOn ..
    | setCtl rs rw => exact setCtl_goOn ..
    | driveDB v => exact driveDB_goOn ..
    | strobeUp => exact strobeUp_goOn ..
    | strobeDown => exact strobeDown_goOn ..
    | sampleUp => exact sampleUp_goOn ..
    | sampleDown => exact sampleFall_goOn ..
    | delay p => rfl

/-- `n` events take `s` to `t`, if at least one more is to come. -/
def Runs (n : Nat) (s t : State) : Prop :=
  ∀ m, 0 < m → runEvents (n + m) s = runEvents m t

theorem Runs.trans {m n : Nat} {s t u : State} (h : Runs m s t) (h' : Runs n t u) :
    Runs (m + n) s u := by
  intro k hk
  rw [Nat.add_assoc, h _ (by omega), h' _ hk]

theorem runEvents_running (n : Nat) (s : State) (todo : List Micro) (fin : Finish) :
    runEvents (n + 1) (s.goOn todo fin) =
      match microStep todo fin s with
      | .next t => runEvents n t
      | .fault f => .fault f
      | .refused r => .refused r := by
  rw [← microStep_goOn todo todo fin fin s]
  rfl

/-- One event. -/
theorem Runs.event {todo : List Micro} {fin : Finish} {s t : State}
    (h : microStep todo fin s = .next t) : Runs 1 (s.goOn todo fin) t := by
  intro m _
  rw [Nat.add_comm, runEvents_running, h]

/-- Steps folded into the next event's edge. -/
theorem Runs.fold {todo todo' : List Micro} {fin : Finish} {s s' : State}
    (h : microStep todo fin s = microStep todo' fin s') :
    Runs 0 (s.goOn todo fin) (s'.goOn todo' fin) := by
  intro m hm
  obtain ⟨k, rfl⟩ : ∃ k, m = k + 1 := ⟨m - 1, by omega⟩
  rw [Nat.zero_add, runEvents_running, runEvents_running, h]

/-- A program's last event is its response. -/
theorem runEvents_finish (n : Nat) (s : State) (fin : Finish) :
    runEvents (n + 1) (s.goOn [] fin) = .next (s.finish fin) := by
  rw [runEvents_running]
  cases n <;> simp [microStep, runEvents]

/-- A program that runs through in `n` events and then responds. -/
theorem runProgram_of_runs {n : Nat} {todo : List Micro} {fin : Finish} {s t : State}
    (h : Runs n (s.goOn todo fin) (t.goOn [] fin)) (hp : n ≤ s.pace) :
    runProgram todo fin s = .next (t.finish fin) := by
  obtain ⟨k, hk⟩ : ∃ k, s.pace + 1 = n + (k + 1) := ⟨s.pace - n, by omega⟩
  rw [runProgram, resume, State.goOn_pace, hk, h _ (by omega), runEvents_finish]

/-! ### Phases -/

/-- `BusWrite(rs, v)` (R107): five events; `G` is what the device does with the byte. -/
theorem busWrite_runs {s : State} {rs : RegSel} {v : Byte} {G : Platform → Lcd → Lcd}
    (he : s.e = false) (hc : s.ctlOe = true)
    (hG : ∀ u : State, u.ctlOe = true → u.rs = rs → u.dbOut = v →
      latchWrite u = .next { u with lcd := G u.platform u.lcd })
    (r : List Micro) (fin : Finish) :
    ∃ t : State, Runs 5 (s.goOn (busWrite rs v ++ r) fin) (t.goOn r fin) ∧
      t.view =
        { s.view with
          dir := .output, rs := rs, rw := .write, dbOut := v, e := false, rspValid := false,
          lcd := G s.platform s.lcd,
          trace := stamped (writeEvents rs v) ++ s.view.trace } := by
  obtain ⟨s1, h1, v1⟩ := setDir_next he .output
  have e1 : s1.e = false := by have := congrArg State.e v1; exact this.trans he
  obtain ⟨s2, h2, v2⟩ := setCtl_next e1 rs .write
  have e2 : s2.e = false := by have := congrArg State.e v2; exact this.trans e1
  have d2 : s2.dir = .output := by
    have a := congrArg State.dir v2; have b := congrArg State.dir v1; exact a.trans b
  obtain ⟨s3, h3, v3⟩ := driveDB_next e2 d2 v
  have e3 : s3.e = false := by have := congrArg State.e v3; exact this.trans e2
  have d3 : s3.dir = .output := by have a := congrArg State.dir v3; exact a.trans d2
  have w3 : s3.rw = .write := by
    have a := congrArg State.rw v3; have b := congrArg State.rw v2; exact a.trans b
  have h4 := strobeUp_next e3 d3 w3
  have v4 := raiseE_view (s := s3)
  have d4 : s3.raiseE.dir = .output := d3
  have w4 : s3.raiseE.rw = .write := w3
  obtain ⟨s5, h5, v5⟩ := strobeFall_next (s := s3.raiseE) rfl d4 w4
  have vv : s5.view =
      { s.view with
        dir := .output, rs := rs, rw := .write, dbOut := v, e := false, rspValid := false,
        trace := stamped (writeEvents rs v) ++ s.view.trace } := by
    rw [v5, v4, v3, v2, v1]; rfl
  have c5 : s5.ctlOe = true := by have := congrArg State.ctlOe vv; exact this.trans hc
  have r5 : s5.rs = rs := by have := congrArg State.rs vv; exact this
  have b5 : s5.dbOut = v := by have := congrArg State.dbOut vv; exact this
  have p5 : s5.platform = s.platform := by have := congrArg State.platform vv; exact this
  have l5 : s5.lcd = s.lcd := by have := congrArg State.lcd vv; exact this
  have hl := hG (s5.goOn r fin) c5 r5 b5
  refine ⟨{ s5 with lcd := G s5.platform s5.lcd }, ?_, ?_⟩
  · have a1 : Runs 1 (s.goOn (busWrite rs v ++ r) fin) _ :=
      Runs.event (continueWith_next h1 _ _)
    have a2 := a1.trans (Runs.event (continueWith_next h2
      (.driveDB v :: .strobeUp :: .strobeDown :: r) fin))
    have a3 := a2.trans (Runs.event (continueWith_next h3 (.strobeUp :: .strobeDown :: r) fin))
    have a4 := a3.trans (Runs.event (continueWith_next h4 (.strobeDown :: r) fin))
    refine a4.trans (Runs.event ?_)
    simp only [microStep, strobeDown, h5, hl]
    rfl
  · have : State.view { s5 with lcd := G s5.platform s5.lcd } =
        { s5.view with lcd := G s.platform s.lcd } := by rw [← p5, ← l5]; rfl
    rw [this, vv]

/-- `BusRead(Instruction)` (R108), one poll: four events; the device's answer is sampled. -/
theorem busRead_runs {s : State} (he : s.e = false) (hc : s.ctlOe = true)
    (ht : s.platform.strobeTimingOK = true) (r : List Micro) (fin : Finish) :
    ∃ t : State, Runs 4 (s.goOn (busRead ++ r) fin) (t.goOn r fin) ∧
      t.view =
        { s.view with
          dir := .input, rs := .instruction, rw := .read, e := false,
          dbIn := s.lcd.statusAnswer, lcd := s.lcd.afterStatus, rspValid := false,
          trace := stamped (pollEvents s.lcd.statusAnswer) ++ s.view.trace } := by
  obtain ⟨s1, h1, v1⟩ := setDir_next he .input
  have e1 : s1.e = false := by have := congrArg State.e v1; exact this.trans he
  obtain ⟨s2, h2, v2⟩ := setCtl_next e1 .instruction .read
  have e2 : s2.e = false := by have := congrArg State.e v2; exact this.trans e1
  have d2 : s2.dir = .input := by
    have a := congrArg State.dir v2; have b := congrArg State.dir v1; exact a.trans b
  have w2 : s2.rw = .read := by have a := congrArg State.rw v2; exact a
  have h3 := sampleUp_next e2 d2 w2
  have v3 := raiseE_view (s := s2)
  have p2 : s2.platform = s.platform := by
    have a := congrArg State.platform v2; have b := congrArg State.platform v1; exact a.trans b
  have c2 : s2.ctlOe = true := by
    have a := congrArg State.ctlOe v2; have b := congrArg State.ctlOe v1
    exact (a.trans b).trans hc
  have l2 : s2.lcd = s.lcd := by
    have a := congrArg State.lcd v2; have b := congrArg State.lcd v1; exact a.trans b
  have r2 : s2.rs = .instruction := by have a := congrArg State.rs v2; exact a
  obtain ⟨s4, h4, v4⟩ := sampleFall_next (s := s2.raiseE) rfl d2 w2 c2
    (by rw [State.raiseE_platform, p2]; exact ht) (by simp)
  refine ⟨s4, ?_, ?_⟩
  · have a1 : Runs 1 (s.goOn (busRead ++ r) fin) _ := Runs.event (continueWith_next h1 _ _)
    have a2 := a1.trans (Runs.event (continueWith_next h2 (.sampleUp :: .sampleDown :: r) fin))
    have a3 := a2.trans (Runs.event (continueWith_next h3 (.sampleDown :: r) fin))
    exact a3.trans (Runs.event (continueWith_next h4 r fin))
  · simp only [State.raiseE_rs, r2, State.raiseE_lcd, l2, Lcd.answer, Lcd.afterRead] at v4
    rw [v4, v3, v2, v1]
    simp [stamped, pollEvents]

/-- The same read made again by a loop's test: the events after the test are those of a poll. -/
theorem repoll_runs {s : State} {op : Micro} (r : List Micro) (fin : Finish)
    (h : microStep (op :: r) fin s =
      continueWith (busRead.tail ++ op :: r) fin (setDir .input s)) :
    Runs 0 (s.goOn (op :: r) fin) (s.goOn (busRead ++ op :: r) fin) :=
  Runs.fold h

/-- `k` polls of a device that stays busy for them. -/
theorem polls_runs {k : Nat} (r : List Micro) (fin : Finish) : ∀ {s : State},
    s.e = false → s.ctlOe = true → s.platform.strobeTimingOK = true →
    ((∃ b, s.lcd.busyFor b ∧ k ≤ b) ∨
      (s.lcd.device.unmodelled = false ∧ s.lcd.device.busy = .forever)) →
    ∃ t : State, Runs (4 * (k + 1)) (s.goOn (busRead ++ .pollAgain :: r) fin)
        (t.goOn (.pollAgain :: r) fin) ∧
      t.view =
        { s.view with
          dir := .input, rs := .instruction, rw := .read, e := false,
          dbIn := (s.lcd.afterPolls k).statusAnswer, lcd := s.lcd.afterPolls (k + 1),
          rspValid := false,
          trace := stamped (s.lcd.pollTrace (k + 1)) ++ s.view.trace } := by
  induction k with
  | zero =>
    intro s he hc ht _
    obtain ⟨t, ht1, hv⟩ := busRead_runs he hc ht (.pollAgain :: r) fin
    exact ⟨t, ht1, by rw [hv]; simp [Lcd.afterPolls, Lcd.pollTrace, Lcd.answers]⟩
  | succ k ih =>
    intro s he hc ht hb
    obtain ⟨t, ht1, hv⟩ := busRead_runs he hc ht (.pollAgain :: r) fin
    have hm : s.lcd.device.unmodelled = false := by
      rcases hb with ⟨b, hb, _⟩ | hb
      · exact hb.1
      · exact hb.1
    have hbusy : busyFlag s.lcd.statusAnswer = true := by
      rw [Lcd.busyFlag_statusAnswer hm]
      rcases hb with ⟨b, hb, hle⟩ | hb
      · rw [hb.2]; simp; omega
      · rw [hb.2]; simp
    have hdev := Lcd.afterStatus_device hm
    have tl : t.lcd = s.lcd.afterStatus := by have := congrArg State.lcd hv; exact this
    have te : t.e = false := by have := congrArg State.e hv; exact this
    have tc : t.ctlOe = true := by have := congrArg State.ctlOe hv; exact this.trans hc
    have tp : t.platform = s.platform := by have := congrArg State.platform hv; exact this
    have td : t.dbIn = s.lcd.statusAnswer := by have := congrArg State.dbIn hv; exact this
    have hb' : (∃ b, t.lcd.busyFor b ∧ k ≤ b) ∨
        (t.lcd.device.unmodelled = false ∧ t.lcd.device.busy = .forever) := by
      rw [tl]
      rcases hb with ⟨b, hb, hle⟩ | hb
      · obtain ⟨c, rfl⟩ : ∃ c, b = c + 1 := ⟨b - 1, by omega⟩
        refine .inl ⟨c, ⟨?_, ?_⟩, by omega⟩ <;> rw [hdev.1]
        · exact hm
        · simp [hb.2, polled]
      · refine .inr ⟨?_, ?_⟩ <;> rw [hdev.1]
        · exact hm
        · simp [hb.2, polled]
    obtain ⟨u, hu, hvu⟩ := ih te tc (by rw [tp]; exact ht) hb'
    refine ⟨u, ?_, ?_⟩
    · have hfold : Runs 0 (t.goOn (.pollAgain :: r) fin)
          (t.goOn (busRead ++ .pollAgain :: r) fin) := by
        apply repoll_runs
        simp [microStep, td, hbusy]
      have := (ht1.trans hfold).trans hu
      have hn : 4 + 0 + 4 * (k + 1) = 4 * (k + 1 + 1) := by omega
      rwa [hn] at this
    · rw [hvu, hv, tl]
      simp [Lcd.afterPolls, Lcd.pollTrace, Lcd.answers, stamped]

/-- `WaitIdle` on a device busy for `k` more reads (R160): `k + 1` polls. -/
theorem waitIdle_runs {s : State} {k : Nat} (he : s.e = false) (hc : s.ctlOe = true)
    (ht : s.platform.strobeTimingOK = true) (hb : s.lcd.busyFor k) (r : List Micro)
    (fin : Finish) :
    ∃ t : State, Runs (4 * (k + 1)) (s.goOn (waitIdle ++ r) fin) (t.goOn r fin) ∧
      t.view =
        { s.view with
          dir := .input, rs := .instruction, rw := .read, e := false,
          dbIn := statusByte false s.lcd.device.ac, lcd := s.lcd.afterPolls (k + 1),
          rspValid := false,
          trace := stamped (s.lcd.pollTrace (k + 1)) ++ s.view.trace } := by
  obtain ⟨t, hr, hv⟩ := polls_runs r fin he hc ht (.inl ⟨k, hb, le_rfl⟩)
  have hans : (s.lcd.afterPolls k).statusAnswer = statusByte false s.lcd.device.ac := by
    have : ∀ (k : Nat) (l : Lcd), l.busyFor k →
        (l.afterPolls k).statusAnswer = statusByte false l.device.ac := by
      intro k
      induction k with
      | zero => intro l h; exact Lcd.statusAnswer_idle h.1 h.2
      | succ k ih =>
        intro l h
        have hd := Lcd.afterStatus_device h.1
        have := ih l.afterStatus ⟨by rw [hd.1]; exact h.1, by rw [hd.1]; simp [h.2, polled]⟩
        rw [Lcd.afterPolls, this, hd.1]
    exact this k _ hb
  rw [hans] at hv
  refine ⟨t, ?_, hv⟩
  have td : t.dbIn = statusByte false s.lcd.device.ac := by
    have := congrArg State.dbIn hv; exact this
  have hfold : Runs 0 (t.goOn (.pollAgain :: r) fin) (t.goOn r fin) := by
    apply Runs.fold
    simp [microStep, td]
  have := hr.trans hfold
  simpa [waitIdle] using this

/-! ### What the device does with a written byte -/

/-- An instruction byte: the meaning of the instruction it decodes to. -/
theorem latchWrite_instruction (v : Byte) :
    ∃ G : Platform → Lcd → Lcd,
      (∀ u : State, u.ctlOe = true → u.rs = .instruction → u.dbOut = v →
        latchWrite u = .next { u with lcd := G u.platform u.lcd }) ∧
      ∀ f : State, exec (decodeLcd v) f = .next { f with lcd := G f.platform f.lcd } := by
  obtain ⟨G, hG⟩ := latchInstruction_next v
  refine ⟨G, fun u hc hr hd => ?_, fun f => ?_⟩
  · simp [latchWrite, hc, hr, hd, hG]
  · rw [← latchInstruction_eq_exec, hG]

/-- A data byte. -/
theorem latchWrite_data (v : Byte) (u : State) (hc : u.ctlOe = true) (hr : u.rs = .data)
    (hd : u.dbOut = v) :
    latchWrite u =
      .next { u with lcd := u.lcd.write u.platform 0 (Lcd.takeData v) } := by
  simp [latchWrite, hc, hr, hd, latchData]

end Sys2Proof.Machine
end

