-- ==== Sys2Proof/Laws/Invariant.lean ====
section
/-! SUPPORT. What one event of a running program keeps: the invariant, and the registers no event touches.
`Fits l s` says that the lines `l` describe `s`, where `l.last` may already say that the byte just sampled
was tested idle. -/

namespace Sys2Proof.Machine

/-! ### What the lines of a program say -/

/-- The registers agree with `l`, and `l.last` is true of the trace. -/
structure Fits (l : Lines) (s : State) : Prop where
  ctlOe : l.ctlOe = s.ctlOe
  dir : l.dir = s.dir
  rs : l.rs = s.rs
  rw : l.rw = s.rw
  e : l.e = s.e
  drv : l.drv = s.drvState
  settled : l.last = .settled → busyRule (.dir .output :: s.trace.map (·.2)) = true
  sampled : l.last = .sampled → ∃ c v r, s.trace = (c, .eDownSample v) :: r ∧ s.dbIn = v

/-- What a program that is running keeps beside the lines. -/
structure Keeps (s : State) : Prop where
  platform : s.platform.wellFormed = true
  ddram : s.lcd.device.ddram.wf = true
  driven : s.ctlOe = true → s.drvState ≠ .uninitialized
  busyRule : busyRule (s.trace.map (·.2)) = true

/-- E is high only where the rest of the program starts with the end of a strobe. -/
theorem admits_high {l : Lines} {todo : List Micro} (h : l.admits todo = true) (he : l.e = true) :
    ∃ r, (todo = .strobeDown :: r ∧ l.rw = .write ∧ l.dir = .output) ∨
      (todo = .sampleDown :: r ∧ l.rw = .read ∧ l.dir = .input) := by
  cases todo with
  | nil => simp [Lines.admits, Lines.quiet, he] at h
  | cons op r =>
    cases op with
    | strobeDown => simp [Lines.admits] at h; exact ⟨r, .inl ⟨rfl, h.1.2, h.1.1.2⟩⟩
    | sampleDown => simp [Lines.admits] at h; exact ⟨r, .inr ⟨rfl, h.1.2, h.1.1.2⟩⟩
    | setDir d => cases d <;> simp [Lines.admits, Lines.quiet, he] at h
    | _ => simp [Lines.admits, Lines.quiet, Lines.polled, Lines.timed, he] at h

/-- A state in the middle of a program, whose lines fit the rest of it, meets the invariant. -/
theorem inv_of_fits {s : State} {todo : List Micro} {fin : Finish} (hs : s.seq = .running todo fin)
    (hk : Keeps s) (hc : s.ctlOe = true) (hl : s.lines.admits todo = true)
    (hd : ∀ c v, s.trace.head? = some (c, .eDownSample v) → s.dbIn = v) : Inv s := by
  have high := fun he : s.e = true => admits_high hl (l := s.lines) he
  refine ⟨hk.platform, hk.ddram, fun he => ?_, fun he hw => ?_, fun he hw => ?_,
    fun h => by simp [hc] at h, hk.driven, ?_, hk.busyRule⟩
  · obtain ⟨r, h | h⟩ := high he
    · exact ⟨r, fin, .inl (by rw [hs, h.1])⟩
    · exact ⟨r, fin, .inr (by rw [hs, h.1])⟩
  · obtain ⟨r, h | h⟩ := high he
    · exact h.2.2
    · exact absurd (h.2.1.symm.trans hw) (by decide)
  · obtain ⟨r, h | h⟩ := high he
    · exact absurd (h.2.1.symm.trans hw) (by decide)
    · exact h.2.2
  · simp only [State.seqFits, hs]; exact ⟨hl, hd⟩

/-- A block between two commands meets the invariant. -/
theorem inv_of_idle {s : State} (hs : s.seq = .idle ∨ s.seq = .decode) (hk : Keeps s)
    (he : s.e = false)
    (hd : (s.drvState = .uninitialized ∧ s.ctlOe = false) ∨
      (s.drvState = .ready ∧ s.ctlOe = true)) : Inv s := by
  refine ⟨hk.platform, hk.ddram, fun h => by simp [he] at h, fun h => by simp [he] at h,
    fun h => by simp [he] at h, fun h => ?_, hk.driven, ?_, hk.busyRule⟩
  · rcases hd with hd | hd
    · exact ⟨hd.1, he⟩
    · simp [hd.2] at h
  · rcases hs with hs | hs <;> (simp only [State.seqFits, hs]; exact ⟨he, hd⟩)

/-! ### The loops -/

theorem admits_repoll {l : Lines} {op : Micro} {r : List Micro} (hop : op = .pollAgain ∨ op = .boundedTest)
    (h : l.admits (op :: r) = true) : l.admits (busRead ++ op :: r) = true := by
  have hp : l.polled = true := by
    rcases hop with rfl | rfl <;> simp [Lines.admits] at h <;> exact h.1
  simp only [Lines.polled, Lines.quiet, Bool.and_eq_true, Bool.not_eq_true', beq_iff_eq] at hp
  have hl : (⟨true, .input, .instruction, .read, false, l.drv, .sampled⟩ : Lines) = l := by
    obtain ⟨⟨⟨⟨⟨_, h1⟩, h2⟩, h3⟩, h4⟩, h5⟩ := hp
    cases l; simp_all
  simp only [busRead, List.cons_append, List.nil_append]
  rw [Lines.admits, Lines.admits, Lines.admits, Lines.admits]
  simp [Lines.quiet, hp, hl, h]

theorem admits_legacy {l : Lines} {r : List Micro} (h : l.admits (.legacyTest :: r) = true) :
    l.admits (legacyBody ++ r) = true := by
  have h' := h
  simp only [Lines.admits, Lines.timed, Lines.quiet, Bool.and_eq_true, Bool.not_eq_true',
    beq_iff_eq] at h'
  obtain ⟨⟨⟨⟨⟨⟨⟨hc, he⟩, hd⟩, hdir⟩, hrs⟩, hrw⟩, hlast⟩, _⟩ := h'
  have hl : (⟨l.ctlOe, .output, .instruction, .write, false, l.drv, .settled⟩ : Lines) = l := by
    cases l; simp_all
  simp only [legacyBody, busWrite, delayFor, List.cons_append, List.nil_append]
  rw [Lines.admits, Lines.admits, Lines.admits, Lines.admits, Lines.admits, Lines.admits,
    Lines.admits, Lines.admits, hl, h]
  simp [Lines.quiet, Lines.timed, hc, he, hd, hlast]

/-! ### One event -/

theorem trace_last {s : State} {c : Nat} {ev : Event} {r : List (Nat × Event)}
    (h : s.trace = (c, ev) :: r) : s.lines.last = ev.kind := by
  simp [State.lines, h]

/-- An event that is not a sample, after which the lines are `l` and the block drives the control lines,
leaves a state of the invariant. -/
theorem inv_of_event {s t : State} {todo : List Micro} {fin : Finish} {l : Lines} {c : Nat}
    {ev : Event} (hs : t.seq = .running todo fin) (hk : Keeps s)
    (hp : t.platform = s.platform) (hm : t.lcd.device.ddram.wf = true)
    (hdrv : t.drvState ≠ .uninitialized) (hc : t.ctlOe = true)
    (htr : t.trace = (c, ev) :: s.trace) (hb : busyRule (ev :: s.trace.map (·.2)) = true)
    (hl : t.lines = l) (ha : l.admits todo = true)
    (hd : ∀ v, ev = .eDownSample v → t.dbIn = v) : Inv t := by
  refine inv_of_fits hs ⟨hp ▸ hk.platform, hm, fun _ => hdrv, by simpa [htr] using hb⟩ hc (hl ▸ ha) ?_
  intro c' v h
  simp only [htr, List.head?_cons, Option.some.injEq, Prod.mk.injEq] at h
  exact hd v h.2

theorem busyRule_other {ev : Event} {r : List Event} (h : busyRule r = true)
    (he : ev ≠ .dir .output) : busyRule (ev :: r) = true := by
  cases ev with
  | dir d => cases d <;> simp_all [busyRule]
  | _ => simpa [busyRule] using h

/-- The device's reaction at a falling edge of E changes the device alone, and keeps its memory in
canonical form. -/
theorem latchWrite_next (s : State) :
    ∃ m : Lcd, latchWrite s = .next { s with lcd := m } ∧
      (s.lcd.device.ddram.wf = true → m.device.ddram.wf = true) := by
  unfold latchWrite
  split
  · split
    · obtain ⟨F, hF⟩ := latchInstruction_next s.dbOut
      exact ⟨_, hF s, fun h => exec_lcd_wf h (hF s)⟩
    · exact ⟨_, rfl, fun h => latchData_wf (v := s.dbOut) h⟩
  · exact ⟨s.lcd, rfl, id⟩

/-- `SetDir`. -/
theorem setDir_keepsInv {fin : Finish} {r : List Micro} {l : Lines} {s : State} {d : Direction}
    (hf : Fits l s) (hk : Keeps s) (ha : l.admits (.setDir d :: r) = true) :
    ∃ t, continueWith r fin (setDir d s) = .next t ∧ Inv t := by
  have hb : busyRule (.dir d :: s.trace.map (·.2)) = true := by
    cases d
    · simp only [Lines.admits, Bool.and_eq_true, beq_iff_eq] at ha
      exact hf.settled ha.1.2
    · exact busyRule_other hk.busyRule (by simp)
  have hq : l.ctlOe = true ∧ l.e = false ∧
      Lines.admits { l with dir := d, last := .other } r = true := by
    cases d <;>
      simp only [Lines.admits, Lines.quiet, Bool.and_eq_true, Bool.not_eq_true',
        beq_iff_eq] at ha
    · exact ⟨ha.1.1.1, ha.1.1.2, ha.2⟩
    · exact ⟨ha.1.1, ha.1.2, ha.2⟩
  have he := hf.e ▸ hq.2.1
  have hc := hf.ctlOe ▸ hq.1
  refine ⟨_, continueWith_next (requireThat_true (by simp [he]) _) _ _, ?_⟩
  refine inv_of_event (s := s) (ev := .dir d) rfl hk rfl hk.ddram (hk.driven hc) hc rfl hb ?_
    hq.2.2 (by simp)
  simp [State.lines, Event.kind, hf.ctlOe, hf.rs, hf.rw, hf.e, hf.drv]

/-- `enableCtl`. -/
theorem enableCtl_keepsInv {fin : Finish} {r : List Micro} {l : Lines} {s : State}
    (hf : Fits l s) (hk : Keeps s) (ha : l.admits (.enableCtl :: r) = true) :
    ∃ t, microStep (.enableCtl :: r) fin s = .next t ∧ Inv t := by
  simp only [Lines.admits, Bool.and_eq_true, Bool.not_eq_true', beq_iff_eq] at ha
  obtain ⟨⟨⟨hc, he⟩, hd⟩, ha⟩ := ha
  have he' := hf.e ▸ he
  have hc' := hf.ctlOe ▸ hc
  have hd' := hf.drv ▸ hd
  refine ⟨_, continueWith_next (requireThat_true (by simp [hc']) _) _ _, ?_⟩
  refine inv_of_event (s := s) (ev := .enCtl) rfl hk rfl hk.ddram (by simp [hd']) rfl rfl
    (busyRule_other hk.busyRule (by simp)) ?_ ha (by simp)
  simp [State.lines, Event.kind, hf.dir, he, hf.drv]

/-- `setCtl`. -/
theorem setCtl_keepsInv {fin : Finish} {r : List Micro} {l : Lines} {s : State} {rs : RegSel} {rw : ReadWrite}
    (hf : Fits l s) (hk : Keeps s) (ha : l.admits (.setCtl rs rw :: r) = true) :
    ∃ t, microStep (.setCtl rs rw :: r) fin s = .next t ∧ Inv t := by
  simp only [Lines.admits, Lines.quiet, Bool.and_eq_true, Bool.not_eq_true'] at ha
  obtain ⟨⟨hc, he⟩, ha⟩ := ha
  have he' := hf.e ▸ he
  have hc' := hf.ctlOe ▸ hc
  refine ⟨_, continueWith_next (requireThat_true (by simp [he']) _) _ _, ?_⟩
  refine inv_of_event (s := s) (ev := .ctl rs rw) (State.goOn_seq ..) hk (by simp) (by simpa using hk.ddram)
    (by simpa using hk.driven hc') (by simpa using hc') (by simp; rfl)
    (busyRule_other hk.busyRule (by simp)) ?_ ha (by simp)
  simp [State.lines, Event.kind, hf.dir, hf.ctlOe, hf.e, hf.drv]

/-- `driveDB`. -/
theorem driveDB_keepsInv {fin : Finish} {r : List Micro} {l : Lines} {s : State} {v : Byte}
    (hf : Fits l s) (hk : Keeps s) (ha : l.admits (.driveDB v :: r) = true) :
    ∃ t, microStep (.driveDB v :: r) fin s = .next t ∧ Inv t := by
  simp only [Lines.admits, Lines.quiet, Bool.and_eq_true, Bool.not_eq_true', beq_iff_eq] at ha
  obtain ⟨⟨⟨hc, he⟩, hd⟩, ha⟩ := ha
  have he' := hf.e ▸ he
  have hc' := hf.ctlOe ▸ hc
  have hd' := hf.dir ▸ hd
  refine ⟨_, continueWith_next (requireThat_true (by simp [he', hd']) _) _ _, ?_⟩
  refine inv_of_event (s := s) (ev := .data v) (State.goOn_seq ..) hk (by simp) (by simpa using hk.ddram)
    (by simpa using hk.driven hc') (by simpa using hc') (by simp; rfl)
    (busyRule_other hk.busyRule (by simp)) ?_ ha (by simp)
  simp [State.lines, Event.kind, hf.dir, hf.ctlOe, hf.e, hf.drv, hf.rs, hf.rw]

/-- `strobeUp`. -/
theorem strobeUp_keepsInv {fin : Finish} {r : List Micro} {l : Lines} {s : State}
    (hf : Fits l s) (hk : Keeps s) (ha : l.admits (.strobeUp :: r) = true) :
    ∃ t, microStep (.strobeUp :: r) fin s = .next t ∧ Inv t := by
  simp only [Lines.admits, Lines.quiet, Bool.and_eq_true, Bool.not_eq_true', beq_iff_eq] at ha
  obtain ⟨⟨⟨⟨hc, he⟩, hd⟩, hw⟩, ha⟩ := ha
  have hc' := hf.ctlOe ▸ hc
  have h := strobeUp_next (hf.e.symm.trans he) (hf.dir.symm.trans hd) (hf.rw.symm.trans hw)
  refine ⟨s.raiseE.goOn r fin, continueWith_next h _ _, ?_⟩
  refine inv_of_event (s := s) (ev := .eUp) (State.goOn_seq ..) hk (by simp) (by simpa using hk.ddram)
    (by simpa using hk.driven hc') (by simpa using hc') (by simp; rfl)
    (busyRule_other hk.busyRule (by simp)) ?_ ha (by simp)
  simp [State.lines, Event.kind, hf.dir, hf.ctlOe, hf.drv, hf.rs, hf.rw]

/-- `sampleUp`. -/
theorem sampleUp_keepsInv {fin : Finish} {r : List Micro} {l : Lines} {s : State}
    (hf : Fits l s) (hk : Keeps s) (ha : l.admits (.sampleUp :: r) = true) :
    ∃ t, microStep (.sampleUp :: r) fin s = .next t ∧ Inv t := by
  simp only [Lines.admits, Lines.quiet, Bool.and_eq_true, Bool.not_eq_true', beq_iff_eq] at ha
  obtain ⟨⟨⟨⟨hc, he⟩, hd⟩, hw⟩, ha⟩ := ha
  have hc' := hf.ctlOe ▸ hc
  have h := sampleUp_next (hf.e.symm.trans he) (hf.dir.symm.trans hd) (hf.rw.symm.trans hw)
  refine ⟨s.raiseE.goOn r fin, continueWith_next h _ _, ?_⟩
  refine inv_of_event (s := s) (ev := .eUp) (State.goOn_seq ..) hk (by simp) (by simpa using hk.ddram)
    (by simpa using hk.driven hc') (by simpa using hc') (by simp; rfl)
    (busyRule_other hk.busyRule (by simp)) ?_ ha (by simp)
  simp [State.lines, Event.kind, hf.dir, hf.ctlOe, hf.drv, hf.rs, hf.rw]

/-- `strobeDown`. -/
theorem strobeDown_keepsInv {fin : Finish} {r : List Micro} {l : Lines} {s : State}
    (hf : Fits l s) (hk : Keeps s) (ha : l.admits (.strobeDown :: r) = true) :
    ∃ t, microStep (.strobeDown :: r) fin s = .next t ∧ Inv t := by
  simp only [Lines.admits, Bool.and_eq_true, beq_iff_eq] at ha
  obtain ⟨⟨⟨⟨hc, he⟩, hd⟩, hw⟩, ha⟩ := ha
  have hc' := hf.ctlOe ▸ hc
  have hfall : strobeFall s = .next ((s.elapse s.due).dropE .eDown) :=
    requireThat_true (by simp [← hf.e, ← hf.dir, ← hf.rw, he, hd, hw]) _
  obtain ⟨G, hG, hwf⟩ := latchWrite_next ((((s.elapse s.due).dropE .eDown)).goOn r fin)
  refine ⟨{ (((s.elapse s.due).dropE .eDown)).goOn r fin with lcd := G },
    by simp only [microStep, strobeDown, hfall, hG], ?_⟩
  refine inv_of_event (s := s) (ev := .eDown) (todo := r) (fin := fin) (by simp) hk (by simp)
    (hwf (by simpa using hk.ddram)) (by simpa using hk.driven hc') (by simpa using hc')
    (by simp; rfl) (busyRule_other hk.busyRule (by simp)) ?_ ha (by simp)
  simp [State.lines, Event.kind, hf.dir, hf.ctlOe, hf.drv, hf.rs, hf.rw]

/-- `sampleDown`. -/
theorem sampleDown_keepsInv {fin : Finish} {r : List Micro} {l : Lines} {s : State}
    (hf : Fits l s) (hk : Keeps s) (ha : l.admits (.sampleDown :: r) = true) :
    ∃ t, microStep (.sampleDown :: r) fin s = .next t ∧ Inv t := by
  simp only [Lines.admits, Bool.and_eq_true, beq_iff_eq] at ha
  obtain ⟨⟨⟨⟨hc, he⟩, hd⟩, hw⟩, ha⟩ := ha
  have hc' := hf.ctlOe ▸ hc
  obtain ⟨t, b, ht, hv, htr⟩ := sampleFall_any (s := s) (hf.e.symm.trans he)
    (hf.dir.symm.trans hd) (hf.rw.symm.trans hw)
  refine ⟨t.goOn r fin, continueWith_next ht _ _, ?_⟩
  have vp : t.platform = s.platform := by have h := congrArg State.platform hv; exact h
  have vm : t.lcd = if s.ctlOe then s.lcd.afterRead s.rs else s.lcd := by
    have h := congrArg State.lcd hv; exact h
  have vd : t.drvState = s.drvState := by have h := congrArg State.drvState hv; exact h
  have vc : t.ctlOe = s.ctlOe := by have h := congrArg State.ctlOe hv; exact h
  have vr : t.rs = s.rs := by have h := congrArg State.rs hv; exact h
  have vw : t.rw = s.rw := by have h := congrArg State.rw hv; exact h
  have vi : t.dir = s.dir := by have h := congrArg State.dir hv; exact h
  have ve : t.e = false := by have h := congrArg State.e hv; exact h
  have vb : t.dbIn = b := by have h := congrArg State.dbIn hv; exact h
  refine inv_of_event (s := s) (ev := .eDownSample b) (State.goOn_seq ..) hk (by simpa using vp)
    ?_ (by simpa [vd] using hk.driven hc') (by simpa [vc] using hc') (by simp; exact htr)
    (busyRule_other hk.busyRule (by simp)) ?_ ha (by simp [vb])
  · simp only [State.goOn_lcd, vm, hc', if_true]
    exact Lcd.afterRead_wf _ hk.ddram
  · simp [State.lines, Event.kind, hf.dir, hf.ctlOe, hf.drv, hf.rs, hf.rw, vd, vc, vr, vw, vi, ve,
      htr]

/-- `delay`. -/
theorem delay_keepsInv {fin : Finish} {r : List Micro} {l : Lines} {s : State} {p : DelayLength}
    (hf : Fits l s) (hk : Keeps s) (ha : l.admits (.delay p :: r) = true) :
    ∃ t, microStep (.delay p :: r) fin s = .next t ∧ Inv t := by
  simp only [Lines.admits, Lines.timed, Lines.quiet, Bool.and_eq_true, Bool.not_eq_true'] at ha
  obtain ⟨⟨⟨hc, he⟩, _⟩, ha⟩ := ha
  have hc' := hf.ctlOe ▸ hc
  refine ⟨_, rfl, ?_⟩
  refine inv_of_event (s := s) (ev := .wait p) (State.goOn_seq ..) hk (by simp)
    (by simpa using hk.ddram) (by simpa using hk.driven hc') (by simpa using hc') (by simp; rfl)
    (busyRule_other hk.busyRule (by simp)) ?_ ha (by simp)
  simp [State.lines, Event.kind, hf.dir, hf.ctlOe, hf.drv, hf.rs, hf.rw, hf.e]

/-- An event of a program that fits the lines answers a next state of the invariant (R113, R41). -/
theorem microStep_inv (fin : Finish) : ∀ {todo : List Micro} {l : Lines} {s : State},
    Fits l s → Keeps s → l.admits todo = true → ∃ t, microStep todo fin s = .next t ∧ Inv t := by
  intro todo
  induction todo with
  | nil =>
    intro l s hf hk ha
    simp only [Lines.admits, Lines.quiet, Bool.and_eq_true, Bool.not_eq_true', beq_iff_eq] at ha
    have hc := hf.ctlOe ▸ ha.1.1
    have he := hf.e ▸ ha.1.2
    have hd := hf.drv ▸ ha.2
    refine ⟨_, rfl, inv_of_idle (.inl (finish_seq _)) ⟨?_, ?_, ?_, ?_⟩ ?_ (.inr ⟨?_, ?_⟩)⟩ <;>
      cases fin
    all_goals first
      | exact hk.platform | exact hk.ddram | exact hk.driven | exact hk.busyRule | exact he
      | exact hd | exact hc
  | cons op r ih =>
    intro l s hf hk ha
    cases op with
    | setDir d => exact setDir_keepsInv hf hk ha
    | enableCtl => exact enableCtl_keepsInv hf hk ha
    | setCtl rs rw => exact setCtl_keepsInv hf hk ha
    | driveDB v => exact driveDB_keepsInv hf hk ha
    | strobeUp => exact strobeUp_keepsInv hf hk ha
    | sampleUp => exact sampleUp_keepsInv hf hk ha
    | strobeDown => exact strobeDown_keepsInv hf hk ha
    | sampleDown => exact sampleDown_keepsInv hf hk ha
    | delay p => exact delay_keepsInv hf hk ha
    | delayEnd p =>
      simp only [Lines.admits, Bool.and_eq_true] at ha
      exact ih (s := { s with lcd := s.lcd.afterDelay s.platform p })
        ⟨hf.1, hf.2, hf.3, hf.4, hf.5, hf.6, hf.7, hf.8⟩
        ⟨hk.platform, Lcd.afterDelay_wf _ _ hk.ddram, hk.driven, hk.busyRule⟩ ha.2
    | initEnd =>
      simp only [Lines.admits, Bool.and_eq_true] at ha
      exact ih (s := { s with lcd := s.lcd.afterInit s.platform })
        ⟨hf.1, hf.2, hf.3, hf.4, hf.5, hf.6, hf.7, hf.8⟩
        ⟨hk.platform, Lcd.afterInit_wf _ hk.ddram, hk.driven, hk.busyRule⟩ ha.2
    | setDrv d =>
      simp only [Lines.admits, Bool.and_eq_true, beq_iff_eq] at ha
      refine ih (l := { l with drv := d }) (s := { s with drvState := d })
        ⟨hf.1, hf.2, hf.3, hf.4, hf.5, rfl, hf.7, hf.8⟩
        ⟨hk.platform, hk.ddram, fun _ h => ?_, hk.busyRule⟩ ha.2
      have := ha.1.2
      simp only at h
      rw [h] at this
      simp [DrvState.rank] at this
    | clearRcnt =>
      simp only [Lines.admits, Bool.and_eq_true] at ha
      exact ih (s := { s with rcnt := 0 }) ⟨hf.1, hf.2, hf.3, hf.4, hf.5, hf.6, hf.7, hf.8⟩
        ⟨hk.1, hk.2, hk.3, hk.4⟩ ha.2
    | incRcnt =>
      simp only [Lines.admits, Bool.and_eq_true] at ha
      exact ih (s := { s with rcnt := s.rcnt + 1 })
        ⟨hf.1, hf.2, hf.3, hf.4, hf.5, hf.6, hf.7, hf.8⟩ ⟨hk.1, hk.2, hk.3, hk.4⟩ ha.2
    | setPcnt n =>
      simp only [Lines.admits, Bool.and_eq_true] at ha
      exact ih (s := { s with pcnt := n }) ⟨hf.1, hf.2, hf.3, hf.4, hf.5, hf.6, hf.7, hf.8⟩
        ⟨hk.1, hk.2, hk.3, hk.4⟩ ha.2
    | legacyTest =>
      have hl := admits_legacy ha
      simp only [Lines.admits, Bool.and_eq_true] at ha
      simp only [microStep]
      split
      · exact ih hf hk ha.2
      · exact setDir_keepsInv hf hk hl
    | pollAgain =>
      have hl := admits_repoll (.inl rfl) ha
      simp only [Lines.admits, Bool.and_eq_true] at ha
      simp only [microStep]
      split
      · exact setDir_keepsInv hf hk hl
      · rename_i hb
        refine ih (l := { l with last := .settled }) ⟨hf.1, hf.2, hf.3, hf.4, hf.5, hf.6, fun _ => ?_, by simp⟩ hk ha.2
        have hs : l.last = .sampled := by
          have := ha.1
          simp only [Lines.polled, Bool.and_eq_true, beq_iff_eq] at this
          exact this.2
        obtain ⟨c, v, r', htr, hv⟩ := hf.sampled hs
        have hbr := hk.busyRule
        simp only [htr, List.map_cons] at hbr ⊢
        simp only [busyRule, Bool.and_eq_true, Bool.not_eq_true']
        exact ⟨by rw [← hv]; simpa using hb, by simpa [busyRule] using hbr⟩
    | boundedTest =>
      have hl := admits_repoll (.inr rfl) ha
      simp only [Lines.admits, Bool.and_eq_true] at ha
      simp only [microStep]
      split
      · exact setDir_keepsInv (l := l) ⟨hf.1, hf.2, hf.3, hf.4, hf.5, hf.6, hf.7, hf.8⟩
          ⟨hk.1, hk.2, hk.3, hk.4⟩ hl
      · exact ih (s := { s with pcnt := s.pcnt - 1 })
          ⟨hf.1, hf.2, hf.3, hf.4, hf.5, hf.6, hf.7, hf.8⟩ ⟨hk.1, hk.2, hk.3, hk.4⟩ ha.2

/-! ### Many events -/

/-- A running state of the invariant fits its own lines. -/
theorem Inv.fits {s : State} (h : Inv s) {todo : List Micro} {fin : Finish}
    (hs : s.seq = .running todo fin) :
    Fits s.lines s ∧ Keeps s ∧ s.lines.admits todo = true := by
  have hq := h.seqFits
  simp only [State.seqFits, hs] at hq
  have hb := h.busyRule
  refine ⟨⟨rfl, rfl, rfl, rfl, rfl, rfl, fun hl => ?_, fun hl => ?_⟩,
    ⟨h.platform, h.ddram, h.driven, h.busyRule⟩, hq.1⟩
  · cases ht : s.trace with
    | nil => simp [State.lines, ht] at hl
    | cons a r =>
      obtain ⟨c, ev⟩ := a
      rw [trace_last ht] at hl
      rw [ht] at hb
      cases ev <;> simp_all [Event.kind, Sys2Proof.Machine.busyRule]
  · cases ht : s.trace with
    | nil => simp [State.lines, ht] at hl
    | cons a r =>
      obtain ⟨c, ev⟩ := a
      rw [trace_last ht] at hl
      cases ev with
      | eDownSample v => exact ⟨c, v, r, rfl, hq.2 c v (by simp [ht])⟩
      | _ => simp [Event.kind] at hl

/-- Any number of events keeps the invariant, and none stops. -/
theorem runEvents_inv (n : Nat) : ∀ {s : State}, Inv s → ∃ t, runEvents n s = .next t ∧ Inv t := by
  induction n with
  | zero => exact fun h => ⟨_, rfl, h⟩
  | succ n ih =>
    intro s h
    cases hs : s.seq with
    | idle => exact ⟨s, by simp [runEvents, hs], h⟩
    | decode => exact ⟨s, by simp [runEvents, hs], h⟩
    | running todo fin =>
      obtain ⟨hf, hk, ha⟩ := h.fits hs
      obtain ⟨t, ht, hi⟩ := microStep_inv fin hf hk ha
      obtain ⟨u, hu, hiu⟩ := ih hi
      exact ⟨u, by simp [runEvents, hs, ht, hu], hiu⟩

/-- A program whose steps fit a state of the invariant runs, and keeps it. -/
theorem runProgram_inv {todo : List Micro} {fin : Finish} {s : State} {l : Lines} (hf : Fits l s)
    (hk : Keeps s) (ha : l.admits todo = true) :
    ∃ t, runProgram todo fin s = .next t ∧ Inv t := by
  obtain ⟨t, ht, hi⟩ := microStep_inv fin hf hk ha
  obtain ⟨u, hu, hiu⟩ := runEvents_inv s.pace hi
  exact ⟨u, by rw [runProgram, resume, State.goOn_pace, runEvents_running, ht]; exact hu, hiu⟩

/-! ### The block's programs fit -/

/-- The lines of a block that is Ready. -/
def Lines.isReady (l : Lines) : Bool := l.quiet && l.drv == .ready

theorem admits_busRead {l : Lines} (h : l.isReady = true) : l.admits busRead = true := by
  simp_all [Lines.isReady, Lines.quiet, busRead, Lines.admits]

theorem admits_waitIdle {l : Lines} {r : List Micro} (h : l.isReady = true)
    (hr : Lines.admits ⟨true, .input, .instruction, .read, false, .ready, .settled⟩ r = true) :
    l.admits (waitIdle ++ r) = true := by
  simp_all [Lines.isReady, Lines.quiet, waitIdle, busRead, Lines.admits, Lines.polled]

theorem admits_busWrite (rs : RegSel) (v : Byte) :
    Lines.admits ⟨true, .input, .instruction, .read, false, .ready, .settled⟩ (busWrite rs v) =
      true := by
  cases rs <;> rfl

theorem admits_bounded {l : Lines} (n : Byte) (h : l.isReady = true) :
    l.admits (.setPcnt n :: busRead ++ [.boundedTest]) = true := by
  simp_all [Lines.isReady, Lines.quiet, busRead, Lines.admits, Lines.polled]

theorem admits_init {l : Lines} (hd : l.drv = .uninitialized) (hc : l.ctlOe = false)
    (he : l.e = false) : l.admits initProgram = true := by
  obtain ⟨_, dir, rs, rw, _, _, last⟩ := l
  simp only at hd hc he
  subst hd hc he
  cases dir <;> cases rs <;> cases rw <;> cases last <;> rfl

end Sys2Proof.Machine
end

