-- ==== Sys2Proof/Laws/Frame.lean ====
section
/-! SUPPORT. What no event of a running program touches (the command latch, the platform, the host's acts,
the pace), when a response is given, and what becomes of an unmodelled device. -/

namespace Sys2Proof.Machine

/-! ### Frames -/

/-- What one event, or any number of them, leaves as it was. -/
structure EventFrame (s t : State) : Prop where
  cmdOp : t.cmdOp = s.cmdOp
  cmdA : t.cmdA = s.cmdA
  cmdB : t.cmdB = s.cmdB
  platform : t.platform = s.platform
  host : t.host = s.host
  pace : t.pace = s.pace
  ctlOe : s.ctlOe = true → t.ctlOe = true
  answer : (t.seq = .idle ∧ t.rspValid = true ∧
      t.responses = ⟨t.rspCode, t.rspData⟩ :: s.responses) ∨
    ((∃ r f, t.seq = .running r f) ∧ t.rspValid = false ∧ t.responses = s.responses ∧
      t.rspCode = s.rspCode ∧ t.rspData = s.rspData)

theorem continueWith_inv {r : List Micro} {fin : Finish} {o : Host.Outcome State Fault Refusal}
    {t : State} (h : continueWith r fin o = .next t) : ∃ u, o = .next u ∧ t = u.goOn r fin := by
  cases o with
  | next u => simp only [continueWith, Host.Outcome.next.injEq] at h; exact ⟨u, rfl, h.symm⟩
  | _ => simp [continueWith] at h

theorem requireThat_inv {b : Bool} {s t : State} (h : requireThat b s = .next t) :
    b = true ∧ t = s := by
  cases b
  · simp [requireThat] at h
  · simp only [requireThat, if_true, Host.Outcome.next.injEq] at h; exact ⟨rfl, h.symm⟩

theorem strobeDown_inv {r : List Micro} {fin : Finish} {s t : State}
    (h : strobeDown r fin s = .next t) :
    ∃ m, t = { (((s.elapse s.due).dropE .eDown)).goOn r fin with lcd := m } ∧
      latchWrite ((((s.elapse s.due).dropE .eDown)).goOn r fin) =
        .next { (((s.elapse s.due).dropE .eDown)).goOn r fin with lcd := m } := by
  unfold strobeDown at h
  split at h
  · rename_i u hu
    obtain ⟨-, rfl⟩ := requireThat_inv hu
    obtain ⟨m, hm, -⟩ := latchWrite_next ((((s.elapse s.due).dropE .eDown)).goOn r fin)
    rw [hm] at h
    cases h
    exact ⟨m, rfl, hm⟩
  · cases h
  · cases h

theorem microStep_frame (fin : Finish) : ∀ {todo : List Micro} {s t : State},
    microStep todo fin s = .next t → EventFrame s t := by
  intro todo
  induction todo with
  | nil =>
    intro s t h
    simp only [microStep, Host.Outcome.next.injEq] at h
    subst h
    cases fin <;> exact ⟨rfl, rfl, rfl, rfl, rfl, rfl, id, .inl ⟨rfl, rfl, rfl⟩⟩
  | cons op r ih =>
    intro s t h
    have dir : ∀ (s : State) (d : Direction) (r : List Micro),
        continueWith r fin (setDir d s) = .next t → EventFrame s t := by
      intro s d r h
      obtain ⟨u, hu, rfl⟩ := continueWith_inv h
      obtain ⟨-, rfl⟩ := requireThat_inv hu
      exact ⟨rfl, rfl, rfl, rfl, rfl, rfl, id, .inr ⟨⟨_, _, rfl⟩, rfl, rfl, rfl, rfl⟩⟩
    cases op with
    | setDir d => exact dir s d r h
    | strobeDown =>
      obtain ⟨m, rfl, -⟩ := strobeDown_inv h
      exact ⟨by simp, by simp, by simp, by simp, by simp, by simp, by simp,
        .inr ⟨⟨r, fin, by simp⟩, by simp, by simp, by simp, by simp⟩⟩
    | delayEnd p =>
      have f := ih h
      exact ⟨f.1, f.2, f.3, f.4, f.5, f.6, f.7, f.8⟩
    | initEnd =>
      have f := ih h
      exact ⟨f.1, f.2, f.3, f.4, f.5, f.6, f.7, f.8⟩
    | setDrv d =>
      have f := ih h
      exact ⟨f.1, f.2, f.3, f.4, f.5, f.6, f.7, f.8⟩
    | clearRcnt =>
      have f := ih h
      exact ⟨f.1, f.2, f.3, f.4, f.5, f.6, f.7, f.8⟩
    | incRcnt =>
      have f := ih h
      exact ⟨f.1, f.2, f.3, f.4, f.5, f.6, f.7, f.8⟩
    | setPcnt n =>
      have f := ih h
      exact ⟨f.1, f.2, f.3, f.4, f.5, f.6, f.7, f.8⟩
    | legacyTest =>
      simp only [microStep] at h
      split at h
      · exact ih h
      · exact dir _ _ _ h
    | pollAgain =>
      simp only [microStep] at h
      split at h
      · exact dir _ _ _ h
      · exact ih h
    | boundedTest =>
      simp only [microStep] at h
      split at h
      · have f := dir _ _ _ h
        exact ⟨f.1, f.2, f.3, f.4, f.5, f.6, f.7, f.8⟩
      · have f := ih h
        exact ⟨f.1, f.2, f.3, f.4, f.5, f.6, f.7, f.8⟩
    | delay p =>
      simp only [microStep, startDelay, continueWith, Host.Outcome.next.injEq] at h
      subst h
      exact ⟨by simp, by simp, by simp, by simp, by simp, by simp, by simp,
        .inr ⟨⟨r, fin, by simp⟩, by simp, by simp, by simp, by simp⟩⟩
    | enableCtl =>
      obtain ⟨u, hu, rfl⟩ := continueWith_inv h
      obtain ⟨-, rfl⟩ := requireThat_inv hu
      exact ⟨rfl, rfl, rfl, rfl, rfl, rfl, fun _ => rfl,
        .inr ⟨⟨_, _, rfl⟩, rfl, rfl, rfl, rfl⟩⟩
    | sampleDown =>
      obtain ⟨u, hu, rfl⟩ := continueWith_inv h
      obtain ⟨-, rfl⟩ := requireThat_inv hu
      exact ⟨by simp [State.tickWith, State.dropStretch], by simp [State.tickWith, State.dropStretch],
        by simp [State.tickWith, State.dropStretch], by simp [State.tickWith, State.dropStretch],
        by simp [State.tickWith, State.dropStretch], by simp [State.tickWith, State.dropStretch],
        by simp [State.tickWith, State.dropStretch],
        .inr ⟨⟨r, fin, by simp⟩, by simp [State.tickWith, State.dropStretch],
          by simp [State.tickWith, State.dropStretch], by simp [State.tickWith, State.dropStretch],
          by simp [State.tickWith, State.dropStretch]⟩⟩
    | strobeUp =>
      obtain ⟨u, hu, rfl⟩ := continueWith_inv h
      obtain ⟨-, rfl⟩ := requireThat_inv hu
      exact ⟨by simp, by simp, by simp, by simp, by simp, by simp, by simp,
        .inr ⟨⟨r, fin, by simp⟩, by simp, by simp, by simp, by simp⟩⟩
    | _ =>
      obtain ⟨u, hu, rfl⟩ := continueWith_inv h
      obtain ⟨-, rfl⟩ := requireThat_inv hu
      exact ⟨by simp, by simp, by simp, by simp, by simp, by simp, by simp,
        .inr ⟨⟨r, fin, by simp⟩, by simp, by simp, by simp, by simp⟩⟩

/-- Any number of events that begin with one: at most one response is given, and it is the last. -/
theorem runEvents_frame (n : Nat) : ∀ {s t : State} {todo : List Micro} {fin : Finish},
    s.seq = .running todo fin → runEvents (n + 1) s = .next t → EventFrame s t := by
  induction n with
  | zero =>
    intro s t todo fin hs h
    simp only [runEvents, hs] at h
    split at h
    · rename_i u hu
      simp only [Host.Outcome.next.injEq] at h
      exact h ▸ microStep_frame fin hu
    · cases h
    · cases h
  | succ n ih =>
    intro s t todo fin hs h
    rw [runEvents] at h
    simp only [hs] at h
    split at h
    · rename_i u hu
      have f := microStep_frame fin hu
      rcases f.answer with ha | ha
      · rw [runEvents] at h
        simp only [ha.1, Host.Outcome.next.injEq] at h
        exact h ▸ f
      · obtain ⟨r, g, hr⟩ := ha.1
        have f' := ih hr h
        refine ⟨f'.1.trans f.1, f'.2.trans f.2, f'.3.trans f.3, f'.4.trans f.4, f'.5.trans f.5,
          f'.6.trans f.6, f'.7 ∘ f.7, ?_⟩
        rcases f'.answer with hb | hb
        · exact .inl ⟨hb.1, hb.2.1, by rw [hb.2.2, ha.2.2.1]⟩
        · exact .inr ⟨hb.1, hb.2.1, hb.2.2.1.trans ha.2.2.1, hb.2.2.2.1.trans ha.2.2.2.1,
            hb.2.2.2.2.trans ha.2.2.2.2⟩
    · cases h
    · cases h

/-- A program runs with the frame of its events. -/
theorem runProgram_frame {todo : List Micro} {fin : Finish} {s t : State}
    (h : runProgram todo fin s = .next t) : EventFrame s t := by
  have f := runEvents_frame s.pace (State.goOn_seq s todo fin) h
  exact ⟨f.1, f.2, f.3, f.4, f.5, f.6, f.7, f.8⟩

/-! ### An unmodelled device (R242) -/

theorem Lcd.write_keeps_unmodelled {p : Platform} {pos : Nat} {take : Lcd → Lcd} {l : Lcd}
    (h : l.device.unmodelled = true) : (l.write p pos take).device.unmodelled = true := by
  unfold Lcd.write
  split
  · exact Lcd.latch_lost (.inl h)
  · dsimp only
    split
    · exact h
    · exact Lcd.latch_lost (.inl h)

theorem Lcd.afterRead_keeps_unmodelled {rs : RegSel} {l : Lcd} (h : l.device.unmodelled = true) :
    (l.afterRead rs).device.unmodelled = true := by
  cases rs
  · simp [Lcd.afterRead, Lcd.afterStatus, h]
  · rfl

theorem latchInstruction_keeps_unmodelled {v : Byte} {s t : State}
    (h : s.lcd.device.unmodelled = true) (ht : latchInstruction v s = .next t) :
    t.lcd.device.unmodelled = true := by
  have key : ∀ f : Device → Option Device,
      Host.Outcome.next (s.deviceInstruction f) = (.next t : Host.Outcome State Fault Refusal) →
      t.lcd.device.unmodelled = true := by
    intro f e
    cases e
    exact Lcd.write_keeps_unmodelled h
  simp only [latchInstruction, lcdCase] at ht
  split at ht
  · exact key _ ht
  split at ht
  · exact key _ ht
  split at ht
  · simp only [execLcdFunctionSet] at ht
    split at ht
    · cases ht
      exact Lcd.write_keeps_unmodelled h
    · exact key _ ht
  repeat
    first
      | exact key _ ht
      | split at ht

theorem latchWrite_keeps_unmodelled {s t : State} (h : s.lcd.device.unmodelled = true)
    (ht : latchWrite s = .next t) : t.lcd.device.unmodelled = true := by
  unfold latchWrite at ht
  split at ht
  · split at ht
    · exact latchInstruction_keeps_unmodelled h ht
    · cases ht
      exact Lcd.write_keeps_unmodelled h
  · cases ht; exact h

end Sys2Proof.Machine
end

