-- ==== Sys2Proof/Laws/Reset.lean ====
section
/-! SUPPORT. The reset by instruction (R239) as the device sees it: each timed function set with its settle
delay moves the sequence on, and the fourth leaves R239's device. -/

namespace Sys2Proof.Machine

variable {p : Platform} {l : Lcd}

@[simp] theorem Lcd.drawBusy_seqPos (l : Lcd) : l.drawBusy.device.seqPos = l.device.seqPos := by
  obtain ⟨q, hq⟩ := l.drawBusy_device
  rw [hq]

theorem Lcd.drawBusy_tail (l : Lcd) : l.drawBusy.busyDraws = l.busyDraws.tail := by
  unfold Lcd.drawBusy
  cases h : l.busyDraws <;> simp [h]

theorem Lcd.latch_tail {pos : Nat} {take : Lcd → Lcd} {l : Lcd}
    (h : (take l).busyDraws = l.busyDraws) :
    (l.latch pos take).busyDraws = l.busyDraws.tail := by
  unfold Lcd.latch
  rw [Lcd.drawBusy_tail]
  split
  · rfl
  · rw [Lcd.atPos_busyDraws, h]

theorem Lcd.latch_seqPos {pos : Nat} {take : Lcd → Lcd} {l : Lcd} :
    (l.latch pos take).device.seqPos = pos := by
  unfold Lcd.latch
  rw [Lcd.drawBusy_seqPos]
  rfl

/-- The power-up delay begins the sequence. -/
theorem Lcd.afterDelay_powerup (hd : p.delaySufficient = true) :
    (l.afterDelay p .powerup).device.seqPos = 1 ∧
      (l.afterDelay p .powerup).device.busy = .finite 0 ∧
      (l.afterDelay p .powerup).busyDraws = l.busyDraws := by
  simp [Lcd.afterDelay, seqPosAfterDelay, hd]

/-- One of the first three function sets with its delay. -/
theorem Lcd.legacy_step (ht : p.strobeTimingOK = true) (hd : p.delaySufficient = true)
    (hp : l.device.seqPos = 1 ∨ l.device.seqPos = 3 ∨ l.device.seqPos = 5) :
    ((l.write p (l.device.seqPos + 1) id).afterDelay p .settle).device.seqPos =
        l.device.seqPos + 2 ∧
      ((l.write p (l.device.seqPos + 1) id).afterDelay p .settle).device.busy = .finite 0 ∧
      ((l.write p (l.device.seqPos + 1) id).afterDelay p .settle).busyDraws =
        l.busyDraws.tail := by
  rw [Lcd.write_eq_latch ht]
  have h1 : (l.latch (l.device.seqPos + 1) id).device.seqPos = l.device.seqPos + 1 :=
    Lcd.latch_seqPos
  have h2 : (l.latch (l.device.seqPos + 1) id).busyDraws = l.busyDraws.tail := Lcd.latch_tail rfl
  have h3 : seqPosAfterDelay .settle (l.device.seqPos + 1) = l.device.seqPos + 2 := by
    rcases hp with h | h | h <;> simp [h, seqPosAfterDelay]
  have h4 : l.device.seqPos + 2 ≠ 9 := by omega
  simp only [Lcd.afterDelay, h1, h3, h4, hd, if_true, if_false, Lcd.withBusy_busyDraws,
    Lcd.atPos_busyDraws, h2]
  exact ⟨rfl, rfl, trivial⟩

/-- The last function set with its delay leaves R239's device. -/
theorem Lcd.final_step (ht : p.strobeTimingOK = true) (hd : p.delaySufficient = true)
    (hp : l.device.seqPos = 7) :
    ∃ n, ((l.write p (l.device.seqPos + 1) id).afterDelay p .settle).device =
        Device.resetByInstruction n ∧
      ((l.write p (l.device.seqPos + 1) id).afterDelay p .settle).busyDraws =
        l.busyDraws.tail := by
  rw [Lcd.write_eq_latch ht]
  have h1 : (l.latch (l.device.seqPos + 1) id).device.seqPos = l.device.seqPos + 1 :=
    Lcd.latch_seqPos
  have h2 : (l.latch (l.device.seqPos + 1) id).busyDraws = l.busyDraws.tail := Lcd.latch_tail rfl
  have h3 : seqPosAfterDelay .settle (l.device.seqPos + 1) = 9 := by simp [hp, seqPosAfterDelay]
  simp only [Lcd.afterDelay, h1, h3, hd, if_true, h2]
  exact ⟨_, rfl, trivial⟩

/-- A timed function set at its place in the sequence only moves the sequence on. -/
theorem execLcdFunctionSet_reset {dl n f : BitVec 1} {x : BitVec 2} {s : State}
    (h : continuesReset s.lcd.device.seqPos dl n f x = true) :
    execLcdFunctionSet dl n f x s =
      .next { s with lcd := s.lcd.write s.platform (s.lcd.device.seqPos + 1) id } := by
  simp [execLcdFunctionSet, h]

end Sys2Proof.Machine
end

