-- ==== Sys2Proof/Laws/Commands.lean ====
section
/-! SUPPORT. The parts the commands are made of: polls and what they answer, a poll with its write, the
bounded polls of WAITB, the timed function sets of INIT, and the response at the end of a program. -/

namespace Sys2Proof.Machine

/-! ### Reading off a view -/

/-- A field of a view. -/
theorem view_field {α : Type} {t u : State} (h : t.view = u) (f : State → α) : f t.view = f u :=
  congrArg f h

/-- Two next states that differ from `s` in the device alone. -/
theorem lcd_of_next {s : State} {m l : Lcd}
    (h : (Host.Outcome.next { s with lcd := l } : Host.Outcome State Fault Refusal) =
      .next { s with lcd := m }) : m = l := by
  have h' := congrArg
    (fun o => match o with | Host.Outcome.next (u : State) => u.lcd | _ => s.lcd) h
  exact h'.symm

/-- One more step of a run. -/
theorem host_run_succ {M : Host.Core} (n : Nat) {s t : M.State} (h : M.step s = .next t) :
    M.run (n + 1) s = M.run n t := by
  rw [Host.Core.run, h]

theorem run_succ (n : Nat) {s t : State} (h : step s = .next t) :
    Sys2Proof.core.run (n + 1) s = Sys2Proof.core.run n t :=
  host_run_succ (M := Sys2Proof.core) n h

/-! ### What polls answer (R226) -/

theorem Lcd.answers_length (n : Nat) : ∀ l : Lcd, (l.answers n).length = n := by
  induction n with
  | zero => exact fun _ => rfl
  | succ n ih => intro l; rw [Lcd.answers, List.length_cons, ih]

theorem Lcd.answers_succ (n : Nat) :
    ∀ l : Lcd, l.answers (n + 1) = l.answers n ++ [(l.afterPolls n).statusAnswer] := by
  induction n with
  | zero => exact fun _ => rfl
  | succ n ih => intro l; rw [Lcd.answers, ih, Lcd.answers, Lcd.afterPolls]; rfl

/-- A status read counts a busy device down. -/
theorem Lcd.busyFor_afterStatus {k : Nat} {l : Lcd} (h : l.busyFor (k + 1)) :
    l.afterStatus.busyFor k := by
  have hd := Lcd.afterStatus_device h.1
  refine ⟨?_, ?_⟩ <;> rw [hd.1]
  · exact h.1
  · simp [h.2, polled]

/-- After its busy answers the device answers idle, with its address counter. -/
theorem Lcd.answer_after_busy (k : Nat) :
    ∀ {l : Lcd}, l.busyFor k → (l.afterPolls k).statusAnswer = statusByte false l.device.ac := by
  induction k with
  | zero => exact fun h => Lcd.statusAnswer_idle h.1 h.2
  | succ k ih =>
    intro l h
    rw [Lcd.afterPolls, ih (Lcd.busyFor_afterStatus h), (Lcd.afterStatus_device h.1).1]

/-- Before that it answers busy. -/
theorem Lcd.busy_answers (k : Nat) :
    ∀ {l : Lcd}, l.busyFor k → ∀ b ∈ l.answers k, busyFlag b = true := by
  induction k with
  | zero => intro l _ b hb; simp [Lcd.answers] at hb
  | succ k ih =>
    intro l h b hb
    rw [Lcd.answers, List.mem_cons] at hb
    rcases hb with rfl | hb
    · rw [Lcd.busyFlag_statusAnswer h.1, h.2]; simp
    · exact ih (Lcd.busyFor_afterStatus h) b hb

/-- The device answers busy at poll `k + 1` if it is busy for longer than `k` polls, or for ever. -/
theorem Lcd.still_busy (k : Nat) : ∀ {l : Lcd}, l.device.unmodelled = false →
    (l.device.busy = .forever ∨ ∃ b, l.device.busy = .finite b ∧ k < b) →
    busyFlag (l.afterPolls k).statusAnswer = true := by
  induction k with
  | zero =>
    intro l h hb
    rw [Lcd.afterPolls, Lcd.busyFlag_statusAnswer h]
    rcases hb with hb | ⟨b, hb, hl⟩ <;> rw [hb] <;> simp
    omega
  | succ k ih =>
    intro l h hb
    have hd := Lcd.afterStatus_device h
    rw [Lcd.afterPolls]
    refine ih (by rw [hd.1]; exact h) ?_
    rw [hd.1]
    rcases hb with hb | ⟨b, hb, hl⟩
    · exact .inl (by simp [hb, polled])
    · obtain ⟨c, rfl⟩ : ∃ c, b = c + 1 := ⟨b - 1, by omega⟩
      exact .inr ⟨c, by simp [hb, polled], by omega⟩

/-- The events of `WaitIdle`: the busy polls and the idle one. -/
theorem Lcd.pollTrace_busyFor {l : Lcd} {k : Nat} (h : l.busyFor k) :
    l.pollTrace (k + 1) =
      (l.answers k).flatMap pollEvents ++ pollEvents (statusByte false l.device.ac) := by
  rw [Lcd.pollTrace, Lcd.answers_succ, Lcd.answer_after_busy k h]
  simp

/-- An instruction on an idle 8-bit device with a listed draw. -/
theorem Lcd.instruction_next_draw {l : Lcd} {p : Platform} {f : Device → Option Device}
    {d : Device} {q : Busy} {r : List Busy} (ht : p.strobeTimingOK = true)
    (hm : l.device.unmodelled = false) (hb : l.device.busy = .finite 0)
    (h8 : l.device.if8 = true) (hf : f l.device = some d) (hq : l.busyDraws = q :: r) :
    (l.instruction f p).device = { d with seqPos := 0, busy := q } ∧
      (l.instruction f p).busyDraws = r := by
  rw [Lcd.instruction, Lcd.write_eq_latch ht]
  simp only [Lcd.latch, hm, hb]
  simp [h8, Lcd.apply, hf, Lcd.drawBusy, hq]

/-! ### What a running program keeps -/

/-- The registers no part of a program touches but INIT's own: everything a command's statement frames. -/
structure SameBlock (s t : State) : Prop where
  ctlOe : t.ctlOe = true
  pcnt : t.pcnt = s.pcnt
  cmdOp : t.cmdOp = s.cmdOp
  cmdA : t.cmdA = s.cmdA
  cmdB : t.cmdB = s.cmdB
  platform : t.platform = s.platform
  host : t.host = s.host
  pace : t.pace = s.pace
  responses : t.responses = s.responses
  low : t.e = false

theorem SameBlock.trans {s t u : State} (h : SameBlock s t) (h' : SameBlock t u) :
    SameBlock s u :=
  ⟨h'.1, h'.2.trans h.2, h'.3.trans h.3, h'.4.trans h.4, h'.5.trans h.5, h'.6.trans h.6,
    h'.7.trans h.7, h'.8.trans h.8, h'.9.trans h.9, h'.10⟩

/-! ### Writes of instruction bytes -/

/-- `BusWrite(Instruction, v)`: the device does what the meaning of the byte's instruction says. -/
theorem instructionWrite_runs {s : State} (v : Byte) (he : s.e = false) (hc : s.ctlOe = true)
    (r : List Micro) (fin : Finish) :
    ∃ m, exec (decodeLcd v) s = .next { s with lcd := m } ∧
      ∃ t : State, Runs 5 (s.goOn (busWrite .instruction v ++ r) fin) (t.goOn r fin) ∧
        t.view =
          { s.view with
            dir := .output, rs := .instruction, rw := .write, dbOut := v, e := false,
            rspValid := false, lcd := m,
            trace := stamped (writeEvents .instruction v) ++ s.view.trace } := by
  obtain ⟨G, hG, hE⟩ := latchWrite_instruction v
  exact ⟨G s.platform s.lcd, hE s, busWrite_runs he hc hG r fin⟩

/-- `WriteInstruction(v)` (R162) on a device busy for `k` more reads. -/
theorem writeInstruction_runs {s : State} {k : Nat} (v : Byte) (he : s.e = false)
    (hc : s.ctlOe = true) (ht : s.platform.strobeTimingOK = true) (hb : s.lcd.busyFor k)
    (r : List Micro) (fin : Finish) :
    ∃ m, exec (decodeLcd v) { s with lcd := s.lcd.afterPolls (k + 1) } =
        .next { s with lcd := m } ∧
      ∃ t : State, Runs (4 * (k + 1) + 5) (s.goOn (writeInstruction v ++ r) fin) (t.goOn r fin) ∧
        t.lcd = m ∧ t.drvState = s.drvState ∧ t.rcnt = s.rcnt ∧ SameBlock s t ∧
        BusAfterWrite t .instruction v ∧ t.dbIn = statusByte false s.lcd.device.ac ∧
        t.view.trace =
          stamped (s.lcd.pollTrace (k + 1) ++ writeEvents .instruction v) ++ s.view.trace := by
  obtain ⟨t1, r1, v1⟩ := waitIdle_runs he hc ht hb (busWrite .instruction v ++ r) fin
  have c1 : t1.ctlOe = true := (view_field v1 State.ctlOe).trans hc
  obtain ⟨m, hm, t2, r2, v2⟩ :=
    instructionWrite_runs v (s := t1) (view_field v1 State.e) c1 r fin
  obtain ⟨G, -, hE⟩ := latchWrite_instruction v
  have l1 : t1.lcd = s.lcd.afterPolls (k + 1) := view_field v1 State.lcd
  have p1 : t1.platform = s.platform := view_field v1 State.platform
  have hm2 : m = G s.platform (s.lcd.afterPolls (k + 1)) := by
    rw [hE] at hm
    rw [← l1, ← p1]
    exact lcd_of_next hm
  refine ⟨m, by rw [hE, hm2], t2, ?_, view_field v2 State.lcd,
    (view_field v2 State.drvState).trans (view_field v1 State.drvState),
    (view_field v2 State.rcnt).trans (view_field v1 State.rcnt), ?_, ?_,
    (view_field v2 State.dbIn).trans (view_field v1 State.dbIn), ?_⟩
  · have := r1.trans r2
    simpa [writeInstruction] using this
  · exact ⟨(view_field v2 State.ctlOe).trans c1,
      (view_field v2 State.pcnt).trans (view_field v1 State.pcnt),
      (view_field v2 State.cmdOp).trans (view_field v1 State.cmdOp),
      (view_field v2 State.cmdA).trans (view_field v1 State.cmdA),
      (view_field v2 State.cmdB).trans (view_field v1 State.cmdB),
      (view_field v2 State.platform).trans (view_field v1 State.platform),
      (view_field v2 State.host).trans (view_field v1 State.host),
      (view_field v2 State.pace).trans (view_field v1 State.pace),
      (view_field v2 State.responses).trans (view_field v1 State.responses),
      view_field v2 State.e⟩
  · exact ⟨view_field v2 State.dir, view_field v2 State.rs, view_field v2 State.rw,
      view_field v2 State.e, view_field v2 State.dbOut⟩
  · rw [view_field v2 State.trace]
    show _ ++ t1.view.trace = _
    rw [view_field v1 State.trace]
    simp [stamped]

/-- A poll, a write phase and the response: the program of CMD, PUTC and GOTO (R164, R165, R192). -/
theorem waitThenWrite {s : State} {k : Nat} (hs : Operable s) (hb : s.lcd.busyFor k) (rs : RegSel)
    (v : Byte) {G : Platform → Lcd → Lcd}
    (hG : ∀ u : State, u.ctlOe = true → u.rs = rs → u.dbOut = v →
      latchWrite u = .next { u with lcd := G u.platform u.lcd })
    (c : RspCode) (d : Byte) (hp : 4 * (k + 1) + 5 ≤ s.pace) :
    ∃ t : State, runProgram (waitIdle ++ busWrite rs v) (.done c d) s = .next t ∧
      t.seq = .idle ∧
      t.view =
        { s.view with
          dir := .output, rs := rs, rw := .write, e := false, dbOut := v,
          dbIn := statusByte false s.lcd.device.ac,
          lcd := G s.platform (s.lcd.afterPolls (k + 1)),
          rspValid := true, rspCode := c, rspData := d, responses := ⟨c, d⟩ :: s.responses,
          trace :=
            stamped (writeEvents rs v) ++
              (stamped (s.lcd.pollTrace (k + 1)) ++ s.view.trace) } := by
  obtain ⟨t1, r1, v1⟩ :=
    waitIdle_runs hs.low hs.driven hs.timing hb (busWrite rs v ++ []) (.done c d)
  have c1 : t1.ctlOe = true := (view_field v1 State.ctlOe).trans hs.driven
  have p1 : t1.platform = s.platform := view_field v1 State.platform
  have l1 : t1.lcd = s.lcd.afterPolls (k + 1) := view_field v1 State.lcd
  have q1 : t1.responses = s.responses := view_field v1 State.responses
  have e1 : t1.e = false := view_field v1 State.e
  obtain ⟨t2, r2, v2⟩ := busWrite_runs e1 c1 hG [] (.done c d)
  have q2 : t2.responses = t1.responses := view_field v2 State.responses
  obtain ⟨c', d', v3, h3, -, -⟩ := finish_view (s := t2) (.done c d)
  obtain ⟨rfl, rfl⟩ := h3 c d rfl
  refine ⟨t2.finish (.done c' d'), runProgram_of_runs (by simpa using r1.trans r2) hp,
    finish_seq _, ?_⟩
  rw [v3, v2, v1, p1, l1, q2, q1]

/-! ### WAITB's polls (R168) -/

/-- `k + 1` polls, of which the first `k` find the device busy with the bound not reached. -/
theorem boundedPolls_runs {k : Nat} (fin : Finish) : ∀ {s : State},
    s.e = false → s.ctlOe = true → s.platform.strobeTimingOK = true →
    ((∃ b, s.lcd.busyFor b ∧ k ≤ b) ∨
      (s.lcd.device.unmodelled = false ∧ s.lcd.device.busy = .forever)) →
    k < s.pcnt.toNat →
    ∃ t : State, Runs (4 * (k + 1)) (s.goOn (busRead ++ [.boundedTest]) fin)
        (t.goOn [.boundedTest] fin) ∧
      t.view =
        { s.view with
          dir := .input, rs := .instruction, rw := .read, e := false,
          dbIn := (s.lcd.afterPolls k).statusAnswer, lcd := s.lcd.afterPolls (k + 1),
          rspValid := false, pcnt := s.pcnt - BitVec.ofNat 8 k,
          trace := stamped (s.lcd.pollTrace (k + 1)) ++ s.view.trace } := by
  induction k with
  | zero =>
    intro s he hc ht _ _
    obtain ⟨t, ht1, hv⟩ := busRead_runs he hc ht [.boundedTest] fin
    exact ⟨t, ht1, by rw [hv]; simp [Lcd.afterPolls, Lcd.pollTrace, Lcd.answers]; rfl⟩
  | succ k ih =>
    intro s he hc ht hb hn
    obtain ⟨t, ht1, hv⟩ := busRead_runs he hc ht [.boundedTest] fin
    have hm : s.lcd.device.unmodelled = false := by
      rcases hb with ⟨b, hb, _⟩ | hb
      · exact hb.1
      · exact hb.1
    have hbusy : busyFlag s.lcd.statusAnswer = true := by
      refine Lcd.still_busy 0 hm ?_
      rcases hb with ⟨b, hb, hle⟩ | hb
      · exact .inr ⟨b, hb.2, by omega⟩
      · exact .inl hb.2
    have hdev := Lcd.afterStatus_device hm
    have tl : t.lcd = s.lcd.afterStatus := view_field hv State.lcd
    have tp : t.platform = s.platform := view_field hv State.platform
    have td : t.dbIn = s.lcd.statusAnswer := view_field hv State.dbIn
    have tn : t.pcnt = s.pcnt := view_field hv State.pcnt
    have hb' : (∃ b, t.lcd.busyFor b ∧ k ≤ b) ∨
        (t.lcd.device.unmodelled = false ∧ t.lcd.device.busy = .forever) := by
      rw [tl]
      rcases hb with ⟨b, hb, hle⟩ | hb
      · obtain ⟨c, rfl⟩ : ∃ c, b = c + 1 := ⟨b - 1, by omega⟩
        exact .inl ⟨c, Lcd.busyFor_afterStatus hb, by omega⟩
      · refine .inr ⟨?_, ?_⟩ <;> rw [hdev.1]
        · exact hm
        · simp [hb.2, polled]
    obtain ⟨u, hu, hvu⟩ := ih (s := { t with pcnt := t.pcnt - 1 }) (view_field hv State.e)
      ((view_field hv State.ctlOe).trans hc) (by rw [← tp] at ht; exact ht) hb' (by
        simp only [tn]
        have : (s.pcnt - 1).toNat = s.pcnt.toNat - 1 := by bv_omega
        omega)
    refine ⟨u, ?_, ?_⟩
    · have hfold : Runs 0 (t.goOn [.boundedTest] fin)
          (({ t with pcnt := t.pcnt - 1 } : State).goOn (busRead ++ [.boundedTest]) fin) := by
        apply Runs.fold
        have : (s.pcnt - 1 != 0) = true := by
          have : s.pcnt - 1 ≠ 0 := by bv_omega
          simpa using this
        simp only [microStep, td, hbusy, tn, this]
        rfl
      have := (ht1.trans hfold).trans hu
      have hn : 4 + 0 + 4 * (k + 1) = 4 * (k + 1 + 1) := by omega
      rwa [hn] at this
    · have hx : State.view { t with pcnt := t.pcnt - 1 } =
          { t.view with pcnt := t.pcnt - 1 } := rfl
      simp only at hvu
      rw [hvu, hx, hv, tl, tn]
      have : s.pcnt - 1#8 - BitVec.ofNat 8 k = s.pcnt - BitVec.ofNat 8 (k + 1) := by
        apply BitVec.eq_of_toNat_eq
        simp [BitVec.toNat_sub]
        omega
      simp [Lcd.afterPolls, Lcd.pollTrace, Lcd.answers, stamped, this]

/-! ### INIT's timed part (R132 to R135, R239) -/

theorem decodeLcd_fsLegacy : decodeLcd Config.fsLegacy = .lcdFunctionSet 1 0 0 0 := by decide
theorem decodeLcd_fsFinal : decodeLcd Config.fsFinal = .lcdFunctionSet 1 1 0 0 := by decide

/-- A write phase with its settle delay. -/
theorem timedWrite_runs {s : State} (v : Byte) (he : s.e = false) (hc : s.ctlOe = true)
    (r : List Micro) (fin : Finish) :
    ∃ m, exec (decodeLcd v) s = .next { s with lcd := m } ∧
      ∃ t : State,
        Runs 6 (s.goOn (busWrite .instruction v ++ (delayFor .settle ++ r)) fin)
          (t.goOn r fin) ∧
        t.view =
          { s.view with
            dir := .output, rs := .instruction, rw := .write, dbOut := v, e := false,
            rspValid := false, lcd := m.afterDelay s.platform .settle,
            trace :=
              stamped (writeEvents .instruction v ++ [.wait .settle]) ++ s.view.trace } := by
  obtain ⟨m, hm, t1, r1, v1⟩ := instructionWrite_runs v he hc (delayFor .settle ++ r) fin
  refine ⟨m, hm, ?_⟩
  obtain ⟨t2, h2, v2⟩ := startDelay_next (s := t1) .settle
  have r2 : Runs 1 (t1.goOn (delayFor .settle ++ r) fin)
      (t2.goOn (.delayEnd .settle :: r) fin) := Runs.event (continueWith_next h2 _ _)
  have r3 : Runs 0 (t2.goOn (.delayEnd .settle :: r) fin)
      (({ t2 with lcd := t2.lcd.afterDelay t2.platform .settle } : State).goOn r fin) :=
    Runs.fold rfl
  have hx : State.view { t2 with lcd := t2.lcd.afterDelay t2.platform .settle } =
      { t2.view with lcd := t2.lcd.afterDelay t2.platform .settle } := rfl
  have l2 : t2.lcd = m := (view_field v2 State.lcd).trans (view_field v1 State.lcd)
  have p2 : t2.platform = s.platform :=
    (view_field v2 State.platform).trans (view_field v1 State.platform)
  refine ⟨_, (r1.trans r2).trans r3, ?_⟩
  rw [hx, v2, v1, l2, p2]
  simp [stamped, State.view]

/-- One turn of the loop over the legacy function sets (R134). -/
theorem legacy_runs {s : State} (r : List Micro) (fin : Finish) (he : s.e = false)
    (hc : s.ctlOe = true) (ht : s.platform.strobeTimingOK = true)
    (hd : s.platform.delaySufficient = true)
    (hp : s.lcd.device.seqPos = 1 ∨ s.lcd.device.seqPos = 3 ∨ s.lcd.device.seqPos = 5)
    (hr : s.rcnt ≠ 3) :
    ∃ t : State, Runs 6 (s.goOn (.legacyTest :: r) fin) (t.goOn (.legacyTest :: r) fin) ∧
      t.lcd.device.seqPos = s.lcd.device.seqPos + 2 ∧
      t.lcd.busyDraws = s.lcd.busyDraws.tail ∧ t.rcnt = s.rcnt + 1 ∧ SameBlock s t ∧
      t.view.trace =
        stamped (writeEvents .instruction Config.fsLegacy ++ [.wait .settle]) ++
          s.view.trace := by
  obtain ⟨m, hm, t, r1, v1⟩ :=
    timedWrite_runs Config.fsLegacy he hc (.incRcnt :: .legacyTest :: r) fin
  have hcr : continuesReset s.lcd.device.seqPos 1 0 0 0 = true := by
    rcases hp with h | h | h <;> rw [h] <;> rfl
  rw [decodeLcd_fsLegacy, exec, execLcdFunctionSet_reset hcr] at hm
  have hm' := lcd_of_next hm
  obtain ⟨h1, h2, h3⟩ := Lcd.legacy_step ht hd hp
  rw [← hm'] at h1 h2 h3
  have r0 : Runs 0 (s.goOn (.legacyTest :: r) fin)
      (s.goOn (busWrite .instruction Config.fsLegacy ++
        (delayFor .settle ++ (.incRcnt :: .legacyTest :: r))) fin) := by
    apply Runs.fold
    have : ¬ s.rcnt = Config.legacyFsCount := hr
    simp only [microStep, if_neg this]
    rfl
  have r2 : Runs 0 (t.goOn (.incRcnt :: .legacyTest :: r) fin)
      (({ t with rcnt := t.rcnt + 1 } : State).goOn (.legacyTest :: r) fin) := Runs.fold rfl
  have tl : t.lcd = m.afterDelay s.platform .settle := view_field v1 State.lcd
  refine ⟨_, (r0.trans r1).trans r2, by rw [← h1]; exact congrArg (·.device.seqPos) tl,
    by rw [← h3]; exact congrArg (·.busyDraws) tl,
    congrArg (· + 1) (view_field v1 State.rcnt), ?_, view_field v1 State.trace⟩
  exact ⟨(view_field v1 State.ctlOe).trans hc, view_field v1 State.pcnt,
    view_field v1 State.cmdOp, view_field v1 State.cmdA, view_field v1 State.cmdB,
    view_field v1 State.platform, view_field v1 State.host, view_field v1 State.pace,
    view_field v1 State.responses, view_field v1 State.e⟩

/-- The outputs go first, then the power-up delay (R132, R133). -/
theorem powerup_runs {s : State} (r : List Micro) (fin : Finish) (hc : s.ctlOe = false)
    (hd : s.platform.delaySufficient = true) :
    ∃ t : State, Runs 3 (s.goOn (resettingPart ++ r) fin) (t.goOn (.legacyTest :: r) fin) ∧
      t.lcd.device.seqPos = 1 ∧ t.lcd.busyDraws = s.lcd.busyDraws ∧ t.rcnt = 0 ∧
      SameBlock s t ∧
      t.view.trace = stamped [.enCtl, .dir .output, .wait .powerup] ++ s.view.trace := by
  obtain ⟨s1, h1, v1⟩ := enableCtl_next (s := { s with drvState := .resetting }) hc
  obtain ⟨s2, h2, v2⟩ := setDir_next (s := s1) (view_field v1 State.e) .output
  obtain ⟨s3, h3, v3⟩ := startDelay_next (s := s2) .powerup
  rw [v2, v1] at v3
  have l3 : s3.lcd = s.lcd := view_field v3 State.lcd
  have p3 : s3.platform = s.platform := view_field v3 State.platform
  obtain ⟨q1, q2, q3⟩ := Lcd.afterDelay_powerup (p := s.platform) (l := s.lcd) hd
  have a0 : Runs 0 (s.goOn (resettingPart ++ r) fin)
      (({ s with drvState := .resetting } : State).goOn
        (.enableCtl :: .setDir .output ::
          (delayFor .powerup ++ (.clearRcnt :: .legacyTest :: r))) fin) := by
    apply Runs.fold
    simp [resettingPart, microStep, delayFor]
  have a1 := a0.trans (Runs.event (continueWith_next h1 _ _))
  have a2 := a1.trans (Runs.event (continueWith_next h2 _ _))
  have a3 := a2.trans (Runs.event (continueWith_next h3
    (.delayEnd .powerup :: .clearRcnt :: .legacyTest :: r) fin))
  have a4 : Runs 0 (s3.goOn (.delayEnd .powerup :: .clearRcnt :: .legacyTest :: r) fin)
      (({ s3 with lcd := s3.lcd.afterDelay s3.platform .powerup, rcnt := 0 } : State).goOn
        (.legacyTest :: r) fin) := Runs.fold rfl
  refine ⟨_, a3.trans a4, ?_, ?_, rfl, ?_, view_field v3 State.trace⟩
  · simp only [l3, p3]; exact q1
  · simp only [l3, p3]; exact q3
  · exact ⟨view_field v3 State.ctlOe, view_field v3 State.pcnt, view_field v3 State.cmdOp,
      view_field v3 State.cmdA, view_field v3 State.cmdB, view_field v3 State.platform,
      view_field v3 State.host, view_field v3 State.pace, view_field v3 State.responses,
      view_field v3 State.e⟩

/-- The whole timed part, from any device: 27 events, R239's device, four draws used up. -/
theorem timedPart_runs {s : State} (r : List Micro) (fin : Finish) (hc : s.ctlOe = false)
    (ht : s.platform.strobeTimingOK = true) (hd : s.platform.delaySufficient = true) :
    ∃ (n : Nat) (t : State),
      Runs 27 (s.goOn (resettingPart ++ (functionSetPart ++ r)) fin) (t.goOn r fin) ∧
      t.lcd.device = Device.resetByInstruction n ∧
      t.lcd.busyDraws = s.lcd.busyDraws.tail.tail.tail.tail ∧ t.rcnt = 3 ∧
      t.drvState = .functionSet ∧ SameBlock s t ∧
      t.view.trace =
        stamped ([.enCtl, .dir .output, .wait .powerup] ++
          (List.replicate 3 (writeEvents .instruction 0x30 ++ [.wait .settle])).flatten ++
          writeEvents .instruction 0x38 ++ [.wait .settle]) ++ s.view.trace := by
  obtain ⟨s4, R4, P4, b4, c4, z4, t4⟩ := powerup_runs (functionSetPart ++ r) fin hc hd
  have p4 := z4.platform
  obtain ⟨s5, R5, P5, b5, c5, z5, t5⟩ := legacy_runs (s := s4) (functionSetPart ++ r) fin z4.low
    z4.ctlOe (by rw [p4]; exact ht) (by rw [p4]; exact hd) (.inl P4) (by rw [c4]; decide)
  have p5 := z5.platform.trans p4
  obtain ⟨s6, R6, P6, b6, c6, z6, t6⟩ := legacy_runs (s := s5) (functionSetPart ++ r) fin z5.low
    z5.ctlOe (by rw [p5]; exact ht) (by rw [p5]; exact hd) (.inr (.inl (by rw [P5, P4])))
    (by rw [c5, c4]; decide)
  have p6 := z6.platform.trans p5
  obtain ⟨s7, R7, P7, b7, c7, z7, t7⟩ := legacy_runs (s := s6) (functionSetPart ++ r) fin z6.low
    z6.ctlOe (by rw [p6]; exact ht) (by rw [p6]; exact hd) (.inr (.inr (by rw [P6, P5, P4])))
    (by rw [c6, c5, c4]; decide)
  have p7 := z7.platform.trans p6
  have hr7 : s7.rcnt = 3 := by rw [c7, c6, c5, c4]; rfl
  have hq7 : s7.lcd.device.seqPos = 7 := by rw [P7, P6, P5, P4]
  have R8 : Runs 0 (s7.goOn (.legacyTest :: (functionSetPart ++ r)) fin)
      (({ s7 with drvState := .functionSet } : State).goOn
        (busWrite .instruction Config.fsFinal ++ (delayFor .settle ++ r)) fin) := by
    apply Runs.fold
    have hc3 : s7.rcnt = Config.legacyFsCount := hr7
    simp [functionSetPart, microStep, if_pos hc3]
  obtain ⟨m9, hm9, s9, R9, v9⟩ := timedWrite_runs (s := { s7 with drvState := .functionSet })
    Config.fsFinal z7.low z7.ctlOe r fin
  have hcr : continuesReset s7.lcd.device.seqPos 1 1 0 0 = true := by rw [hq7]; rfl
  rw [decodeLcd_fsFinal, exec, execLcdFunctionSet_reset
    (s := { s7 with drvState := .functionSet }) hcr] at hm9
  have hm' := lcd_of_next hm9
  obtain ⟨n, d9, b9⟩ := Lcd.final_step (p := s7.platform) (l := s7.lcd) (by rw [p7]; exact ht)
    (by rw [p7]; exact hd) hq7
  have l9 : s9.lcd = m9.afterDelay s7.platform .settle := view_field v9 State.lcd
  simp only at hm'
  rw [hm'] at l9
  refine ⟨n, s9, ((((R4.trans R5).trans R6).trans R7).trans R8).trans R9, ?_, ?_,
    (view_field v9 State.rcnt).trans hr7, view_field v9 State.drvState, ?_, ?_⟩
  · rw [l9]; exact d9
  · rw [l9, b9, b7, b6, b5, b4]
  · have z9 : SameBlock s7 s9 := ⟨(view_field v9 State.ctlOe).trans z7.ctlOe,
      view_field v9 State.pcnt, view_field v9 State.cmdOp, view_field v9 State.cmdA,
      view_field v9 State.cmdB, view_field v9 State.platform, view_field v9 State.host,
      view_field v9 State.pace, view_field v9 State.responses, view_field v9 State.e⟩
    exact z4.trans (z5.trans (z6.trans (z7.trans z9)))
  · rw [view_field v9 State.trace]
    show _ ++ s7.view.trace = _
    rw [t7, t6, t5, t4]
    simp [stamped, List.replicate, Config.fsLegacy, Config.fsFinal]

end Sys2Proof.Machine
end

