-- ==== Sys2Proof/Laws/Spacing.lean ====
section
/-! SUPPORT. Every event of a running program keeps its least distance from the events before it (R105,
R106, R110, R111). -/

namespace Sys2Proof.Machine

/-- `Spaced`, with the control lines' release in the place of Uninitialized: what every event keeps. -/
structure KeepsSpacing (s : State) : Prop where
  trace : spaced s.platform s.trace
  ctl : s.lastCtl = lastCtlIn s.trace
  fall : s.lastFall = lastFallIn s.trace
  past : ∀ t ev, s.trace.head? = some (t, ev) → t ≤ s.cycle
  next : ∀ t ev, s.trace.head? = some (t, ev) →
    s.ctlOe = false ∨ t + gapAfter s.platform ev ≤ s.cycle + s.dataDue

/-- Every event is at least one edge after the one before it. -/
theorem State.one_le_dataDue (s : State) : 1 ≤ s.dataDue := by
  unfold State.dataDue State.due; split
  · exact le_max_left _ _
  · exact le_rfl

/-- A `Data` waits no longer than another event. -/
theorem State.dataDue_le_due (s : State) : s.dataDue ≤ s.due := by
  unfold State.dataDue; split
  · exact le_rfl
  · exact le_max_left _ _

/-- An event at least its bound later. -/
theorem KeepsSpacing.event {s t : State} {g : Nat} {ev : Event} (h : KeepsSpacing s)
    (hg : s.dataDue ≤ g) (hp : t.platform = s.platform)
    (htr : t.trace = (s.cycle + g, ev) :: s.trace) (hc : t.cycle = s.cycle + g)
    (hctl : t.lastCtl = lastCtlIn t.trace) (hfall : t.lastFall = lastFallIn t.trace)
    (hen : s.ctlOe = true ∨ ev = .enCtl)
    (hup : ev = .eUp → s.riseDue ≤ g) (hdue : gapAfter s.platform ev ≤ t.dataDue) : KeepsSpacing t := by
  have h1 := s.one_le_dataDue
  refine ⟨?_, hctl, hfall, ?_, ?_⟩
  · rw [hp, htr]
    refine ⟨⟨fun u old hh => ⟨?_, fun hne => ?_⟩, fun he => ⟨fun c hcc => ?_, fun f hff => ?_⟩⟩,
      h.trace⟩
    · have := h.past u old hh; omega
    · rcases hen with hen | hen
      · rcases h.next u old hh with h' | h'
        · simp [hen] at h'
        · omega
      · exact absurd hen hne
    · have := hup he
      rw [← h.ctl] at hcc
      simp only [State.riseDue, State.setupLeft, hcc, Option.elim_some] at this
      omega
    · have := hup he
      rw [← h.fall] at hff
      simp only [State.riseDue, State.setupLeft, hff, Option.elim_some] at this
      omega
  · intro u e hh
    simp only [htr, List.head?_cons, Option.some.injEq, Prod.mk.injEq] at hh
    omega
  · intro u e hh
    simp only [htr, List.head?_cons, Option.some.injEq, Prod.mk.injEq] at hh
    obtain ⟨rfl, rfl⟩ := hh
    right; rw [hp, hc]; omega

/-- Edges without an event. -/
theorem KeepsSpacing.later {s t : State} (h : KeepsSpacing s) (hp : t.platform = s.platform)
    (htr : t.trace = s.trace) (hc : t.lastCtl = s.lastCtl) (hf : t.lastFall = s.lastFall)
    (hcy : s.cycle ≤ t.cycle)
    (hn : t.ctlOe = false ∨ (t.ctlOe = s.ctlOe ∧ s.cycle + s.dataDue ≤ t.cycle + t.dataDue)) :
    KeepsSpacing t := by
  refine ⟨by rw [hp, htr]; exact h.trace, by rw [hc, htr]; exact h.ctl,
    by rw [hf, htr]; exact h.fall, ?_, ?_⟩
  · intro u e hh; rw [htr] at hh; exact (h.past u e hh).trans hcy
  · intro u e hh; rw [htr] at hh
    rcases hn with hn | ⟨h1, h2⟩
    · exact .inl hn
    · rw [h1, hp]; exact (h.next u e hh).imp id (·.trans h2)

/-- Every event of a program that fits the lines keeps its distance. -/
theorem microStep_spaced (fin : Finish) : ∀ {todo : List Micro} {l : Lines} {s t : State},
    l.ctlOe = s.ctlOe → l.admits todo = true → KeepsSpacing s →
    microStep todo fin s = .next t → KeepsSpacing t := by
  intro todo
  induction todo with
  | nil =>
    intro l s t hl ha hsp h
    simp only [microStep, Host.Outcome.next.injEq] at h
    subst h
    have hc : (s.finish fin).cycle = s.cycle + (s.due + s.stretch) := by cases fin <;> rfl
    have := s.dataDue_le_due
    refine KeepsSpacing.later hsp ?_ ?_ ?_ ?_ (by omega) (.inr ⟨?_, by omega⟩) <;> cases fin <;> rfl
  | cons op r ih =>
    intro l s t hl ha hsp h
    have dir : ∀ (s : State) (d : Direction) (r : List Micro), s.ctlOe = true → KeepsSpacing s →
        continueWith r fin (setDir d s) = .next t → KeepsSpacing t := by
      intro s d r hc hsp h
      obtain ⟨u, hu, rfl⟩ := continueWith_inv h
      obtain ⟨-, rfl⟩ := requireThat_inv hu
      refine KeepsSpacing.event (ev := .dir d) hsp (g := s.due + s.stretch)
        (by have := s.dataDue_le_due; omega) ?_ ?_ ?_ ?_ ?_ (.inl hc) (by simp) ?_ <;>
        simp [lastCtlIn, lastFallIn, hsp.ctl, hsp.fall, gapAfter, State.dataDue, State.due]
    cases op with
    | setDir d => exact dir s d r (by cases d <;> simp_all [Lines.admits, Lines.quiet]) hsp h
    | setCtl rs rw =>
      have hc : s.ctlOe = true := by simp_all [Lines.admits, Lines.quiet]
      obtain ⟨u, hu, rfl⟩ := continueWith_inv h
      obtain ⟨-, rfl⟩ := requireThat_inv hu
      refine KeepsSpacing.event (ev := .ctl rs rw) hsp (g := s.due + s.stretch)
        (by have := s.dataDue_le_due; omega) ?_ ?_ ?_ ?_ ?_ (.inl hc) (by simp) ?_ <;>
        simp [lastCtlIn, lastFallIn, hsp.fall, gapAfter, State.dataDue, State.due]
    | driveDB v =>
      have hc : s.ctlOe = true := by simp_all [Lines.admits, Lines.quiet]
      obtain ⟨u, hu, rfl⟩ := continueWith_inv h
      obtain ⟨-, rfl⟩ := requireThat_inv hu
      refine KeepsSpacing.event (ev := .data v) hsp (g := s.dataDue + s.stretch)
        (by omega) ?_ ?_ ?_ ?_ ?_ (.inl hc) (by simp) ?_ <;>
        simp [lastCtlIn, lastFallIn, hsp.ctl, hsp.fall, gapAfter, State.dataDue, State.due]
    | enableCtl =>
      obtain ⟨u, hu, rfl⟩ := continueWith_inv h
      obtain ⟨-, rfl⟩ := requireThat_inv hu
      refine KeepsSpacing.event (ev := .enCtl) hsp (g := s.due + s.stretch)
        (by have := s.dataDue_le_due; omega) ?_ ?_ ?_ ?_ ?_ (.inr rfl) (by simp) ?_ <;>
        simp [lastCtlIn, lastFallIn, hsp.ctl, hsp.fall, gapAfter, State.dataDue, State.due]
    | strobeUp =>
      have hc : s.ctlOe = true := by simp_all [Lines.admits, Lines.quiet]
      obtain ⟨u, hu, rfl⟩ := continueWith_inv h
      obtain ⟨-, rfl⟩ := requireThat_inv hu
      have : s.due ≤ s.riseDue := le_max_left _ _
      refine KeepsSpacing.event (ev := .eUp) hsp (g := s.riseDue + s.stretch) (by have := s.dataDue_le_due; omega)
        ?_ ?_ ?_ ?_ ?_ (.inl hc) (by simp) ?_ <;>
        simp [lastCtlIn, lastFallIn, hsp.ctl, hsp.fall, gapAfter, State.dataDue, State.due]
    | sampleUp =>
      have hc : s.ctlOe = true := by simp_all [Lines.admits, Lines.quiet]
      obtain ⟨u, hu, rfl⟩ := continueWith_inv h
      obtain ⟨-, rfl⟩ := requireThat_inv hu
      have : s.due ≤ s.riseDue := le_max_left _ _
      refine KeepsSpacing.event (ev := .eUp) hsp (g := s.riseDue + s.stretch) (by have := s.dataDue_le_due; omega)
        ?_ ?_ ?_ ?_ ?_ (.inl hc) (by simp) ?_ <;>
        simp [lastCtlIn, lastFallIn, hsp.ctl, hsp.fall, gapAfter, State.dataDue, State.due]
    | strobeDown =>
      have hc : s.ctlOe = true := by simp_all [Lines.admits]
      obtain ⟨m, rfl, hm⟩ := strobeDown_inv h
      refine KeepsSpacing.event (ev := .eDown) hsp (g := s.due + s.stretch)
        (by have := s.dataDue_le_due; omega) ?_ ?_ ?_ ?_ ?_ (.inl hc) (by simp) ?_ <;>
        simp [lastCtlIn, lastFallIn, hsp.ctl, gapAfter, State.dataDue, State.due]
    | sampleDown =>
      have hc : s.ctlOe = true := by simp_all [Lines.admits]
      obtain ⟨u, hu, rfl⟩ := continueWith_inv h
      obtain ⟨-, rfl⟩ := requireThat_inv hu
      refine KeepsSpacing.event (ev := .eDownSample (sync1After s.dropStretch.readLevel
        (s.due + s.stretch - 1) s.dropStretch.sync0 s.dropStretch.sync1)) hsp (g := s.due + s.stretch)
        (by have := s.dataDue_le_due; omega) ?_ ?_ ?_ ?_ ?_ (.inl hc) (by simp) ?_ <;>
        simp [lastCtlIn, lastFallIn, hsp.ctl, hsp.fall, gapAfter, State.dataDue, State.due, State.tickWith,
          State.dropStretch]
    | delay p =>
      have hc : s.ctlOe = true := by simp_all [Lines.admits, Lines.quiet, Lines.timed]
      simp only [microStep, startDelay, continueWith, Host.Outcome.next.injEq] at h
      subst h
      refine KeepsSpacing.event (ev := .wait p) hsp (g := s.due + s.stretch)
        (by have := s.dataDue_le_due; omega) ?_ ?_ ?_ ?_ ?_ (.inl hc) (by simp) ?_ <;>
        simp [lastCtlIn, lastFallIn, hsp.ctl, hsp.fall, gapAfter, State.dataDue, State.due]
    | delayEnd p =>
      simp only [Lines.admits, Bool.and_eq_true] at ha
      exact ih (s := { s with lcd := s.lcd.afterDelay s.platform p }) (l := l) hl ha.2
        ⟨hsp.1, hsp.2, hsp.3, hsp.4, hsp.5⟩ h
    | initEnd =>
      simp only [Lines.admits, Bool.and_eq_true] at ha
      exact ih (s := { s with lcd := s.lcd.afterInit s.platform }) (l := l) hl ha.2
        ⟨hsp.1, hsp.2, hsp.3, hsp.4, hsp.5⟩ h
    | setDrv d =>
      simp only [Lines.admits, Bool.and_eq_true] at ha
      exact ih (s := { s with drvState := d }) (l := {l with drv := d}) hl ha.2
        ⟨hsp.1, hsp.2, hsp.3, hsp.4, hsp.5⟩ h
    | clearRcnt =>
      simp only [Lines.admits, Bool.and_eq_true] at ha
      exact ih (s := { s with rcnt := 0 }) (l := l) hl ha.2
        ⟨hsp.1, hsp.2, hsp.3, hsp.4, hsp.5⟩ h
    | incRcnt =>
      simp only [Lines.admits, Bool.and_eq_true] at ha
      exact ih (s := { s with rcnt := s.rcnt + 1 }) (l := l) hl ha.2
        ⟨hsp.1, hsp.2, hsp.3, hsp.4, hsp.5⟩ h
    | setPcnt n =>
      simp only [Lines.admits, Bool.and_eq_true] at ha
      exact ih (s := { s with pcnt := n }) (l := l) hl ha.2
        ⟨hsp.1, hsp.2, hsp.3, hsp.4, hsp.5⟩ h
    | legacyTest =>
      simp only [Lines.admits, Bool.and_eq_true] at ha
      have hc : s.ctlOe = true := by simp_all [Lines.timed, Lines.quiet]
      simp only [microStep] at h
      split at h
      · exact ih hl ha.2 hsp h
      · exact dir _ _ _ hc hsp h
    | pollAgain =>
      simp only [Lines.admits, Bool.and_eq_true] at ha
      have hc : s.ctlOe = true := by simp_all [Lines.polled, Lines.quiet]
      simp only [microStep] at h
      split at h
      · exact dir _ _ _ hc hsp h
      · exact ih (l := { l with last := .settled }) hl ha.2 hsp h
    | boundedTest =>
      simp only [Lines.admits, Bool.and_eq_true] at ha
      have hc : s.ctlOe = true := by simp_all [Lines.polled, Lines.quiet]
      simp only [microStep] at h
      split at h
      · exact dir { s with pcnt := s.pcnt - 1 } _ _ hc
          ⟨hsp.1, hsp.2, hsp.3, hsp.4, hsp.5⟩ h
      · exact ih (s := { s with pcnt := s.pcnt - 1 }) (l := l) hl ha.2
          ⟨hsp.1, hsp.2, hsp.3, hsp.4, hsp.5⟩ h

/-- So does any number of them. -/
theorem runEvents_spaced (n : Nat) : ∀ {s t : State},
    Inv s → KeepsSpacing s → runEvents n s = .next t → KeepsSpacing t := by
  induction n with
  | zero => intro s t _ hsp h; cases h; exact hsp
  | succ n ih =>
    intro s t hi hsp h
    cases hs : s.seq with
    | idle => simp [runEvents, hs] at h; subst h; exact hsp
    | decode => simp [runEvents, hs] at h; subst h; exact hsp
    | running todo fin =>
      obtain ⟨hf, hk, ha⟩ := hi.fits hs
      obtain ⟨u, hu, hui⟩ := microStep_inv fin hf hk ha
      have f := microStep_spaced fin hf.ctlOe ha hsp hu
      simp only [runEvents, hs, hu] at h
      exact ih hui f h

/-- So does a program from its start. -/
theorem runProgram_spaced {todo : List Micro} {fin : Finish} {l : Lines} {s t : State}
    (hf : Fits l s) (hk : Keeps s) (hsp : KeepsSpacing s) (ha : l.admits todo = true)
    (h : runProgram todo fin s = .next t) : KeepsSpacing t := by
  obtain ⟨u, hu, hui⟩ := microStep_inv fin hf hk ha
  have f := microStep_spaced fin hf.ctlOe ha hsp hu
  rw [runProgram, resume, State.goOn_pace, runEvents_running, hu] at h
  exact runEvents_spaced _ hui f h

end Sys2Proof.Machine
end

