-- ==== Sys2Proof/Laws/Counter.lean ====
section
/-! SUPPORT. What DCNT holds after an event of a running program (R33). -/

namespace Sys2Proof.Machine

/-- An event has just been appended, and DCNT counts what it asks for; a strobe's wait is that of the
registers that time it. -/
def CountsLast (t : State) : Prop :=
  ∃ ev old, t.trace = (t.cycle, ev) :: old ∧
    (t.lastCtl = lastCtlIn t.trace → t.lastFall = lastFallIn t.trace → t.dcnt = t.counted ev)

/-- The registers that time a strobe's wait agree with the trace. -/
theorem setupLeft_eq_strobeWait {t : State} (hc : t.lastCtl = lastCtlIn t.trace)
    (hf : t.lastFall = lastFallIn t.trace) : t.setupLeft = t.strobeWait := by
  simp [State.setupLeft, State.strobeWait, hc, hf]

theorem setDir_counts {s t : State} {d : Direction} {r : List Micro} {fin : Finish}
    (h : continueWith r fin (setDir d s) = .next t) : CountsLast t := by
  obtain ⟨u, hu, rfl⟩ := continueWith_inv h
  obtain ⟨-, rfl⟩ := requireThat_inv hu
  exact ⟨.dir d, s.trace, rfl, fun _ _ => rfl⟩

theorem raiseE_counts (s : State) (r : List Micro) (fin : Finish) :
    CountsLast (s.raiseE.goOn r fin) := by
  refine ⟨.eUp, s.trace, by simp, fun _ _ => ?_⟩
  simp [State.counted]

/-- A state in which DCNT has just been set to count a strobe's wait. -/
theorem countSetup_counts {s : State} {ev : Event} (he : (∃ rs rw, ev = .ctl rs rw) ∨ ∃ v, ev = .data v)
    (r : List Micro) (fin : Finish) : CountsLast ((s.countSetup.append ev).goOn r fin) := by
  refine ⟨ev, s.trace, by simp, fun hc hf => ?_⟩
  have h := setupLeft_eq_strobeWait hc hf
  have hd : ((s.countSetup.append ev).goOn r fin).dcnt =
      ((s.countSetup.append ev).goOn r fin).setupLeft := rfl
  rw [hd, h]
  rcases he with ⟨rs, rw, rfl⟩ | ⟨v, rfl⟩ <;> rfl

/-- One event of a program: a response, or DCNT counts what the event asks for. -/
theorem microStep_counts (fin : Finish) : ∀ {todo : List Micro} {s t : State},
    microStep todo fin s = .next t → t.seq = .idle ∨ CountsLast t := by
  intro todo
  induction todo with
  | nil =>
    intro s t h
    simp only [microStep, Host.Outcome.next.injEq] at h
    exact .inl (h ▸ finish_seq fin)
  | cons op r ih =>
    intro s t h
    cases op with
    | setDir d => exact .inr (setDir_counts h)
    | setCtl rs rw =>
      obtain ⟨u, hu, rfl⟩ := continueWith_inv h
      obtain ⟨-, rfl⟩ := requireThat_inv hu
      exact .inr (countSetup_counts (.inl ⟨rs, rw, rfl⟩) _ _)
    | driveDB v =>
      obtain ⟨u, hu, rfl⟩ := continueWith_inv h
      obtain ⟨-, rfl⟩ := requireThat_inv hu
      exact .inr (countSetup_counts (.inr ⟨v, rfl⟩) _ _)
    | enableCtl =>
      obtain ⟨u, hu, rfl⟩ := continueWith_inv h
      obtain ⟨-, rfl⟩ := requireThat_inv hu
      exact .inr ⟨.enCtl, s.trace, rfl, fun _ _ => rfl⟩
    | strobeUp =>
      obtain ⟨u, hu, rfl⟩ := continueWith_inv h
      obtain ⟨-, rfl⟩ := requireThat_inv hu
      exact .inr (raiseE_counts ..)
    | sampleUp =>
      obtain ⟨u, hu, rfl⟩ := continueWith_inv h
      obtain ⟨-, rfl⟩ := requireThat_inv hu
      exact .inr (raiseE_counts ..)
    | strobeDown =>
      obtain ⟨m, rfl, -⟩ := strobeDown_inv h
      refine .inr ⟨.eDown, s.trace, by simp, fun _ _ => ?_⟩
      simp [State.counted]
    | sampleDown =>
      obtain ⟨u, hu, rfl⟩ := continueWith_inv h
      obtain ⟨-, rfl⟩ := requireThat_inv hu
      exact .inr ⟨.eDownSample _, s.trace, rfl, fun _ _ => rfl⟩
    | delay p =>
      simp only [microStep, startDelay, continueWith, Host.Outcome.next.injEq] at h
      subst h
      exact .inr ⟨.wait p, s.trace, rfl, fun _ _ => rfl⟩
    | delayEnd p => exact ih h
    | initEnd => exact ih h
    | setDrv d => exact ih h
    | clearRcnt => exact ih h
    | incRcnt => exact ih h
    | setPcnt n => exact ih h
    | legacyTest =>
      simp only [microStep] at h
      split at h
      · exact ih h
      · exact .inr (setDir_counts h)
    | pollAgain =>
      simp only [microStep] at h
      split at h
      · exact .inr (setDir_counts h)
      · exact ih h
    | boundedTest =>
      simp only [microStep] at h
      split at h
      · exact .inr (setDir_counts h)
      · exact ih h

/-- Any number of events that begin with one. -/
theorem runEvents_counts (n : Nat) : ∀ {s t : State} {todo : List Micro} {fin : Finish},
    s.seq = .running todo fin → runEvents (n + 1) s = .next t → t.seq = .idle ∨ CountsLast t := by
  induction n with
  | zero =>
    intro s t todo fin hs h
    simp only [runEvents, hs] at h
    split at h
    · rename_i u hu
      cases h
      exact microStep_counts fin hu
    · cases h
    · cases h
  | succ n ih =>
    intro s t todo fin hs h
    rw [runEvents] at h
    simp only [hs] at h
    split at h
    · rename_i u hu
      cases hq : u.seq with
      | running r f => exact ih hq h
      | idle =>
        rw [runEvents] at h
        simp only [hq, Host.Outcome.next.injEq] at h
        exact .inl (h ▸ hq)
      | decode =>
        rcases (microStep_frame fin hu).answer with ha | ha
        · rw [hq] at ha; cases ha.1
        · obtain ⟨r, f, hr⟩ := ha.1; rw [hq] at hr; cases hr
    · cases h
    · cases h

end Sys2Proof.Machine
end

