-- ==== Sys2Proof/Laws/Encoding.lean ====
section
/-! SUPPORT. The command word's fields as arithmetic on its number, and what packing and unpacking do to
each other (R70, R71). -/

namespace Sys2Proof

theorem opField_toNat (w : CommandWord) : (opField w).toNat = w.toNat / 2 ^ 16 := by
  have := w.isLt
  simp only [opField, BitVec.extractLsb'_toNat, Nat.shiftRight_eq_div_pow]
  omega

theorem aField_toNat (w : CommandWord) : (aField w).toNat = w.toNat / 2 ^ 8 % 2 ^ 8 := by
  simp [aField, BitVec.extractLsb'_toNat, Nat.shiftRight_eq_div_pow]

theorem bField_toNat (w : CommandWord) : (bField w).toNat = w.toNat % 2 ^ 8 := by
  simp [bField, BitVec.extractLsb'_toNat]

theorem packWord_toNat (op : BitVec 4) (a b : Byte) :
    (packWord op a b).toNat = op.toNat * 2 ^ 16 + a.toNat * 2 ^ 8 + b.toNat := by
  have ha := a.isLt
  have hb := b.isLt
  simp only [packWord, BitVec.toNat_append]
  rw [← Nat.shiftLeft_add_eq_or_of_lt ha, ← Nat.shiftLeft_add_eq_or_of_lt hb]
  simp only [Nat.shiftLeft_eq]
  omega

@[simp] theorem opField_packWord (op : BitVec 4) (a b : Byte) : opField (packWord op a b) = op := by
  apply BitVec.eq_of_toNat_eq
  have ha := a.isLt
  have hb := b.isLt
  rw [opField_toNat, packWord_toNat]
  omega

@[simp] theorem aField_packWord (op : BitVec 4) (a b : Byte) : aField (packWord op a b) = a := by
  apply BitVec.eq_of_toNat_eq
  have ha := a.isLt
  have hb := b.isLt
  rw [aField_toNat, packWord_toNat]
  omega

@[simp] theorem bField_packWord (op : BitVec 4) (a b : Byte) : bField (packWord op a b) = b := by
  apply BitVec.eq_of_toNat_eq
  have hb := b.isLt
  rw [bField_toNat, packWord_toNat]
  omega

@[simp] theorem packWord_fields (w : CommandWord) :
    packWord (opField w) (aField w) (bField w) = w := by
  apply BitVec.eq_of_toNat_eq
  have := w.isLt
  rw [packWord_toNat, opField_toNat, aField_toNat, bField_toNat]
  omega

theorem packWord_and (op op' : BitVec 4) (a a' b b' : Byte) :
    packWord op a b &&& packWord op' a' b' = packWord (op &&& op') (a &&& a') (b &&& b') :=
  BitVec.and_append.trans (congrArg (fun x : BitVec 12 => (x ++ (b &&& b') : BitVec 20))
    BitVec.and_append)

/-- A word matches a row field by field (R75). -/
theorem matches_iff_fields (r : TableRow) (w : CommandWord) (hm : r.mask < 2 ^ 20)
    (hp : r.pattern < 2 ^ 20) :
    r.matches w.toNat = true ↔
      opField w &&& opField (BitVec.ofNat 20 r.mask) = opField (BitVec.ofNat 20 r.pattern) ∧
      aField w &&& aField (BitVec.ofNat 20 r.mask) = aField (BitVec.ofNat 20 r.pattern) ∧
      bField w &&& bField (BitVec.ofNat 20 r.mask) = bField (BitVec.ofNat 20 r.pattern) := by
  have hw : r.matches w.toNat = true ↔
      w &&& BitVec.ofNat 20 r.mask = BitVec.ofNat 20 r.pattern := by
    simp only [TableRow.matches, beq_iff_eq, BitVec.toNat_eq, BitVec.toNat_and, BitVec.toNat_ofNat,
      Nat.mod_eq_of_lt hm, Nat.mod_eq_of_lt hp]
  rw [hw, ← packWord_fields w, ← packWord_fields (BitVec.ofNat 20 r.mask),
    ← packWord_fields (BitVec.ofNat 20 r.pattern), packWord_and]
  simp only [opField_packWord, aField_packWord, bField_packWord]
  constructor
  · intro h
    have h1 := congrArg opField h
    have h2 := congrArg aField h
    have h3 := congrArg bField h
    simp only [opField_packWord, aField_packWord, bField_packWord] at h1 h2 h3
    exact ⟨h1, h2, h3⟩
  · rintro ⟨h1, h2, h3⟩
    rw [h1, h2, h3]

end Sys2Proof
end

