-- ==== Sys2Proof/Laws/Pace.lean ====
section
/-! SUPPORT. The pace of a state decides how many events one step carries out, and nothing else: no event
looks at it (log 1). -/

namespace Sys2Proof.Machine

/-- The state at another pace. -/
def State.atPace (p : Nat) (s : State) : State := { s with pace := p }

@[simp] theorem State.atPace_seq (p : Nat) (s : State) : (s.atPace p).seq = s.seq := rfl
@[simp] theorem State.atPace_pace (p : Nat) (s : State) : (s.atPace p).pace = p := rfl
@[simp] theorem State.atPace_host (p : Nat) (s : State) : (s.atPace p).host = s.host := rfl
@[simp] theorem State.atPace_rcnt (p : Nat) (s : State) : (s.atPace p).rcnt = s.rcnt := rfl
@[simp] theorem State.atPace_pcnt (p : Nat) (s : State) : (s.atPace p).pcnt = s.pcnt := rfl
@[simp] theorem State.atPace_dbIn (p : Nat) (s : State) : (s.atPace p).dbIn = s.dbIn := rfl
@[simp] theorem State.atPace_atPace (p q : Nat) (s : State) : (s.atPace q).atPace p = s.atPace p := rfl
@[simp] theorem State.atPace_self (s : State) : s.atPace s.pace = s := rfl

/-- The outcome at another pace. -/
def outcomeAtPace (p : Nat) (o : Host.Outcome State Fault Refusal) :
    Host.Outcome State Fault Refusal :=
  match o with
  | .next s => .next (s.atPace p)
  | .fault f => .fault f
  | .refused r => .refused r

/-- A check does not look at the pace. -/
theorem continueWith_requireThat_atPace {p : Nat} {r : List Micro} {fin : Finish} {b : Bool}
    {s t : State} (h : s = t.atPace p) :
    continueWith r fin (requireThat b s) =
      outcomeAtPace p (continueWith r fin (requireThat b t)) := by
  subst h
  cases b <;> rfl

theorem setDir_atPace (p : Nat) (r : List Micro) (fin : Finish) (d : Direction) (s : State) :
    continueWith r fin (setDir d (s.atPace p)) = outcomeAtPace p (continueWith r fin (setDir d s)) :=
  continueWith_requireThat_atPace rfl

/-- The device's reaction does not look at the pace. -/
theorem latchWrite_atPace (p : Nat) (s : State) :
    latchWrite (s.atPace p) = outcomeAtPace p (latchWrite s) := by
  obtain ⟨F, hF⟩ := latchInstruction_next s.dbOut
  unfold latchWrite
  by_cases hc : s.ctlOe = true
  · have hc' : (s.atPace p).ctlOe = true := hc
    rw [if_pos hc, if_pos hc']
    cases hr : s.rs with
    | instruction =>
      have hr' : (s.atPace p).rs = .instruction := hr
      rw [hr']
      show latchInstruction s.dbOut _ = outcomeAtPace p (latchInstruction s.dbOut s)
      rw [hF, hF]; rfl
    | data =>
      have hr' : (s.atPace p).rs = .data := hr
      rw [hr']; rfl
  · have hc' : ¬ (s.atPace p).ctlOe = true := hc
    rw [if_neg hc, if_neg hc']; rfl

theorem strobeDown_atPace (p : Nat) (r : List Micro) (fin : Finish) (s : State) :
    strobeDown r fin (s.atPace p) = outcomeAtPace p (strobeDown r fin s) := by
  unfold strobeDown strobeFall
  show (match requireThat (s.e && s.dir == .output && s.rw == .write)
      (((s.elapse s.due).dropE .eDown).atPace p) with
    | .next t => latchWrite (t.goOn r fin)
    | .fault f => .fault f
    | .refused r => .refused r) = _
  cases (s.e && s.dir == .output && s.rw == .write)
  · rfl
  · exact latchWrite_atPace p (((s.elapse s.due).dropE .eDown).goOn r fin)

/-- No event looks at the pace. -/
theorem microStep_atPace (p : Nat) (fin : Finish) (todo : List Micro) :
    ∀ s : State, microStep todo fin (s.atPace p) = outcomeAtPace p (microStep todo fin s) := by
  induction todo with
  | nil => intro s; cases fin <;> rfl
  | cons op r ih =>
    intro s
    cases op with
    | setDir d => exact setDir_atPace ..
    | enableCtl => exact continueWith_requireThat_atPace rfl
    | setCtl rs rw => exact continueWith_requireThat_atPace rfl
    | driveDB v => exact continueWith_requireThat_atPace rfl
    | strobeUp => exact continueWith_requireThat_atPace rfl
    | sampleUp => exact continueWith_requireThat_atPace rfl
    | sampleDown => exact continueWith_requireThat_atPace rfl
    | strobeDown => exact strobeDown_atPace ..
    | delay d => rfl
    | delayEnd d => exact ih { s with lcd := s.lcd.afterDelay s.platform d }
    | setDrv d => exact ih { s with drvState := d }
    | initEnd => exact ih { s with lcd := s.lcd.afterInit s.platform }
    | clearRcnt => exact ih { s with rcnt := 0 }
    | incRcnt => exact ih { s with rcnt := s.rcnt + 1 }
    | setPcnt n => exact ih { s with pcnt := n }
    | legacyTest =>
      simp only [microStep, State.atPace_rcnt, ih s, setDir_atPace]
      split <;> rfl
    | pollAgain =>
      simp only [microStep, State.atPace_dbIn, ih s, setDir_atPace]
      split <;> rfl
    | boundedTest =>
      have h1 := ih { s with pcnt := s.pcnt - 1 }
      have h2 := setDir_atPace p (busRead.tail ++ .boundedTest :: r) fin .input
        { s with pcnt := s.pcnt - 1 }
      simp only [State.atPace] at h1 h2
      simp only [microStep, State.atPace, h1, h2]
      split <;> rfl

/-- Nor does any number of events. -/
theorem runEvents_atPace (p n : Nat) : ∀ s : State,
    runEvents n (s.atPace p) = outcomeAtPace p (runEvents n s) := by
  induction n with
  | zero => intro s; rfl
  | succ n ih =>
    intro s
    rw [runEvents, runEvents]
    simp only [State.atPace_seq]
    cases s.seq with
    | idle => rfl
    | decode => rfl
    | running todo fin =>
      simp only [microStep_atPace]
      cases microStep todo fin s with
      | next t => exact ih t
      | fault f => rfl
      | refused r => rfl

/-- One event and then the rest. -/
theorem runEvents_succ (n : Nat) {s t : State} (h : runEvents 1 s = .next t) :
    runEvents (n + 1) s = runEvents n t := by
  rw [runEvents] at h ⊢
  cases hs : s.seq with
  | idle =>
    simp only [hs, Host.Outcome.next.injEq] at h ⊢
    subst h
    cases n <;> simp [runEvents, hs]
  | decode =>
    simp only [hs, Host.Outcome.next.injEq] at h ⊢
    subst h
    cases n <;> simp [runEvents, hs]
  | running todo fin =>
    simp only [hs] at h ⊢
    cases hm : microStep todo fin s with
    | next u => simp only [hm, runEvents, Host.Outcome.next.injEq] at h ⊢; subst h; rfl
    | fault f => simp [hm] at h
    | refused r => simp [hm] at h

end Sys2Proof.Machine
end

