-- ==== Sys2Proof/Laws/PerInstr.lean ====
section
/-! SUPPORT. The family `TableRow`: every instruction's encoding has its row's width and its row's fixed
bits, whatever its operands (R72 to R75, R78). -/

namespace Sys2Proof.Laws.TableRow

/-- The bits of an instruction's encoding are as many as its row says, and match the row. -/
@[reducible] def Statement (i : Instr) : Prop :=
  (encode i).bits.1 = (tableRow i).width ∧ (tableRow i).matches (encode i).bits.2 = true

/-- A packed word matches a row where its fields do. -/
theorem packed {op : BitVec 4} {a b : Byte} (r : Sys2Proof.TableRow) (hm : r.mask < 2 ^ 20)
    (hp : r.pattern < 2 ^ 20)
    (ho : op &&& opField (BitVec.ofNat 20 r.mask) = opField (BitVec.ofNat 20 r.pattern))
    (ha : a &&& aField (BitVec.ofNat 20 r.mask) = aField (BitVec.ofNat 20 r.pattern))
    (hb : b &&& bField (BitVec.ofNat 20 r.mask) = bField (BitVec.ofNat 20 r.pattern)) :
    r.matches (packWord op a b).toNat = true := by
  rw [matches_iff_fields r _ hm hp]
  simpa only [opField_packWord, aField_packWord, bField_packWord] using ⟨ho, ha, hb⟩

theorem and_zero (x : Byte) : x &&& 0 = 0 := by simp

theorem init : Statement .init := by decide

theorem cmd (b8 : Byte) : Statement (.cmd b8) :=
  ⟨rfl, packed ⟨20, 0x20000, 0xF00FF⟩ (by decide) (by decide) (by decide) (and_zero b8) (by decide)⟩

theorem putc (b8 : Byte) : Statement (.putc b8) :=
  ⟨rfl, packed ⟨20, 0x30000, 0xF00FF⟩ (by decide) (by decide) (by decide) (and_zero b8) (by decide)⟩

theorem status : Statement .status := by decide

theorem waitidle : Statement .waitidle := by decide

theorem goto (x y : Byte) : Statement (.goto x y) :=
  ⟨rfl, packed ⟨20, 0x60000, 0xF0000⟩ (by decide) (by decide) (by decide) (and_zero x) (and_zero y)⟩

theorem waitb (n : Byte) : Statement (.waitb n) :=
  ⟨rfl, packed ⟨20, 0x70000, 0xF00FF⟩ (by decide) (by decide) (by decide) (and_zero n) (by decide)⟩

theorem lcdClear : Statement .lcdClear := by decide

theorem lcdReturnHome : ∀ x, Statement (.lcdReturnHome x) := by decide

theorem lcdEntryMode : ∀ id s, Statement (.lcdEntryMode id s) := by decide

theorem lcdDisplayControl : ∀ d c b, Statement (.lcdDisplayControl d c b) := by decide

theorem lcdShift : ∀ sc rl x, Statement (.lcdShift sc rl x) := by decide

theorem lcdFunctionSet : ∀ dl n f x, Statement (.lcdFunctionSet dl n f x) := by decide

theorem lcdSetCgram : ∀ acg, Statement (.lcdSetCgram acg) := by decide

theorem lcdSetDdram : ∀ add, Statement (.lcdSetDdram add) := by decide

theorem lcdNone : Statement .lcdNone := by decide

end Sys2Proof.Laws.TableRow
end

