-- ==== Sys2Proof/Laws/Pins.lean ====
section
/-! SUPPORT. The pins of the block and the event trace (R100): what one event of a running program does to
both. -/

namespace Sys2Proof.Machine

/-! ### The record -/

/-- The pins a trace leaves, as a fold from the oldest event on. -/
theorem pinsOf_eq_foldl (r : List Event) : pinsOf r = r.reverse.foldl Pins.after .atReset := by
  induction r with
  | nil => rfl
  | cons ev r ih => simp [pinsOf, ih]

/-- The pin trace of two traces in a row. -/
theorem pinTrace_append (p : Pins) (a b : List Event) :
    pinTrace p (a ++ b) = pinTrace p a ++ pinTrace (a.foldl Pins.after p) b := by
  induction a generalizing p with
  | nil => rfl
  | cons ev a ih => simp [pinTrace, ih]

/-- The pin trace after one more event. -/
theorem pinTrace_events {s t : State} {c : Nat} {ev : Event} (h : t.trace = (c, ev) :: s.trace) :
    pinTrace .atReset t.events = pinTrace .atReset s.events ++
      if (pinsOf (s.trace.map (·.2))).changedBy ev then [ev] else [] := by
  have hp : s.events.foldl Pins.after .atReset = pinsOf (s.trace.map (·.2)) := by
    rw [pinsOf_eq_foldl, State.events]
  have ht : t.events = s.events ++ [ev] := by simp [State.events, h]
  rw [ht, pinTrace_append, hp]
  simp [pinTrace]

/-- The pins are a function of four registers. -/
theorem State.pins_congr {s t : State} (hd : t.dir = s.dir) (hr : t.rs = s.rs) (hw : t.rw = s.rw)
    (hb : t.dbOut = s.dbOut) : t.pins = s.pins := by simp [State.pins, hd, hr, hw, hb]

/-- A step that touches neither pins, enable nor trace keeps the record. -/
theorem PinsRecorded.same {s t : State} (h : PinsRecorded s) (hp : t.pins = s.pins)
    (hc : t.ctlOe = s.ctlOe) (ht : t.trace = s.trace) : PinsRecorded t :=
  ⟨fun h' => by rw [hp, ht]; exact h.driven (hc ▸ h'), fun h' => by
    rw [hp]; exact h.released (hc ▸ h')⟩

/-- The block after a reset keeps the record, whatever it was. -/
theorem PinsRecorded.reset (s : State) : PinsRecorded s.applyReset :=
  ⟨fun h => absurd (show false = true from h) (by decide), fun _ => rfl⟩

/-- An event that is no edge of E or of the enable changes a pin exactly when the pins differ after it. -/
theorem Pins.changedBy_iff (p : Pins) {ev : Event}
    (h : (∃ d, ev = .dir d) ∨ (∃ rs rw, ev = .ctl rs rw) ∨ (∃ v, ev = .data v) ∨ ∃ n, ev = .wait n) :
    p.changedBy ev = true ↔ p.after ev ≠ p := by
  obtain ⟨dir, rs, rw, dbOut⟩ := p
  rcases h with ⟨d, rfl⟩ | ⟨a, b, rfl⟩ | ⟨v, rfl⟩ | ⟨n, rfl⟩
  · simp [Pins.changedBy, Pins.after, ne_comm (a := dir)]
  · simp only [Pins.changedBy, Pins.after, ne_eq, Pins.mk.injEq, true_and, and_true, Bool.or_eq_true,
      bne_iff_ne, Classical.not_and_iff_not_or_not]
    exact or_congr ne_comm ne_comm
  · simp [Pins.changedBy, Pins.after, ne_comm (a := dbOut)]
  · simp [Pins.changedBy, Pins.after]

/-! ### One event -/

/-- What one event of a program, or its response, does to pins and trace: it appends nothing and touches no
pin, or appends one event, after which the pins are what the event makes of them; and the event counts for
the pin trace exactly when an output changed. -/
def PinStep (s t : State) : Prop :=
  (t.trace = s.trace ∧ t.pins = s.pins ∧ t.ctlOe = s.ctlOe) ∨
    ∃ c ev, t.trace = (c, ev) :: s.trace ∧ t.ctlOe = true ∧
      (s.ctlOe = true ∨ ev = .enCtl) ∧
      (s.ctlOe = true ∨ s.pins = .atReset → t.pins = s.pins.after ev) ∧
      (s.pins.changedBy ev = true ↔ t.pins ≠ s.pins ∨ t.e ≠ s.e ∨ t.ctlOe ≠ s.ctlOe)

/-- Such an event keeps the record. -/
theorem PinsRecorded.pinStep {s t : State} (h : PinsRecorded s) (hst : PinStep s t) :
    PinsRecorded t := by
  rcases hst with ⟨ht, hp, hc⟩ | ⟨c, ev, ht, hc, hev, hp, -⟩
  · exact h.same hp hc ht
  · refine ⟨fun _ => ?_, fun h' => by simp [hc] at h'⟩
    rw [ht, List.map_cons, pinsOf]
    cases hs : s.ctlOe with
    | true => rw [hp (.inl hs), h.driven hs]
    | false =>
      rcases hev with hev | rfl
      · simp [hs] at hev
      · rw [hp (.inr (h.released hs))]; rfl

/-- An event of a driven block that leaves E as it was. -/
theorem PinStep.level {s t : State} {c : Nat} {ev : Event} (hc : s.ctlOe = true)
    (hc' : t.ctlOe = true) (he : t.e = s.e) (htr : t.trace = (c, ev) :: s.trace)
    (hp : t.pins = s.pins.after ev)
    (hev : (∃ d, ev = .dir d) ∨ (∃ rs rw, ev = .ctl rs rw) ∨ (∃ v, ev = .data v) ∨
      ∃ n, ev = .wait n) : PinStep s t := by
  refine .inr ⟨c, ev, htr, hc', .inl hc, fun _ => hp, ?_⟩
  rw [Pins.changedBy_iff _ hev, hp, he, hc, hc']
  simp

/-- An edge of E of a driven block. -/
theorem PinStep.edge {s t : State} {c : Nat} {ev : Event} (hc : s.ctlOe = true)
    (hc' : t.ctlOe = true) (he : t.e ≠ s.e) (htr : t.trace = (c, ev) :: s.trace)
    (hp : t.pins = s.pins) (hev : ev = .eUp ∨ ev = .eDown ∨ ∃ v, ev = .eDownSample v) :
    PinStep s t := by
  refine .inr ⟨c, ev, htr, hc', .inl hc, fun _ => ?_, ?_⟩
  · rw [hp]; rcases hev with rfl | rfl | ⟨v, rfl⟩ <;> rfl
  · rcases hev with rfl | rfl | ⟨v, rfl⟩ <;> simp [Pins.changedBy, he]

/-- `SetDir` on a driven block. -/
theorem setDir_pinStep {s t : State} {d : Direction} {r : List Micro} {fin : Finish}
    (hc : s.ctlOe = true) (h : continueWith r fin (setDir d s) = .next t) : PinStep s t := by
  obtain ⟨u, hu, rfl⟩ := continueWith_inv h
  obtain ⟨-, rfl⟩ := requireThat_inv hu
  exact .level hc hc rfl rfl rfl (.inl ⟨d, rfl⟩)

/-- The rising edge of E. -/
theorem raiseE_pinStep {s : State} {r : List Micro} {fin : Finish} (hc : s.ctlOe = true)
    (he : s.e = false) : PinStep s (s.raiseE.goOn r fin) :=
  .edge (ev := .eUp) hc (by simpa using hc) (by simp [he]) (by simp; rfl)
    (State.pins_congr (by simp) (by simp) (by simp) (by simp)) (.inl rfl)

/-- The outputs go first (R132). -/
theorem enableCtl_pinStep {s t : State} {r : List Micro} {fin : Finish}
    (h : continueWith r fin (enableCtl s) = .next t) : PinStep s t := by
  obtain ⟨u, hu, rfl⟩ := continueWith_inv h
  obtain ⟨ho, rfl⟩ := requireThat_inv hu
  have hc : s.ctlOe = false := by simpa using ho
  refine .inr ⟨_, .enCtl, rfl, rfl, .inr rfl, fun hp => ?_, ?_⟩
  · have hp : s.pins = .atReset := hp.resolve_left (by simp [hc])
    have h1 : s.dir = .input := congrArg Pins.dir hp
    have h2 : s.dbOut = 0x00 := congrArg Pins.dbOut hp
    show Pins.mk s.dir .instruction .write s.dbOut = Pins.atReset
    rw [h1, h2]; rfl
  · refine ⟨fun _ => .inr (.inr ?_), fun _ => rfl⟩
    rw [hc]; exact Bool.noConfusion

/-- The falling edge of E in a write strobe. -/
theorem strobeDown_pinStep {s t : State} {r : List Micro} {fin : Finish} (hc : s.ctlOe = true)
    (he : s.e = true) (h : strobeDown r fin s = .next t) : PinStep s t := by
  obtain ⟨m, rfl, -⟩ := strobeDown_inv h
  exact .edge (ev := .eDown) hc (by simpa using hc) (by simp [he]) (by simp; rfl)
    (State.pins_congr (by simp) (by simp) (by simp) (by simp)) (.inr (.inl rfl))

/-- The falling edge of E in a read strobe. -/
theorem sampleFall_pinStep {s t : State} {r : List Micro} {fin : Finish} (hc : s.ctlOe = true)
    (h : continueWith r fin (sampleFall s) = .next t) : PinStep s t := by
  obtain ⟨u, hu, rfl⟩ := continueWith_inv h
  obtain ⟨ho, rfl⟩ := requireThat_inv hu
  have he : s.e = true := by simp at ho; exact ho.1.1
  refine .edge (ev := .eDownSample (sync1After s.dropStretch.readLevel (s.due + s.stretch - 1)
    s.dropStretch.sync0 s.dropStretch.sync1)) hc hc ?_ rfl rfl (.inr (.inr ⟨_, rfl⟩))
  rw [he]; exact Bool.noConfusion

/-- One event of a program that fits the lines, with the steps folded into its edge, or its response. -/
theorem microStep_pins (fin : Finish) : ∀ {todo : List Micro} {l : Lines} {s t : State},
    l.ctlOe = s.ctlOe → l.e = s.e → l.admits todo = true →
    microStep todo fin s = .next t → PinStep s t := by
  intro todo
  induction todo with
  | nil =>
    intro l s t _ _ _ h
    simp only [microStep, Host.Outcome.next.injEq] at h
    subst h
    cases fin <;> exact .inl ⟨rfl, rfl, rfl⟩
  | cons op r ih =>
    intro l s t hl hle ha h
    cases op with
    | setDir d =>
      have hc : s.ctlOe = true := by
        cases d <;> simp_all [Lines.admits, Lines.quiet]
      exact setDir_pinStep hc h
    | setCtl rs rw =>
      have hc : s.ctlOe = true := by simp_all [Lines.admits, Lines.quiet]
      obtain ⟨u, hu, rfl⟩ := continueWith_inv h
      obtain ⟨-, rfl⟩ := requireThat_inv hu
      exact .level (ev := .ctl rs rw) hc (by simpa using hc) (by simp) (by simp; rfl)
        (by simp [State.pins, Pins.after]) (.inr (.inl ⟨rs, rw, rfl⟩))
    | driveDB v =>
      have hc : s.ctlOe = true := by simp_all [Lines.admits, Lines.quiet]
      obtain ⟨u, hu, rfl⟩ := continueWith_inv h
      obtain ⟨-, rfl⟩ := requireThat_inv hu
      exact .level (ev := .data v) hc (by simpa using hc) (by simp) (by simp; rfl)
        (by simp [State.pins, Pins.after]) (.inr (.inr (.inl ⟨v, rfl⟩)))
    | delay p =>
      have hc : s.ctlOe = true := by simp_all [Lines.admits, Lines.quiet, Lines.timed]
      simp only [microStep, startDelay, continueWith, Host.Outcome.next.injEq] at h
      subst h
      exact .level (ev := .wait p) hc (by simpa using hc) (by simp) (by simp; rfl)
        (State.pins_congr (by simp) (by simp) (by simp) (by simp)) (.inr (.inr (.inr ⟨p, rfl⟩)))
    | enableCtl => exact enableCtl_pinStep h
    | strobeUp =>
      have hc : s.ctlOe = true := by simp_all [Lines.admits, Lines.quiet]
      obtain ⟨u, hu, rfl⟩ := continueWith_inv h
      obtain ⟨ho, rfl⟩ := requireThat_inv hu
      exact raiseE_pinStep hc (by simp at ho; exact ho.1.1)
    | sampleUp =>
      have hc : s.ctlOe = true := by simp_all [Lines.admits, Lines.quiet]
      obtain ⟨u, hu, rfl⟩ := continueWith_inv h
      obtain ⟨ho, rfl⟩ := requireThat_inv hu
      exact raiseE_pinStep hc (by simp at ho; exact ho.1.1)
    | strobeDown =>
      simp only [Lines.admits, Bool.and_eq_true] at ha
      exact strobeDown_pinStep (hl ▸ ha.1.1.1.1) (hle ▸ ha.1.1.1.2) h
    | sampleDown =>
      simp only [Lines.admits, Bool.and_eq_true] at ha
      exact sampleFall_pinStep (hl ▸ ha.1.1.1.1) h
    | delayEnd p =>
      simp only [Lines.admits, Bool.and_eq_true] at ha
      exact ih (s := { s with lcd := s.lcd.afterDelay s.platform p }) hl hle ha.2 h
    | initEnd =>
      simp only [Lines.admits, Bool.and_eq_true] at ha
      exact ih (s := { s with lcd := s.lcd.afterInit s.platform }) hl hle ha.2 h
    | setDrv d =>
      simp only [Lines.admits, Bool.and_eq_true] at ha
      exact ih (s := { s with drvState := d }) (l := { l with drv := d }) hl hle ha.2 h
    | clearRcnt =>
      simp only [Lines.admits, Bool.and_eq_true] at ha
      exact ih (s := { s with rcnt := 0 }) hl hle ha.2 h
    | incRcnt =>
      simp only [Lines.admits, Bool.and_eq_true] at ha
      exact ih (s := { s with rcnt := s.rcnt + 1 }) hl hle ha.2 h
    | setPcnt n =>
      simp only [Lines.admits, Bool.and_eq_true] at ha
      exact ih (s := { s with pcnt := n }) hl hle ha.2 h
    | legacyTest =>
      simp only [Lines.admits, Bool.and_eq_true] at ha
      have hc : s.ctlOe = true := by simp_all [Lines.timed, Lines.quiet]
      simp only [microStep] at h
      split at h
      · exact ih hl hle ha.2 h
      · exact setDir_pinStep hc h
    | pollAgain =>
      simp only [Lines.admits, Bool.and_eq_true] at ha
      have hc : s.ctlOe = true := by simp_all [Lines.polled, Lines.quiet]
      simp only [microStep] at h
      split at h
      · exact setDir_pinStep hc h
      · exact ih (l := { l with last := .settled }) hl hle ha.2 h
    | boundedTest =>
      simp only [Lines.admits, Bool.and_eq_true] at ha
      have hc : s.ctlOe = true := by simp_all [Lines.polled, Lines.quiet]
      simp only [microStep] at h
      split at h
      · exact setDir_pinStep (s := { s with pcnt := s.pcnt - 1 }) hc h
      · exact ih (s := { s with pcnt := s.pcnt - 1 }) hl hle ha.2 h

/-! ### Runs of events -/

/-- Any number of events keeps the record. -/
theorem runEvents_pins (n : Nat) : ∀ {s t : State},
    Inv s → PinsRecorded s → runEvents n s = .next t → PinsRecorded t := by
  induction n with
  | zero => intro s t _ hp h; cases h; exact hp
  | succ n ih =>
    intro s t hi hp h
    cases hs : s.seq with
    | idle => simp [runEvents, hs] at h; subst h; exact hp
    | decode => simp [runEvents, hs] at h; subst h; exact hp
    | running todo fin =>
      obtain ⟨hf, hk, ha⟩ := hi.fits hs
      obtain ⟨u, hu, hui⟩ := microStep_inv fin hf hk ha
      have f := microStep_pins fin hf.ctlOe hf.e ha hu
      simp only [runEvents, hs, hu] at h
      exact ih hui (hp.pinStep f) h

/-- So does a program from its start. -/
theorem runProgram_pins {todo : List Micro} {fin : Finish} {l : Lines} {s t : State}
    (hf : Fits l s) (hk : Keeps s) (hp : PinsRecorded s)
    (ha : l.admits todo = true) (h : runProgram todo fin s = .next t) : PinsRecorded t := by
  obtain ⟨u, hu, hui⟩ := microStep_inv fin hf hk ha
  have f := microStep_pins fin hf.ctlOe hf.e ha hu
  rw [runProgram, resume, State.goOn_pace, runEvents_running, hu] at h
  exact runEvents_pins _ hui (hp.pinStep f) h

end Sys2Proof.Machine
end

