-- ==== Sys2Proof/Laws/Polling.lean ====
section
/-! SUPPORT. A block that polls a device that is busy for ever goes on doing so (R160, R169, R257): what one
event and any number of events of it do. -/

namespace Sys2Proof.Machine

/-- What polling without end leaves as it was, and the events it has appended. -/
structure PolledOn (n : Nat) (s t : State) : Prop where
  drvState : t.drvState = s.drvState
  dbOut : t.dbOut = s.dbOut
  device : t.lcd.device = s.lcd.device
  responses : t.responses = s.responses
  pace : t.pace = s.pace
  events : ∃ es, t.view.trace = stamped es ++ s.view.trace ∧ es.length = n ∧ ∀ ev ∈ es, ev ≠ .eDown

theorem PolledOn.trans {m n : Nat} {s t u : State} (h : PolledOn m s t) (h' : PolledOn n t u) :
    PolledOn (m + n) s u := by
  obtain ⟨es, h1, h2, h3⟩ := h.events
  obtain ⟨es', h1', h2', h3'⟩ := h'.events
  refine ⟨h'.drvState.trans h.drvState, h'.dbOut.trans h.dbOut, h'.device.trans h.device,
    h'.responses.trans h.responses, h'.pace.trans h.pace, es ++ es', ?_, by simp [h2, h2'], ?_⟩
  · rw [h1', h1]; simp [stamped]
  · intro ev hev
    rcases List.mem_append.1 hev with hev | hev
    · exact h3 ev hev
    · exact h3' ev hev

/-- Nothing has happened yet. -/
theorem PolledOn.nothing (s : State) : PolledOn 0 s s :=
  ⟨rfl, rfl, rfl, rfl, rfl, [], by simp [stamped], rfl, by simp⟩

/-- One event appended to the trace that is no falling edge of a write strobe. -/
theorem PolledOn.one {s t : State} {ev : Event} (h1 : t.drvState = s.drvState)
    (h2 : t.dbOut = s.dbOut) (h3 : t.lcd.device = s.lcd.device) (h4 : t.responses = s.responses)
    (h5 : t.pace = s.pace) (hv : t.view.trace = stamped [ev] ++ s.view.trace) (hne : ev ≠ .eDown) :
    PolledOn 1 s t :=
  ⟨h1, h2, h3, h4, h5, [ev], hv, rfl, by simpa using hne⟩

/-- A status read of a modelled device that is busy for ever changes nothing of it. -/
theorem Lcd.afterStatus_forever {l : Lcd} (hm : l.device.unmodelled = false)
    (hb : l.device.busy = .forever) : l.afterStatus.device = l.device := by
  rw [(Lcd.afterStatus_device hm).1, hb]
  obtain ⟨d, _, _, _⟩ := l
  cases d
  simp_all [polled]

/-! ### The places of a poll -/

/-- The lines at the place `k` of a poll. -/
theorem polling_lines {l : Lines} {r : List Micro} {k : Nat} (hk : k ≤ 4)
    (h : l.admits ((busRead ++ Micro.pollAgain :: r).drop k) = true) :
    l.ctlOe = true ∧ (k ≠ 3 → l.e = false) ∧ (k = 3 → l.e = true) ∧ (1 ≤ k → l.dir = .input) ∧
      (2 ≤ k → l.rs = .instruction ∧ l.rw = .read) := by
  obtain rfl | rfl | rfl | rfl | rfl : k = 0 ∨ k = 1 ∨ k = 2 ∨ k = 3 ∨ k = 4 := by omega
  all_goals
    simp [busRead, Lines.admits, Lines.polled, Lines.quiet] at h
    simp_all

/-- The place `k` of a poll of a device that is busy for ever, with all that the next event needs. -/
structure PollingAt (k : Nat) (r : List Micro) (fin : Finish) (s : State) : Prop where
  timing : s.platform.strobeTimingOK = true
  modelled : s.lcd.device.unmodelled = false
  busy : s.lcd.device.busy = .forever
  seq : s.seq = .running ((busRead ++ Micro.pollAgain :: r).drop k) fin
  place : k ≤ 4
  ctlOe : s.ctlOe = true
  low : k ≠ 3 → s.e = false
  high : k = 3 → s.e = true
  dir : 1 ≤ k → s.dir = .input
  ctl : 2 ≤ k → s.rs = .instruction ∧ s.rw = .read
  pulse : k = 3 → s.platform.cPwE ≤ s.dcnt
  sample : k = 4 → busyFlag s.dbIn = true

theorem PollingAt.forever {k : Nat} {r : List Micro} {fin : Finish} {s : State}
    (h : PollingAt k r fin s) : PollsForever s :=
  ⟨h.timing, h.modelled, h.busy, k, r, fin, h.seq, h.place, h.pulse, h.sample⟩

/-- In a state of the invariant the lines fit the place. -/
theorem PollsForever.at {s : State} (hi : Inv s) (h : PollsForever s) :
    ∃ k r fin, PollingAt k r fin s := by
  obtain ⟨k, r, fin, hq, hk, h3, h4⟩ := h.polling
  obtain ⟨hc, he, hh, hd, hr⟩ := polling_lines hk (hi.fits hq).2.2
  exact ⟨k, r, fin, h.timing, h.modelled, h.busy, hq, hk, hc, he, hh, hd, hr, h3, h4⟩

/-- A driven block that is about to wait for the busy flag. -/
theorem PollingAt.start {s : State} (ht : s.platform.strobeTimingOK = true) (hc : s.ctlOe = true)
    (he : s.e = false) (hm : s.lcd.device.unmodelled = false)
    (hb : s.lcd.device.busy = .forever) (r : List Micro) (fin : Finish) :
    PollingAt 0 r fin (s.goOn (waitIdle ++ r) fin) :=
  ⟨ht, hm, hb, by simp [waitIdle], by omega, hc, fun _ => he, by omega, by omega, by omega, by omega,
    by omega⟩

/-- One event of the loop. -/
theorem PollingAt.event {k : Nat} {r : List Micro} {fin : Finish} {s : State}
    (h : PollingAt k r fin s) :
    ∃ j t, microStep ((busRead ++ Micro.pollAgain :: r).drop k) fin s = .next t ∧
      PollingAt j r fin t ∧ PolledOn 1 s t ∧ t.rspValid = false := by
  obtain ⟨ht, hm, hb, -, hk, hc, he, hh, hd, hr, h3, h4⟩ := h
  have dir : s.e = false → ∃ t, continueWith (busRead.tail ++ .pollAgain :: r) fin
      (setDir .input s) = .next t ∧ PollingAt 1 r fin t ∧ PolledOn 1 s t ∧
        t.rspValid = false := by
    intro he
    obtain ⟨t, hx, v⟩ := setDir_next he .input
    have hp : t.platform = s.platform := view_field v State.platform
    have hl : t.lcd = s.lcd := view_field v State.lcd
    refine ⟨_, continueWith_next hx _ _, ⟨hp ▸ ht, hl ▸ hm, hl ▸ hb, rfl, by omega,
      (view_field v State.ctlOe).trans hc, fun _ => (view_field v State.e).trans he, by omega,
      fun _ => view_field v State.dir, by omega, by omega, by omega⟩, ?_,
      view_field v State.rspValid⟩
    exact .one (view_field v State.drvState) (view_field v State.dbOut)
      (congrArg Lcd.device hl) (view_field v State.responses) (view_field v State.pace)
      (view_field v State.trace) (by simp)
  obtain rfl | rfl | rfl | rfl | rfl : k = 0 ∨ k = 1 ∨ k = 2 ∨ k = 3 ∨ k = 4 := by omega
  · exact ⟨1, dir (he (by omega))⟩
  · obtain ⟨t, hx, v⟩ := setCtl_next (he (by omega)) .instruction .read
    have hp : t.platform = s.platform := view_field v State.platform
    have hl : t.lcd = s.lcd := view_field v State.lcd
    refine ⟨2, _, continueWith_next hx _ _, ⟨hp ▸ ht, hl ▸ hm, hl ▸ hb, rfl, by omega,
      (view_field v State.ctlOe).trans hc, fun _ => (view_field v State.e).trans (he (by omega)),
      by omega, fun _ => (view_field v State.dir).trans (hd (by omega)),
      fun _ => ⟨view_field v State.rs, view_field v State.rw⟩, by omega, by omega⟩, ?_,
      view_field v State.rspValid⟩
    exact .one (view_field v State.drvState) (view_field v State.dbOut)
      (congrArg Lcd.device hl) (view_field v State.responses) (view_field v State.pace)
      (view_field v State.trace) (by simp)
  · have hx := sampleUp_next (he (by omega)) (hd (by omega)) (hr (by omega)).2
    have v := raiseE_view (s := s)
    refine ⟨3, _, continueWith_next hx _ _, ⟨ht, hm, hb, rfl, by omega, by simpa using hc,
      by omega, fun _ => view_field v State.e,
      fun _ => (view_field v State.dir).trans (hd (by omega)),
      fun _ => ⟨(view_field v State.rs).trans (hr (by omega)).1,
        (view_field v State.rw).trans (hr (by omega)).2⟩,
      fun _ => by simp, by omega⟩, ?_, view_field v State.rspValid⟩
    exact .one (view_field v State.drvState) (view_field v State.dbOut) rfl
      (view_field v State.responses) (view_field v State.pace) (view_field v State.trace) (by simp)
  · obtain ⟨hrs, hrw⟩ := hr (by omega)
    obtain ⟨t, hx, v⟩ := sampleFall_next (hh rfl) (hd (by omega)) hrw hc ht (h3 rfl)
    rw [hrs] at v
    have hp : t.platform = s.platform := view_field v State.platform
    have hl : t.lcd = s.lcd.afterStatus := view_field v State.lcd
    have hdev : t.lcd.device = s.lcd.device := by rw [hl]; exact Lcd.afterStatus_forever hm hb
    have hf : busyFlag t.dbIn = true := by
      rw [show t.dbIn = s.lcd.statusAnswer from view_field v State.dbIn]
      exact (Lcd.busyFlag_statusAnswer hm).trans (by rw [hb]; decide)
    refine ⟨4, _, continueWith_next hx _ _, ⟨hp ▸ ht, hdev ▸ hm, hdev ▸ hb, rfl, le_rfl,
      (view_field v State.ctlOe).trans hc, fun _ => view_field v State.e, by omega,
      fun _ => (view_field v State.dir).trans (hd (by omega)),
      fun _ => ⟨(view_field v State.rs).trans hrs, (view_field v State.rw).trans hrw⟩,
      by omega, fun _ => hf⟩, ?_, view_field v State.rspValid⟩
    exact .one (view_field v State.drvState) (view_field v State.dbOut) hdev
      (view_field v State.responses) (view_field v State.pace) (view_field v State.trace) (by simp)
  · obtain ⟨t, hx, hy⟩ := dir (he (by omega))
    refine ⟨1, t, Eq.trans ?_ hx, hy⟩
    show microStep (.pollAgain :: r) fin s = _
    simp only [microStep, h4 rfl, if_true]

/-- Any number of events of the loop, at least one. -/
theorem PollingAt.events (n : Nat) : ∀ {k : Nat} {r : List Micro} {fin : Finish} {s : State},
    PollingAt k r fin s → ∃ t, runEvents (n + 1) s = .next t ∧ PollsForever t ∧
      PolledOn (n + 1) s t ∧ t.rspValid = false := by
  induction n with
  | zero =>
    intro k r fin s h
    obtain ⟨j, t, ht, hp, hv⟩ := h.event
    exact ⟨t, by simp only [runEvents, h.seq, ht], hp.forever, hv⟩
  | succ n ih =>
    intro k r fin s h
    obtain ⟨j, t, ht, hp, hv, -⟩ := h.event
    obtain ⟨u, hu, hp', hv', hx⟩ := ih hp
    refine ⟨u, ?_, hp', Nat.add_comm 1 (n + 1) ▸ hv.trans hv', hx⟩
    rw [runEvents]
    simp only [h.seq, ht]
    exact hu

end Sys2Proof.Machine
end

