-- ==== Sys2Proof/Tests/Slice0.lean ====
section
/-! SUPPORT. Tests of the model against spec/95_test_vectors.md, and a witness for the hypotheses of every
statement. The platform `bench` is the one of V-TIME-1; every gap is at its bound and every draw is listed. -/

namespace Sys2Proof.Tests

open Sys2Proof.Machine

/-! ### Fixtures -/

/-- A platform on which R288 and R289 hold, with the figures of V-TIME-1. -/
def bench : Platform where
  fClk := 1000000
  cPowerup := 100
  cSettle := 50
  cAs := 1
  cPwE := 4
  cH := 1
  cELow := 1
  hasBoundedWait := true
  pinMap := List.range 11
  devPulse := 1000000
  devReadDelay := 1000000
  devSetup := 1000000
  devHold := 1000000
  devEnableCycle := 5000000
  devPowerOn := 100000000
  devSettle := 50000000

/-- An initialized device (V-L1-3), idle, its address counter at `ac`. -/
def display (ac : Addr7) : Device where
  if8 := true
  n2 := true
  f10 := false
  d := true
  c := false
  b := false
  id := true
  s := false
  ac := ac
  ddram := Memory.allCleared
  busy := .finite 0
  unmodelled := false
  seqPos := 0

/-- The device agent with listed draws. -/
def lcdWith (d : Device) : Lcd where
  device := d
  busyDraws := List.replicate 12 (.finite 0)
  byteDraws := [0x00, 0x01, 0x02, 0x7F, 0xFF]
  free := 1

/-- A Ready block between commands, with this device. -/
def readyWith (d : Device) : State :=
  { State.reset with
    drvState := .ready
    dir := .output
    ctlOe := true
    lcd := lcdWith d
    platform := bench
    stretches := List.replicate 128 0
    pace := 99 }

/-- A Ready block with an idle device at address 0. -/
def ready : State := readyWith (display 0)

/-- A Ready block with a device that answers busy as `q` says. -/
def busyReady (q : Busy) : State := readyWith { display 0 with busy := q }

/-- A block after reset, with an initialized device. -/
def fresh : State := { ready with drvState := .uninitialized, dir := .input, ctlOe := false }

/-- What a step leaves, seen through `f`; nothing if it stops. -/
def after {α : Type} (o : Host.Outcome State Fault Refusal) (f : State → α) : Option α :=
  match o with
  | .next t => some (f t)
  | .fault _ => none
  | .refused _ => none

/-- The response a step leaves, with the number of events. -/
def reply (t : State) : Bool × RspCode × Byte × Nat :=
  (t.rspValid, t.rspCode, t.rspData, t.trace.length)

/-! ### WellFormed: each check refuses an ill-formed term -/

theorem test_wellFormed_waitb_absent : (Instr.waitb 3).wellFormed false = false := by decide
theorem test_wellFormed_waitb_present : (Instr.waitb 3).wellFormed true = true := by decide
theorem test_wellFormed_bench : bench.wellFormed = true := by decide
theorem test_wellFormed_clock : Platform.wellFormed { bench with fClk := 0 } = false := by decide
theorem test_wellFormed_powerup :
    Platform.wellFormed { bench with cPowerup := 0 } = false := by decide
theorem test_wellFormed_settle : Platform.wellFormed { bench with cSettle := 0 } = false := by decide
theorem test_wellFormed_setup : Platform.wellFormed { bench with cAs := 0 } = false := by decide
theorem test_wellFormed_pulse : Platform.wellFormed { bench with cPwE := 2 } = false := by decide
theorem test_wellFormed_hold : Platform.wellFormed { bench with cH := 0 } = false := by decide
theorem test_wellFormed_low : Platform.wellFormed { bench with cELow := 0 } = false := by decide
theorem test_wellFormed_pins_missing :
    Platform.wellFormed { bench with pinMap := List.range 10 } = false := by decide
theorem test_wellFormed_pins_shared :
    Platform.wellFormed { bench with pinMap := 0 :: List.range 10 } = false := by decide
theorem test_wellFormed_asm :
    [Asm.cmd 256, .putc 256, .goto 256 1, .goto 1 256, .waitb 256, .entry 2 0, .entry 0 2,
      .setaddr 128].all (fun a => !a.wellFormed && a.expand == none) = true := by decide

/-! ### Decoding: words written out from R70 to R74 and R78 (V-ENC-1, V-ENC-2) -/

theorem test_decode_init : decodeCommand true 0b00010000000000000000#20 = .ok .init := by decide
theorem test_decode_cmd : decodeCommand true 0b00100000000100000000#20 = .ok (.cmd 0x01) := by decide
theorem test_decode_putc :
    decodeCommand true 0b00110100100000000000#20 = .ok (.putc 0x48) := by decide
theorem test_decode_status : decodeCommand true 0b01000000000000000000#20 = .ok .status := by decide
theorem test_decode_waitidle :
    decodeCommand true 0b01010000000000000000#20 = .ok .waitidle := by decide
theorem test_decode_goto :
    decodeCommand true 0b01100000000100000010#20 = .ok (.goto 1 2) := by decide
theorem test_decode_waitb :
    decodeCommand true 0b01110000001100000000#20 = .ok (.waitb 3) := by decide
theorem test_decode_lcdClear : decodeLcd 0b00000001#8 = .lcdClear := by decide
theorem test_decode_lcdReturnHome : decodeLcd 0b00000011#8 = .lcdReturnHome 1 := by decide
theorem test_decode_lcdEntryMode : decodeLcd 0b00000110#8 = .lcdEntryMode 1 0 := by decide
theorem test_decode_lcdDisplayControl :
    decodeLcd 0b00001100#8 = .lcdDisplayControl 1 0 0 := by decide
theorem test_decode_lcdShift : decodeLcd 0b00011001#8 = .lcdShift 1 0 1 := by decide
theorem test_decode_lcdFunctionSet : decodeLcd 0b00110110#8 = .lcdFunctionSet 1 0 1 2 := by decide
theorem test_decode_lcdSetCgram : decodeLcd 0b01100001#8 = .lcdSetCgram 0x21 := by decide
theorem test_decode_lcdSetDdram : decodeLcd 0b11000100#8 = .lcdSetDdram 0x44 := by decide
theorem test_decode_lcdNone : decodeLcd 0b00000000#8 = .lcdNone := by decide
theorem test_decode_reserved_opcodes :
    [0x00000, 0x0FFFF, 0x80000, 0xF0000, 0xFFFFF].all
      (fun w => decodeCommand true w == .error .reservedOpcode) = true := by decide
theorem test_decode_reserved_fields :
    [0x10001, 0x10100, 0x20101, 0x348FF, 0x40001, 0x50100, 0x70301].all
      (fun w => decodeCommand true w == .error .reservedField) = true := by decide
theorem test_decode_waitb_absent :
    decodeCommand false 0x70300 = .error .boundedWaitAbsent := by decide

/-! ### Steps of the host commands -/

/-- V-INIT-1, V-TIME-1: the timed part's 27 events; the last at edge 3 + 100 + 3 * 58 + 8. -/
theorem test_init_timed :
    after (exec .init { fresh with pace := 26 }) (fun t => (t.events, t.cycle, t.drvState)) =
      some
        ([.enCtl, .dir .output, .wait .powerup] ++
          writeEvents .instruction 0x30 ++ [.wait .settle] ++
          writeEvents .instruction 0x30 ++ [.wait .settle] ++
          writeEvents .instruction 0x30 ++ [.wait .settle] ++
          writeEvents .instruction 0x38 ++ [.wait .settle], 285, .functionSet) := by decide +kernel

/-- V-INIT-1, V-INIT-3, V-L1-3: the synchronized part, from a device the timed part may leave. -/
theorem test_init_synchronized :
    after (runProgram configuredPart (.done .ok 0x00)
        { ready with drvState := .functionSet, lcd := lcdWith { display 0x31 with d := false } })
      (fun t => (reply t, t.drvState, t.dbOut, t.dbIn, t.lcd.device)) =
      some ((true, .ok, 0x00, 36), .ready, 0x0C, 0x00, display 0) := by decide +kernel

/-- V-CMD-2: five busy polls and an idle one before the write, 29 events. -/
theorem test_cmd_busy :
    after (exec (.cmd 0x01) (busyReady (.finite 5))) reply = some (true, .ok, 0x00, 29) := by decide +kernel

/-- V-CMD-1, V-TIME-1: 16 edges; display off. -/
theorem test_cmd_display_off :
    after (exec (.cmd 0x08) ready) (fun t => (reply t, t.cycle, t.lcd.device.d)) =
      some ((true, .ok, 0x00, 9), 16, false) := by decide +kernel

/-- V-PUTC-1. -/
theorem test_putc :
    after (exec (.putc 0x48) ready) (fun t =>
      (reply t, t.lcd.device.ddram.read 0x00, t.lcd.device.ac)) =
      some ((true, .ok, 0x00, 9), 0x48, 0x01) := by decide +kernel

/-- V-CMD-5: with decrement entry mode the address counter moves back. -/
theorem test_putc_decrement :
    after (exec (.putc 0x41) (readyWith { display 0x05 with id := false })) (fun t =>
      (t.lcd.device.ddram.read 0x05, t.lcd.device.ac)) = some (0x41, 0x04) := by decide +kernel

/-- V-STATUS-1, V-TIME-1. -/
theorem test_status_idle :
    after (exec .status (readyWith (display 0x44))) (fun t => (reply t, t.cycle)) =
      some ((true, .ok, 0x44, 4), 8) := by decide +kernel

/-- V-STATUS-2: busy in bit 7, BUSY counts down. -/
theorem test_status_busy :
    after (exec .status (busyReady (.finite 2))) (fun t =>
      (t.rspCode, busyFlag t.rspData, t.lcd.device.busy)) = some (.ok, true, .finite 1) := by decide +kernel

/-- V-L1-5, V-TIME-1: two busy polls, then the idle byte, 22 edges. -/
theorem test_waitidle :
    after (exec .waitidle (readyWith { display 0x05 with busy := .finite 2 })) (fun t =>
      (reply t, t.cycle)) = some ((true, .ok, 0x05, 12), 22) := by decide +kernel

/-- V-L1-1: the address, the byte on the data lines, the device's address counter. -/
theorem test_goto :
    after (exec (.goto 16 2) ready) (fun t => (reply t, t.dbOut, t.lcd.device.ac)) =
      some ((true, .ok, 0x4F, 9), 0xCF, 0x4F) := by decide +kernel

/-- V-L1-2, V-TIME-1: out of range, no event, one edge. -/
theorem test_goto_range :
    after (exec (.goto 17 1) ready) (fun t => (reply t, t.cycle)) =
      some ((true, .errRange, 0x00, 0), 1) := by decide +kernel

/-- V-WAITB-3, V-TIME-1: the third busy byte, 12 events, 22 edges. -/
theorem test_waitb_timeout :
    after (exec (.waitb 3) (busyReady .forever)) (fun t => (reply t, t.cycle)) =
      some ((true, .errTimeout, 0x82, 12), 22) := by decide +kernel

/-- V-WAITB-4: within the bound. -/
theorem test_waitb_ok :
    after (exec (.waitb 3) (readyWith { display 0x07 with busy := .finite 2 })) (fun t =>
      (reply t, t.pcnt)) = some ((true, .ok, 0x07, 12), 0) := by decide +kernel

/-! ### Steps of the LCD instruction bytes -/

/-- R228: the cells, AC, ID. -/
theorem test_lcdClear :
    after (exec .lcdClear (readyWith
      { display 0x05 with id := false, ddram := ⟨.cleared, [(5, 0x41)]⟩ }))
      (fun t => (t.lcd.device.ddram, t.lcd.device.ac, t.lcd.device.id)) =
      some (Memory.allCleared, 0x00, true) := by decide +kernel

/-- V-CMD-6: home, DDRAM unchanged. -/
theorem test_lcdReturnHome :
    after (exec (.lcdReturnHome 0)
      (readyWith { display 0x05 with ddram := ⟨.cleared, [(5, 0x41)]⟩ }))
      (fun t => (t.lcd.device.ac, t.lcd.device.ddram.read 5)) = some (0x00, 0x41) := by decide +kernel

/-- R230: entry 0x05. -/
theorem test_lcdEntryMode :
    after (exec (decodeLcd 0x05) ready) (fun t => (t.lcd.device.id, t.lcd.device.s)) =
      some (false, true) := by decide +kernel

/-- R231: display control 0x0A. -/
theorem test_lcdDisplayControl :
    after (exec (decodeLcd 0x0A) ready)
      (fun t => (t.lcd.device.d, t.lcd.device.c, t.lcd.device.b)) =
      some (false, true, false) := by decide +kernel

/-- V-CMD-6. -/
theorem test_lcdShift :
    after (exec (decodeLcd 0x18) ready) (·.lcd.device.unmodelled) = some true := by decide +kernel

/-- V-CMD-4: 0x38 changes nothing. -/
theorem test_lcdFunctionSet_same :
    after (exec (decodeLcd 0x38) ready) (·.lcd.device) = some (display 0) := by decide +kernel

/-- V-CMD-4: 0x28 and 0x3C. -/
theorem test_lcdFunctionSet_other :
    (after (exec (decodeLcd 0x28) ready) (·.lcd.device.unmodelled),
      after (exec (decodeLcd 0x3C) ready) (·.lcd.device.unmodelled)) =
      (some true, some true) := by decide +kernel

/-- V-CMD-6. -/
theorem test_lcdSetCgram :
    after (exec (decodeLcd 0x40) ready) (·.lcd.device.unmodelled) = some true := by decide +kernel

/-- V-CMD-6: 0xA7. -/
theorem test_lcdSetDdram :
    after (exec (decodeLcd 0xA7) ready) (·.lcd.device) = some (display 0x27) := by decide +kernel

/-- V-CMD-6: 0xE8. -/
theorem test_lcdSetDdram_hole :
    after (exec (decodeLcd 0xE8) ready) (·.lcd.device.unmodelled) = some true := by decide +kernel

/-- V-CMD-3. -/
theorem test_lcdNone :
    after (exec (decodeLcd 0x00) ready) (·.lcd.device.unmodelled) = some true := by decide +kernel

/-! ### The bus, the address sequence, reset -/

/-- V-BUS-4: a second poll right after a first changes only E. -/
theorem test_pinTrace_second_poll :
    pinTrace ⟨.input, .instruction, .read, 0x41⟩ (pollEvents 0x05) =
      [.eUp, .eDownSample 0x05] := by decide +kernel

/-- V-BUS-1: the first write after reset. -/
theorem test_pinTrace_first_write :
    pinTrace ⟨.output, .instruction, .write, 0x00⟩ (writeEvents .instruction 0x38) =
      [.data 0x38, .eUp, .eDown] := by decide +kernel

/-- R100, R39: after a reset the new INIT's Dir(Output) and Data(0x30) change pins again, though the last
program before the reset left the same levels. -/
theorem test_pinTrace_across_reset :
    pinTrace .atReset ([.enCtl, .dir .output, .data 0x30, .eUp] ++
        [.enCtl, .dir .output, .ctl .instruction .write, .data 0x30]) =
      [.enCtl, .dir .output, .data 0x30, .eUp, .enCtl, .dir .output, .data 0x30] := by
  decide +kernel

/-- R289: without DelaySufficient the end of INIT leaves a device of any value; with it, the same one. -/
theorem test_afterInit :
    ((lcdWith (display 0)).afterInit { bench with cSettle := 1 }).device =
        Device.any 1 (Config.freeBit 1 8) ∧
      ((lcdWith (display 0)).afterInit bench).device = display 0 := ⟨rfl, rfl⟩

/-- R33, R105, R107: after the `Ctl` of a write DCNT holds C_AS; the `Data` one edge later leaves the rest of
it, and E rises that many edges after. -/
theorem test_dcnt_setup :
    after (runProgram (busWrite .instruction 0x38).tail (.done .ok 0x00)
        { ready with platform := { bench with cAs := 3 }, pace := 0 })
      (fun t => (t.trace, t.dcnt)) = some ([(1, .ctl .instruction .write)], 3) ∧
    after (runProgram (busWrite .instruction 0x38).tail (.done .ok 0x00)
        { ready with platform := { bench with cAs := 3 }, pace := 1 })
      (fun t => (t.trace, t.dcnt)) =
        some ([(2, .data 0x38), (1, .ctl .instruction .write)], 2) ∧
    after (runProgram (busWrite .instruction 0x38).tail (.done .ok 0x00)
        { ready with platform := { bench with cAs := 3 }, pace := 2 })
      (fun t => (t.trace, t.dcnt)) =
        some ([(4, .eUp), (2, .data 0x38), (1, .ctl .instruction .write)], 4) := by decide +kernel

/-- R243: the screen has no cell (17, 1), (0, 1) or (1, 3). -/
theorem test_screen_cells :
    [ready.screen 1 1, ready.screen 16 2, ready.screen 17 1, ready.screen 0 1, ready.screen 1 3] =
      [some 0x20, some 0x20, none, none, none] := by decide +kernel

/-- V-BUS-7. -/
theorem test_transport_strobe_input :
    strobeUp { ready with dir := .input } = .fault .transportPrecondition := rfl
theorem test_transport_sample_output : sampleUp ready = .fault .transportPrecondition := rfl
theorem test_transport_setDir_strobing :
    setDir .input { ready with e := true } = .fault .transportPrecondition := rfl

/-- V-DEV-1. -/
theorem test_nextAddr :
    [nextAddr 0x00 true, nextAddr 0x0F true, nextAddr 0x27 true, nextAddr 0x4F true,
      nextAddr 0x67 true, nextAddr 0x05 false, nextAddr 0x40 false, nextAddr 0x00 false] =
      [0x01, 0x10, 0x40, 0x50, 0x00, 0x04, 0x27, 0x67] := by decide +kernel

/-- R237 gives no next address for a one-line device, nor an increment from 0x7F (log 24). -/
theorem test_nextAc_not_stated :
    Device.nextAc 5 { display 0x05 with n2 := false } = Config.freeAddr 5 ∧
      Device.nextAc 5 (display 0x7F) = Config.freeAddr 5 ∧ Device.nextAc 5 (display 0x67) = 0x00 :=
  ⟨rfl, rfl, rfl⟩

/-- V-DEV-4: a data write to a busy device. -/
theorem test_latchData_busy :
    (latchData 0x41 (busyReady (.finite 1))).lcd.device.unmodelled = true := by decide +kernel

/-- V-RST-1. -/
theorem test_reset_ports :
    after (step { busyReady .forever with
      host := [.reset], seq := .running busRead .sampled, rspCode := .errRange })
      (fun t => (t.ports.cmdReady, t.drvState, t.dir, t.ctlOe, t.rspValid, t.rspCode)) =
      some (true, .uninitialized, .input, false, false, .ok) := by decide +kernel

/-- V-RST-3: a reset inside a strobe. -/
theorem test_reset_strobing :
    after (step { (ready.placeLcdByte 0x01) with host := [.reset] })
      (fun t => (t.e, t.lcd.device.unmodelled)) = some (false, true) := by decide +kernel

/-- V-ENC-3: 0x20101 in Uninitialized is illegal before it is out of state. -/
theorem test_priority_illegal :
    after (step (fresh.placeCommand 0x20101)) reply = some (true, .errIllegal, 0x00, 0) := by decide +kernel

/-- V-ENC-3: GOTO 0, 1 in Uninitialized is out of state before it is out of range. -/
theorem test_priority_state :
    after (step (fresh.placeCommand 0x60001)) reply = some (true, .errState, 0x00, 0) := by decide +kernel

/-- V-L1-4 (b): the renderer's expansion. -/
theorem test_render :
    Asm.words (.render [0x48, 0x0A, 0x57]) = some [0x34800, 0x60102, 0x35700] := by decide +kernel

/-! ### Witnesses: states and operands that meet the statements' hypotheses -/

/-- A Ready block's bus between commands. -/
theorem operable_ready (q : Busy) : Operable (busyReady q) where
  ready := rfl
  driven := rfl
  low := rfl
  wellFormed := by show bench.wellFormed = true; decide
  timing := by show bench.strobeTimingOK = true; decide
  ddram := by show Memory.allCleared.wf = true; decide

theorem inv_ready (q : Busy) : Inv (busyReady q) where
  platform := by show bench.wellFormed = true; decide
  ddram := by show Memory.allCleared.wf = true; decide
  strobing h := by cases h
  writing h := by cases h
  reading h := by cases h
  released h := by cases h
  driven _ h := by cases h
  seqFits := ⟨rfl, .inr ⟨rfl, rfl⟩⟩
  busyRule := rfl

/-- The state in which the byte of a write strobe is about to be latched. -/
def strobing : State := { ready.placeLcdByte 0x38 with pace := 0 }

theorem inv_strobing : Inv strobing where
  platform := by show bench.wellFormed = true; decide
  ddram := by show Memory.allCleared.wf = true; decide
  strobing _ := ⟨[], .done .ok 0x00, .inl rfl⟩
  writing _ _ := rfl
  reading _ h := by cases h
  released h := by cases h
  driven _ h := by cases h
  seqFits := ⟨by decide, fun c v h => by cases h⟩
  busyRule := rfl

theorem spaced_ready (q : Busy) : Spaced (busyReady q) where
  trace := trivial
  ctl := rfl
  fall := rfl
  past t ev h := by cases h
  next t ev h := by cases h

/-- A step answers a next state. -/
def Goes (s : State) : Prop := ∃ t, step s = .next t

theorem goes_ready : Goes ready := ⟨_, rfl⟩
theorem goes_strobing : Goes strobing := ⟨_, rfl⟩

theorem witness_EncodedInstructionDecodesBack :
    (Instr.waitb 255).wellFormed true = true ∧ (Instr.goto 0 255).wellFormed false = true := by
  decide

theorem witness_DecodedWordEncodesBack :
    decode true (.command 0x7FF00) = .ok (.waitb 255) ∧
      decode false (.lcdByte 0xFF) = .ok (.lcdSetDdram 0x7F) := by decide

theorem witness_EveryWordIsOneLegalRowOrIllegal :
    decodeCommand true 0x6FFFF = .ok (.goto 255 255) ∧
      decodeCommand true 0x80000 = .error .reservedOpcode ∧
      (⟨20, 0x60000, 0xF0000⟩ : TableRow) ∈ commandRows ∧
      (⟨20, 0x60000, 0xF0000⟩ : TableRow).matches 0x6FFFF = true := by decide

theorem witness_StepRunsLatchedCommand :
    (ready.placeCommand 0x2FF00).rstNow = false ∧ (ready.placeCommand 0x2FF00).seq = .decode ∧
      (ready.placeCommand 0x2FF00).cmdOp = opField 0x2FF00 ∧
      (ready.placeCommand 0x2FF00).cmdA = aField 0x2FF00 ∧
      (ready.placeCommand 0x2FF00).cmdB = bField 0x2FF00 ∧
      decodeCommand bench.hasBoundedWait 0x2FF00 = .ok (.cmd 0xFF) := by decide

theorem witness_StepRunsLcdByteAtFallingEdge :
    strobing.rstNow = false ∧ strobing.pace = 0 ∧
      strobing.seq = .running [.strobeDown] (.done .ok 0x00) ∧ strobing.e = true ∧
      strobing.ctlOe = true ∧ strobing.dir = .output ∧ strobing.rw = .write ∧
      strobing.rs = .instruction := by decide

/-- A host that offers a word to an idle block, at once or after an OK response, and to one in DECODE. -/
theorem witness_OfferedCommandIsAccepted :
    State.cmdReady { ready with host := [.offer 0x40000] } = true ∧
      State.cmdReady { ready with host := [.offerIfOk 0x40000] } = true ∧ ready.rspCode = .ok ∧
      { ready.placeCommand 0x40000 with host := [.offer 0x40000] }.seq ≠ .idle ∧
      Goes { ready.placeCommand 0x40000 with host := [.offer 0x40000] } ∧
      { ready.placeCommand 0x40000 with host := [.offerIfOk 0x40000] }.seq ≠ .idle ∧
      Goes { ready.placeCommand 0x40000 with host := [.offerIfOk 0x40000] } :=
  ⟨by decide, by decide, rfl, by decide, ⟨_, rfl⟩, by decide, _, rfl⟩

/-- A quiet host, and one that already offers its next word. -/
theorem witness_IllegalWordIsAnsweredErrIllegal :
    (fresh.placeCommand 0xF0000).rstNow = false ∧ (fresh.placeCommand 0xF0000).seq = .decode ∧
      State.rstNow { fresh.placeCommand 0xF0000 with host := [.offer 0x10000] } = false ∧
      (fresh.placeCommand 0xF0000).cmdOp = opField 0xF0000 ∧
      (fresh.placeCommand 0xF0000).cmdA = aField 0xF0000 ∧
      (fresh.placeCommand 0xF0000).cmdB = bField 0xF0000 ∧
      decodeCommand bench.hasBoundedWait 0xF0000 = .error .reservedOpcode := by decide

theorem witness_CommandOutOfStateIsAnsweredErrState :
    ready.drvState ≠ .uninitialized ∧ fresh.drvState ≠ .ready ∧
      fresh.platform.hasBoundedWait = true := by decide

/-- Each clause at its boundary: x = 0, x = 17, y = 0, y = 3. -/
theorem witness_GotoOutOfRangeIsAnsweredErrRange :
    ready.drvState = .ready ∧ ((0 : Byte) = 0) ∧ 16 < (17 : Byte).toNat ∧
      ((0 : Byte) ≠ 1 ∧ (0 : Byte) ≠ 2) ∧ ((3 : Byte) ≠ 1 ∧ (3 : Byte) ≠ 2) := by decide

theorem witness_ErrorsKeepTheirPriority :
    (fresh.placeCommand 0x20101).rstNow = false ∧ (fresh.placeCommand 0x20101).seq = .decode ∧
      (fresh.placeCommand 0x20101).latched = .error .reservedField ∧
      (fresh.placeCommand 0x60001).latched = .ok (.goto 0 1) ∧
      (fresh.placeCommand 0x60001).drvState ≠ .ready ∧
      (ready.placeCommand 0x60001).latched = .ok (.goto 0 1) ∧
      (ready.placeCommand 0x60001).drvState = .ready ∧ inRange 0 1 = false ∧
      inRange 17 1 = false ∧ inRange 1 3 = false := by decide

/-- A step that answers, and one that does not. -/
theorem witness_ResponseIsOnePulseAndHolds :
    ready.rstNow = false ∧ Goes (ready.placeCommand 0x60001) ∧ Goes ready :=
  ⟨rfl, ⟨_, rfl⟩, goes_ready⟩

/-- A step that does not accept a word, and one that does. -/
theorem witness_CommandLatchChangesOnlyAtAcceptance :
    strobing.rstNow = false ∧ after (step strobing) (·.seq == .decode) = some false ∧
      State.rstNow { ready with host := [.offer 0x40000] } = false ∧
      after (step { ready with host := [.offer 0x40000] }) (·.seq == .decode) = some true := by
  decide +kernel

/-- V-INIT-2's draws: the display off busy once, the clear three times. -/
def longClear : State :=
  { fresh with
    lcd :=
      { fresh.lcd with
        busyDraws :=
          [.finite 9, .finite 9, .finite 9, .forever, .finite 1, .finite 3, .finite 0, .finite 5] } }

theorem witness_InitCompletes :
    longClear.drvState = .uninitialized ∧ longClear.ctlOe = false ∧ longClear.e = false ∧
      longClear.platform.wellFormed = true ∧ longClear.platform.strobeTimingOK = true ∧
      longClear.platform.delaySufficient = true ∧
      longClear.lcd.busyDraws =
        .finite 9 :: .finite 9 :: .finite 9 :: .forever :: .finite 1 :: .finite 3 :: .finite 0 ::
          .finite 5 :: [] ∧
      63 + 4 * (1 + 3 + 0) ≤ longClear.pace := by decide

theorem witness_CmdCompletes :
    Operable (busyReady (.finite 2)) ∧ (busyReady (.finite 2)).lcd.busyFor 2 ∧
      4 * (2 + 1) + 5 ≤ (busyReady (.finite 2)).pace :=
  ⟨operable_ready _, ⟨rfl, rfl⟩, by decide⟩

/-- With the display shift off, at the ends of the two-line map, and with it on. -/
theorem witness_PutcCompletes :
    Operable ready ∧ ready.lcd.busyFor 0 ∧ 4 * (0 + 1) + 5 ≤ ready.pace ∧
      ready.lcd.device.s = false ∧ ready.lcd.device.if8 = true ∧ ready.lcd.device.n2 = true ∧
      ([0x00, 0x27, 0x40, 0x67].all fun a =>
        inTwoLineMap (readyWith (display a)).lcd.device.ac) = true ∧
      (readyWith { display 0 with s := true }).lcd.device.s = true :=
  ⟨operable_ready _, ⟨rfl, rfl⟩, by decide, rfl, rfl, rfl, by decide, rfl⟩

theorem witness_StatusCompletes :
    Operable (busyReady .forever) ∧ 4 ≤ (busyReady .forever).pace ∧
      ready.lcd.device.unmodelled = false ∧ ready.lcd.device.busy = .finite 0 ∧
      (busyReady .forever).lcd.device.busy ≠ .finite 0 :=
  ⟨operable_ready _, by decide, rfl, rfl, by decide⟩

theorem witness_WaitidleCompletes :
    Operable (busyReady (.finite 23)) ∧ (busyReady (.finite 23)).lcd.busyFor 23 ∧
      4 * (23 + 1) ≤ (busyReady (.finite 23)).pace :=
  ⟨operable_ready _, ⟨rfl, rfl⟩, by decide⟩

/-- The four corners, and a device in one-line mode. -/
theorem witness_GotoCompletes :
    Operable ready ∧ ready.lcd.busyFor 0 ∧ 4 * (0 + 1) + 5 ≤ ready.pace ∧
      1 ≤ (1 : Byte).toNat ∧ (16 : Byte).toNat ≤ 16 ∧ ((2 : Byte) = 1 ∨ (2 : Byte) = 2) ∧
      ready.lcd.device.if8 = true ∧ ready.lcd.device.n2 = true ∧
      (readyWith { display 0 with n2 := false }).lcd.device.n2 = false :=
  ⟨operable_ready _, ⟨rfl, rfl⟩, by decide, by decide, by decide, by decide, rfl, rfl, rfl⟩

theorem witness_WaitbCompletesWithinBound :
    Operable (busyReady (.finite 2)) ∧ (busyReady (.finite 2)).platform.hasBoundedWait = true ∧
      (busyReady (.finite 2)).lcd.busyFor 2 ∧ 2 < (3 : Byte).toNat ∧
      4 * (2 + 1) ≤ (busyReady (.finite 2)).pace :=
  ⟨operable_ready _, rfl, ⟨rfl, rfl⟩, by decide, by decide⟩

/-- Busy for ever; as many polls as allowed; none allowed. -/
theorem witness_WaitbTimesOut :
    Operable (busyReady .forever) ∧ (busyReady .forever).platform.hasBoundedWait = true ∧
      (busyReady .forever).lcd.device.unmodelled = false ∧
      (busyReady .forever).lcd.device.busy = .forever ∧
      (∃ k, (busyReady (.finite 3)).lcd.device.busy = .finite k ∧ (3 : Byte).toNat ≤ k) ∧
      (∃ k, ready.lcd.device.busy = .finite k ∧ (0 : Byte).toNat ≤ k) ∧
      4 * (3 : Byte).toNat ≤ (busyReady .forever).pace :=
  ⟨operable_ready _, rfl, rfl, rfl, ⟨3, rfl, by decide⟩, ⟨0, rfl, by decide⟩, by decide⟩

/-- A Ready block whose device will need three more reads for the next byte. -/
def slowReady : State := { ready with lcd := { ready.lcd with busyDraws := [.finite 3] } }

/-- A device that takes an instruction byte: the hypothesis of the statements about them. -/
theorem witness_Takes : Takes ready where
  timing := by decide
  modelled := rfl
  idle := rfl
  if8 := rfl

theorem witness_ClearDisplayCompletes : Takes ready := witness_Takes
theorem witness_ReturnHomeCompletes : Takes ready := witness_Takes
theorem witness_EntryModeCompletes : Takes ready := witness_Takes
theorem witness_DisplayControlCompletes : Takes ready := witness_Takes

/-- Every clause at the ends of its range. -/
theorem witness_SetDdramCompletes :
    Takes ready ∧ ready.lcd.device.n2 = true ∧ (0x27 : Addr7).toNat ≤ 0x27 ∧
      0x40 ≤ (0x40 : Addr7).toNat ∧ (0x67 : Addr7).toNat ≤ 0x67 ∧ 0x27 < (0x28 : Addr7).toNat ∧
      (0x3F : Addr7).toNat < 0x40 ∧ 0x67 < (0x68 : Addr7).toNat ∧
      (readyWith { display 0 with n2 := false }).lcd.device.n2 = false :=
  ⟨witness_Takes, rfl, by decide, by decide, by decide, by decide, by decide, by decide, rfl⟩

/-- The setting that changes nothing, and each bit that does. -/
theorem witness_FunctionSetCompletes :
    Takes ready ∧ continuesReset ready.lcd.device.seqPos 1 1 0 0 = false ∧
      ((0 : BitVec 1) = 1 ↔ ready.lcd.device.f10 = true) ∧
      ((1 : BitVec 1) = 1 ↔ ready.lcd.device.f10 = false) :=
  ⟨witness_Takes, rfl, by decide, by decide⟩

theorem witness_UnfollowedBytesSetUnmodelled : ready.platform.strobeTimingOK = true := by decide

/-- A busy device, and one in 4-bit mode. -/
theorem witness_WriteToBusyOrFourBitDeviceSetsUnmodelled :
    (busyReady (.finite 1)).platform.strobeTimingOK = true ∧
      (busyReady (.finite 1)).lcd.device.busy ≠ .finite 0 ∧
      (busyReady .forever).lcd.device.busy ≠ .finite 0 ∧
      (readyWith { display 0 with if8 := false }).lcd.device.if8 = false ∧
      ∀ dl n f x, decodeLcd 0x28 = .lcdFunctionSet dl n f x →
        continuesReset 0 dl n f x = false :=
  ⟨by decide, by decide, by decide, rfl, fun _ _ _ _ _ => by simp [continuesReset]⟩

/-- A first clear that is finished at once, and one that takes three more reads. -/
theorem witness_ClearTwiceIsClearOnce :
    (Takes ready ∧ ∃ t, exec .lcdClear ready = .next t ∧ t.lcd.busyFor 0) ∧
      (Takes slowReady ∧ ∃ t, exec .lcdClear slowReady = .next t ∧ t.lcd.busyFor 3) :=
  ⟨⟨witness_Takes, _, rfl, rfl, rfl⟩, ⟨by decide, rfl, rfl, rfl⟩, _, rfl, rfl, rfl⟩

theorem witness_ResetByInstructionRestoresDevice :
    ready.platform.strobeTimingOK = true ∧ ready.platform.delaySufficient = true := by decide

theorem witness_StatusReadOnlyCountsBusy :
    ready.lcd.device.unmodelled = false ∧ ready.lcd.device.busy = .finite 0 ∧
      (busyReady (.finite 1)).lcd.device.busy = .finite (0 + 1) ∧
      (busyReady .forever).lcd.device.busy = .forever := by decide

/-- The corners of the range, and the addresses at the ends of the image. -/
theorem witness_MapperLaws :
    inRange 1 1 = true ∧ inRange 16 1 = true ∧ inRange 1 2 = true ∧ inRange 16 2 = true ∧
      (15 : Byte).toNat ≤ 15 ∧ (0x0F : Addr7).toNat ≤ 0x0F ∧ 0x40 ≤ (0x40 : Addr7).toNat ∧
      (0x4F : Addr7).toNat ≤ 0x4F := by decide

theorem witness_NextAddressFollowsTwoLineMap :
    (0x00 : Addr7) ≠ 0x7F ∧ (0x7E : Addr7) ≠ 0x7F ∧
      [0x00, 0x27, 0x40, 0x67].all inTwoLineMap = true ∧ inTwoLineMap 0x28 = false := by decide

theorem witness_PseudoInstructionsExpand :
    (1 ≤ 1) ∧ (127 ≤ 127) ∧ ∀ c ∈ ([0x48, 0x0A] : List Byte), c ≠ 0x00 := by decide

/-- A reset outside and inside a strobe. -/
theorem witness_ResetEdgeRestoresRegisters :
    State.rstNow { strobing with host := [.reset] } = true := by decide

theorem witness_ResetTouchesDeviceOnlyInStrobe :
    State.rstNow { strobing with host := [.reset] } = true ∧
      Goes { strobing with host := [.reset] } ∧ strobing.e = true ∧
      State.rstNow { ready with host := [.reset] } = true ∧
      Goes { ready with host := [.reset] } ∧ ready.e = false :=
  ⟨by decide, ⟨_, rfl⟩, rfl, by decide, ⟨_, rfl⟩, rfl⟩

theorem witness_StepKeepsInvariant : Inv strobing ∧ Goes strobing := ⟨inv_strobing, goes_strobing⟩

theorem witness_StepNeverStops : Inv strobing := inv_strobing

theorem witness_StepKeepsEventSpacing :
    Inv (ready.placeCommand 0x40000) ∧ Spaced (ready.placeCommand 0x40000) ∧
      Goes (ready.placeCommand 0x40000) := by
  have h := inv_ready (.finite 0)
  have k := spaced_ready (.finite 0)
  refine ⟨⟨h.platform, h.ddram, ?_, h.writing, h.reading, h.released, h.driven, h.seqFits,
    h.busyRule⟩, ⟨k.trace, k.ctl, k.fall, k.past, k.next⟩, _, rfl⟩
  intro e
  cases e

theorem witness_NoBusContention : Inv strobing := inv_strobing

/-- DB0, DB7, RS and E have a pin, and pin 11 has no role. -/
theorem witness_PadsFollowPinMap :
    ready.platform.wellFormed = true ∧ ready.platform.pinMap[0]? = some 0 ∧
      ready.platform.pinMap[7]? = some 7 ∧ ready.platform.pinMap[8]? = some 8 ∧
      ready.platform.pinMap[9]? = some 9 ∧ ready.platform.pinMap[10]? = some 10 ∧
      11 ∉ ready.platform.pinMap := by decide

theorem witness_DrvStateMovesForward :
    Inv strobing ∧ strobing.rstNow = false ∧ Goes strobing ∧ strobing.drvState = .ready ∧
      strobing.ctlOe = true :=
  ⟨inv_strobing, rfl, goes_strobing, rfl, rfl⟩

theorem witness_OutputsHoldWhileStrobing :
    Inv strobing ∧ strobing.rstNow = false ∧ strobing.pace = 0 ∧ strobing.e = true ∧
      Goes strobing :=
  ⟨inv_strobing, rfl, rfl, rfl, goes_strobing⟩

/-- A Ready block whose device is unmodelled. -/
theorem witness_UnmodelledStays :
    Inv (readyWith { display 0 with unmodelled := true }) ∧
      (readyWith { display 0 with unmodelled := true }).drvState = .ready ∧
      (readyWith { display 0 with unmodelled := true }).lcd.device.unmodelled = true ∧
      Goes (readyWith { display 0 with unmodelled := true }) := by
  have h := inv_ready (.finite 0)
  exact ⟨⟨h.platform, h.ddram, h.strobing, h.writing, h.reading, h.released, h.driven, h.seqFits,
    h.busyRule⟩, rfl, rfl, _, rfl⟩

/-- Every command that waits without a bound. -/
theorem witness_BusyForeverNeverAnswers :
    Operable (busyReady .forever) ∧ (busyReady .forever).host = [] ∧
      (busyReady .forever).lcd.device.unmodelled = false ∧
      (busyReady .forever).lcd.device.busy = .forever ∧
      [Instr.cmd 0x01, .putc 0x41, .waitidle, .goto 16 2].all waitsForIdle = true :=
  ⟨operable_ready _, rfl, rfl, rfl, by decide⟩

theorem witness_GotoThenPutcShowsCharacter :
    Operable ready ∧ ready.lcd.busyFor 0 ∧
      ready.lcd.busyDraws = .finite 0 :: List.replicate 11 (.finite 0) ∧
      4 * (0 + 1) + 5 ≤ ready.pace ∧ ready.lcd.device.if8 = true ∧
      ready.lcd.device.n2 = true ∧ ready.lcd.device.s = false ∧ ready.lcd.device.d = true ∧
      inRange 16 2 = true :=
  ⟨operable_ready _, ⟨rfl, rfl⟩, rfl, by decide, rfl, rfl, rfl, rfl, by decide⟩

/-- A one-line device in 4-bit mode, one at the last address, and one whose counter moves back. -/
theorem witness_PutcOffTheTwoLineMapCompletes :
    Operable ready ∧ ready.lcd.busyFor 0 ∧ 4 * (0 + 1) + 5 ≤ ready.pace ∧
      (readyWith { display 0x7F with if8 := false, n2 := false }).lcd.device.s = false ∧
      (readyWith { display 0x7F with id := false }).lcd.device.n2 = true ∧
      ¬ ((readyWith { display 0x7F with id := false }).lcd.device.id = true ∧
        (readyWith { display 0x7F with id := false }).lcd.device.ac = 0x7F) ∧
      ¬ ((readyWith (display 0x7E)).lcd.device.id = true ∧
        (readyWith (display 0x7E)).lcd.device.ac = 0x7F) :=
  ⟨operable_ready _, ⟨rfl, rfl⟩, by decide, rfl, rfl, by decide, by decide⟩

/-- The strobing block with the events that led there. -/
def recorded : State :=
  { strobing with trace := [(4, .eUp), (3, .data 0x38), (2, .dir .output), (1, .enCtl)] }

theorem inv_recorded : Inv recorded where
  platform := by show bench.wellFormed = true; decide
  ddram := by show Memory.allCleared.wf = true; decide
  strobing _ := ⟨[], .done .ok 0x00, .inl rfl⟩
  writing _ _ := rfl
  reading _ h := by cases h
  released h := by cases h
  driven _ h := by cases h
  seqFits := ⟨by decide, fun c v h => by cases h⟩
  busyRule := rfl

theorem pinsRecorded_recorded : PinsRecorded recorded :=
  ⟨fun _ => by decide, fun h => by cases h⟩

/-- A block in a strobe, and one at which a reset cuts it. -/
theorem witness_StepKeepsPinRecord :
    Inv recorded ∧ PinsRecorded recorded ∧ Goes recorded ∧
      PinsRecorded { recorded with host := [.reset] } ∧ Goes { recorded with host := [.reset] } :=
  ⟨inv_recorded, pinsRecorded_recorded, ⟨_, rfl⟩,
    ⟨pinsRecorded_recorded.driven, pinsRecorded_recorded.released⟩, _, rfl⟩

/-- The same block after the strobe, about to drive the lines to what they are. -/
def levelled : State :=
  { recorded with
    e := false
    seq := .running [.setDir .output] (.done .ok 0x00)
    trace := (9, .wait .settle) :: recorded.trace }

/-- The end of a strobe, which changes E, and a `Dir(Output)` while the direction is Output. -/
theorem witness_PinTraceKeepsEventsThatChangePins :
    (Inv recorded ∧ PinsRecorded recorded ∧ recorded.rstNow = false ∧ recorded.pace = 0 ∧
      ∃ t c, step recorded = .next t ∧ t.trace = (c, .eDown) :: recorded.trace ∧
        t.e ≠ recorded.e) ∧
    (Inv levelled ∧ PinsRecorded levelled ∧ levelled.rstNow = false ∧ levelled.pace = 0 ∧
      ∃ t c, step levelled = .next t ∧ t.trace = (c, .dir .output) :: levelled.trace ∧
        t.pins = levelled.pins ∧ t.e = levelled.e ∧ t.ctlOe = levelled.ctlOe) := by
  refine ⟨⟨inv_recorded, pinsRecorded_recorded, rfl, rfl, _, _, rfl, rfl, by decide⟩,
    ⟨inv_recorded.platform, inv_recorded.ddram, nofun, fun _ _ => rfl, fun _ => nofun, nofun,
      fun _ => nofun, ⟨by decide, fun _ _ => nofun⟩, rfl⟩,
    ⟨fun _ => by decide, nofun⟩, rfl, rfl, _, _, rfl, rfl, rfl, rfl, rfl⟩

/-- WAITIDLE at the place `k` of a poll of a device that is busy for ever. -/
def pollingAt (k : Nat) : State :=
  { busyReady .forever with
    dir := .input
    rw := .read
    e := k == 3
    dbIn := 0x80
    dcnt := if k = 3 then 4 else 0
    seq := .running ((busRead ++ Micro.pollAgain :: []).drop k) .sampled
    trace := if k = 4 then [(9, .eDownSample 0x80)] else []
    pace := 0 }

theorem inv_pollingAt (k : Nat) (hk : k ≤ 4) : Inv (pollingAt k) := by
  obtain rfl | rfl | rfl | rfl | rfl : k = 0 ∨ k = 1 ∨ k = 2 ∨ k = 3 ∨ k = 4 := by omega
  all_goals
    refine ⟨by decide, by decide, fun h => ?_, fun _ h => ?_, fun _ _ => rfl, fun h => ?_, fun _ h => ?_,
      ⟨by decide, fun c v h => ?_⟩, by decide⟩
  all_goals first
    | exact ⟨_, _, .inr rfl⟩
    | cases h; rfl
    | cases h

theorem pollsForever_pollingAt (k : Nat) (hk : k ≤ 4) : PollsForever (pollingAt k) := by
  refine ⟨by show bench.strobeTimingOK = true; decide, rfl, rfl, k, [], .sampled, rfl, hk, ?_,
    fun _ => by show busyFlag 0x80 = true; decide⟩
  rintro rfl
  decide

/-- Every place of a poll. -/
theorem witness_PollingForeverStaysPolling :
    ∀ k ≤ 4, Inv (pollingAt k) ∧ PollsForever (pollingAt k) ∧ (pollingAt k).rstNow = false ∧
      Goes (pollingAt k) := by
  intro k hk
  refine ⟨inv_pollingAt k hk, pollsForever_pollingAt k hk, rfl, ?_⟩
  obtain rfl | rfl | rfl | rfl | rfl : k = 0 ∨ k = 1 ∨ k = 2 ∨ k = 3 ∨ k = 4 := by omega
  all_goals exact ⟨_, rfl⟩

/-- The block after reset, with these draws after display-off and the writes that follow. -/
def hangingInit (ks : List Nat) : State :=
  { fresh with
    lcd :=
      { fresh.lcd with
        busyDraws :=
          .finite 9 :: .finite 9 :: .finite 9 :: .forever :: (ks.map .finite ++ [.forever]) } }

/-- Busy for ever after display-off, after clear, and after entry mode. -/
theorem witness_InitOnBusyForeverDeviceKeepsPolling :
    fresh.drvState = .uninitialized ∧ fresh.ctlOe = false ∧ fresh.e = false ∧
      fresh.platform.strobeTimingOK = true ∧ fresh.platform.delaySufficient = true ∧
      (∀ ks, (hangingInit ks).lcd.busyDraws =
        .finite 9 :: .finite 9 :: .finite 9 :: .forever :: (ks.map .finite ++ .forever :: [])) ∧
      ∀ ks ∈ ([[], [2], [1, 3]] : List (List Nat)), ks.length ≤ 2 ∧
        36 + (ks.map fun k => 4 * (k + 1) + 5).sum ≤ (hangingInit ks).pace :=
  ⟨rfl, rfl, rfl, by decide, by decide, fun _ => rfl, by decide⟩

/-- No act, a quiet edge, and a word dropped after an error. -/
theorem witness_IdleEdgeChangesOnlySynchronizer :
    ready.seq = .idle ∧ ready.host = [] ∧
      { ready with host := [.quiet, .offer 0x40000] }.host = [.quiet, .offer 0x40000] ∧
      { ready with rspCode := .errRange }.rspCode ≠ .ok ∧
      after (step { ready with host := [.offerIfOk 0x40000], rspCode := .errRange })
        (fun t => (t.seq == .idle, t.host)) = some (true, []) := by decide +kernel

/-- STATUS one edge after the fall that ended the command before it, on a platform with a long C_E_LOW. -/
def readingSlowly : State :=
  { ready with
    seq := .running [.setCtl .instruction .read, .sampleUp, .sampleDown] .sampled
    dir := .input
    platform := { bench with cAs := 3, cELow := 9 }
    trace := [(7, .dir .input), (6, .eDown)]
    lastFall := some 6
    cycle := 7
    pace := 0 }

theorem inv_readingSlowly : Inv readingSlowly where
  platform := by decide
  ddram := by show Memory.allCleared.wf = true; decide
  strobing h := by cases h
  writing h := by cases h
  reading h := by cases h
  released h := by cases h
  driven _ h := by cases h
  seqFits := ⟨by decide, fun c v h => by cases h⟩
  busyRule := rfl

theorem spaced_readingSlowly : Spaced readingSlowly where
  trace := by
    refine ⟨⟨fun u old h => ?_, nofun⟩, ⟨fun _ _ => nofun, nofun⟩, trivial⟩
    cases h
    decide
  ctl := rfl
  fall := rfl
  past t ev h := by cases h; decide
  next t ev h := by cases h; decide

/-- INIT with its first `n` micro-operations done, as far as the lines and DRV_STATE show it. -/
def initFrom (n : Nat) (d : DrvState) (driven : Bool) : State :=
  { ready with
    seq := .running (initProgram.drop n) (.done .ok 0x00)
    drvState := d
    ctlOe := driven
    dir := if driven then .output else .input
    pace := 0 }

theorem inv_initFrom : Inv (initFrom 0 .uninitialized false) ∧ Inv (initFrom 3 .resetting true) := by
  refine ⟨⟨by decide, by decide, nofun, nofun, nofun, fun _ => ⟨rfl, rfl⟩, nofun, ⟨by decide, fun _ _ => nofun⟩, rfl⟩,
    ⟨by decide, by decide, nofun, nofun, nofun, nofun, fun _ => nofun, ⟨by decide, fun _ _ => nofun⟩, rfl⟩⟩

/-- A write phase about to drive the data lines. -/
def driving : State :=
  { ready with
    seq := .running [.driveDB 0x38, .strobeUp, .strobeDown] (.done .ok 0x00)
    pace := 0 }

theorem inv_driving : Inv driving :=
  ⟨by decide, by decide, nofun, nofun, nofun, nofun, fun _ => nofun, ⟨by decide, fun _ _ => nofun⟩, rfl⟩

/-- The step of a running program appends an event that keeps the program running. -/
def Appends (s : State) (ev : Event) : Prop :=
  ∃ t todo fin, step s = .next t ∧ t.seq = .running todo fin ∧
    t.trace.head?.map (·.2) = some ev

/-- No event has happened and no fall or `Ctl` is recorded. -/
theorem spaced_empty (s : State) (ht : s.trace = []) (hc : s.lastCtl = none) (hf : s.lastFall = none) :
    Spaced s :=
  ⟨by rw [ht]; trivial, by rw [ht, hc]; rfl, by rw [ht, hf]; rfl, by rw [ht]; exact fun _ _ => nofun,
    by rw [ht]; exact fun _ _ => nofun⟩

/-- R33, R106, R110: every kind of event; and after the `Ctl` of a read, what is left of C_E_LOW. -/
theorem witness_DelayCounterHoldsWhatIsDue :
    (Inv readingSlowly ∧ Spaced readingSlowly ∧
      ∃ t, step readingSlowly = .next t ∧ t.seq = .running [.sampleUp, .sampleDown] .sampled ∧
        t.trace = (8, .ctl .instruction .read) :: readingSlowly.trace ∧ t.dcnt = 7) ∧
    (Inv (pollingAt 0) ∧ Spaced (pollingAt 0) ∧ Appends (pollingAt 0) (.dir .input)) ∧
    (Inv (pollingAt 1) ∧ Spaced (pollingAt 1) ∧ Appends (pollingAt 1) (.ctl .instruction .read)) ∧
    (Inv (pollingAt 2) ∧ Spaced (pollingAt 2) ∧ Appends (pollingAt 2) .eUp) ∧
    (Inv (pollingAt 3) ∧ Spaced (pollingAt 3) ∧ ∃ v, Appends (pollingAt 3) (.eDownSample v)) ∧
    (Inv driving ∧ Spaced driving ∧ Appends driving (.data 0x38)) ∧
    (Inv strobing ∧ Spaced strobing ∧ Appends strobing .eDown) ∧
    (Inv (initFrom 0 .uninitialized false) ∧ Spaced (initFrom 0 .uninitialized false) ∧
      Appends (initFrom 0 .uninitialized false) .enCtl) ∧
    (Inv (initFrom 3 .resetting true) ∧ Spaced (initFrom 3 .resetting true) ∧
      Appends (initFrom 3 .resetting true) (.wait .powerup)) :=
  ⟨⟨inv_readingSlowly, spaced_readingSlowly, _, rfl, rfl, rfl, rfl⟩,
    ⟨inv_pollingAt 0 (by decide), spaced_empty _ rfl rfl rfl, _, _, _, rfl, rfl, rfl⟩,
    ⟨inv_pollingAt 1 (by decide), spaced_empty _ rfl rfl rfl, _, _, _, rfl, rfl, rfl⟩,
    ⟨inv_pollingAt 2 (by decide), spaced_empty _ rfl rfl rfl, _, _, _, rfl, rfl, rfl⟩,
    ⟨inv_pollingAt 3 (by decide), spaced_empty _ rfl rfl rfl, _, _, _, _, rfl, rfl, rfl⟩,
    ⟨inv_driving, spaced_empty _ rfl rfl rfl, _, _, _, rfl, rfl, rfl⟩,
    ⟨inv_strobing, spaced_empty _ rfl rfl rfl, _, _, _, rfl, rfl, rfl⟩,
    ⟨inv_initFrom.1, spaced_empty _ rfl rfl rfl, _, _, _, rfl, rfl, rfl⟩,
    ⟨inv_initFrom.2, spaced_empty _ rfl rfl rfl, _, _, _, rfl, rfl, rfl⟩⟩

/-- A command that the pace cuts, and one that answers before the pace does. -/
theorem witness_StepAtPaceIsStepsAtPaceZero :
    (ready.placeCommand 0x40000).seq ≠ .idle ∧
      (ready.placeCommand 0x40000).hostPasses = ready.placeCommand 0x40000 ∧
      Goes { ready.placeCommand 0x40000 with pace := 2 } ∧
      Goes { ready.placeCommand 0x40000 with pace := 99 } :=
  ⟨by decide, rfl, ⟨_, rfl⟩, _, rfl⟩

end Sys2Proof.Tests
end

section
/-! SUPPORT. The state after reset, and the invariant over a whole step: an edge with rst, an edge in IDLE,
the start of a command at DECODE, and the events of a running program. -/

namespace Sys2Proof.Config

/-- PIN_MAP at reset is a list of eleven distinct pins, whatever its opaque value is (R25, log 4). -/
theorem platform_isPinMap : isPinMap platform.pinMap = true := by
  simp only [platform]
  split
  · assumption
  · decide

/-- Whatever its open parameters are, the platform after reset meets R7 and R25 (log 4). -/
theorem platform_wellFormed : platform.wellFormed = true := by
  rw [Platform.wellFormed, platform_isPinMap]
  simp [platform]

end Sys2Proof.Config

namespace Sys2Proof.Machine

/-! ### The state after reset (R39) -/

theorem inv_reset : Inv State.reset :=
  inv_of_idle (.inl rfl) ⟨Config.platform_wellFormed, rfl, nofun, rfl⟩ rfl (.inl ⟨rfl, rfl⟩)

/-- No event has happened, so none is too near to another. -/
theorem spaced_reset : Spaced State.reset :=
  ⟨trivial, rfl, rfl, fun _ _ => nofun, fun _ _ => nofun⟩

theorem pinsRecorded_reset : PinsRecorded State.reset := ⟨nofun, fun _ => rfl⟩

/-! ### Outside a program -/

/-- The part of the invariant that speaks neither of SEQ nor of E. -/
theorem Inv.keeps {s : State} (h : Inv s) : Keeps s := ⟨h.platform, h.ddram, h.driven, h.busyRule⟩

/-- Between two commands E is low, and the block is untouched or Ready (R254). -/
theorem Inv.betweenCommands {s : State} (h : Inv s) (hs : s.seq = .idle ∨ s.seq = .decode) :
    s.e = false ∧ ((s.drvState = .uninitialized ∧ s.ctlOe = false) ∨
      (s.drvState = .ready ∧ s.ctlOe = true)) := by
  have hfits := h.seqFits
  rcases hs with hs | hs <;> simpa only [State.seqFits, hs] using hfits

/-- The invariant does not speak of the host's acts. -/
theorem Inv.withHost {s : State} (h : Inv s) (acts : List HostAct) : Inv { s with host := acts } :=
  ⟨h.platform, h.ddram, h.strobing, h.writing, h.reading, h.released, h.driven, h.seqFits,
    h.busyRule⟩

/-- That the host's act is over changes the list of its acts alone. -/
theorem State.hostPasses_eq (s : State) : ∃ acts, s.hostPasses = { s with host := acts } := by
  unfold State.hostPasses
  split <;> exact ⟨_, rfl⟩

@[simp] theorem State.hostPasses_seq (s : State) : s.hostPasses.seq = s.seq := by
  obtain ⟨acts, h⟩ := s.hostPasses_eq
  rw [h]

theorem hostPasses_inv {s : State} (h : Inv s) : Inv s.hostPasses := by
  obtain ⟨acts, hacts⟩ := s.hostPasses_eq
  exact hacts ▸ h.withHost acts

/-- A reset leaves an untouched block, and a device with its memory in canonical form (R280 to R282). -/
theorem applyReset_inv {s : State} (h : Inv s) : Inv s.applyReset := by
  have hddram : s.applyReset.lcd.device.ddram.wf = true := by
    simp only [State.applyReset]
    split
    · exact s.lcd.lose_wf
    · exact h.ddram
  exact inv_of_idle (.inl rfl) ⟨h.platform, hddram, nofun, h.busyRule⟩ rfl (.inl ⟨rfl, rfl⟩)

/-- A step in IDLE: the host's acts move on, and a word is accepted or none is (R26). -/
theorem idleStep_cases (s : State) :
    ∃ acts, (∃ w, idleStep s = ({ s with host := acts }).accept w) ∨
      idleStep s = ({ s with host := acts }).idleEdge := by
  obtain ⟨acts, hacts⟩ := s.hostPasses_eq
  unfold idleStep
  split
  · exact ⟨_, .inl ⟨_, rfl⟩⟩
  · split
    · exact ⟨_, .inl ⟨_, rfl⟩⟩
    · exact ⟨_, .inr rfl⟩
  · exact ⟨acts, .inr (by rw [hacts])⟩

theorem idleStep_inv {s : State} (h : Inv s) (hs : s.seq = .idle) : Inv (idleStep s) := by
  have hk := h.keeps
  obtain ⟨he, hdrv⟩ := h.betweenCommands (.inl hs)
  obtain ⟨acts, ⟨w, hw⟩ | hi⟩ := idleStep_cases s
  · rw [hw]
    exact inv_of_idle (.inr rfl) ⟨hk.platform, hk.ddram, hk.driven, hk.busyRule⟩ he hdrv
  · rw [hi]
    exact inv_of_idle (.inl hs) ⟨hk.platform, hk.ddram, hk.driven, hk.busyRule⟩ he hdrv

/-- An error answer of a block between two commands (R251, R252). -/
theorem raiseErr_inv {s : State} (h : Inv s) (hs : s.seq = .decode) (code : RspCode) :
    Inv (s.raiseErr code) := by
  have hk := h.keeps
  obtain ⟨he, hdrv⟩ := h.betweenCommands (.inr hs)
  exact inv_of_idle (.inl rfl) ⟨hk.platform, hk.ddram, hk.driven, hk.busyRule⟩ he hdrv

/-! ### The start of a command -/

/-- The lines a program starts from: those of the state, with nothing assumed of the last event, which may be
older than a reset. -/
def State.startLines (s : State) : Lines := { s.lines with last := .other }

theorem State.fits_startLines (s : State) : Fits s.startLines s :=
  ⟨rfl, rfl, rfl, rfl, rfl, rfl, nofun, nofun⟩

/-- What a command does at DECODE: it answers an error and no more, or it runs a program all of whose steps
meet their `require`s from here on. -/
inductive Starts (s : State) (o : Host.Outcome State Fault Refusal) : Prop where
  | error (code : RspCode) (answers : o = .next (s.raiseErr code))
  | program (todo : List Micro) (fin : Finish) (runs : o = runProgram todo fin s)
      (admitted : s.startLines.admits todo = true)

/-- A command's start keeps the invariant, and never stops. -/
theorem Starts.inv {s : State} {o : Host.Outcome State Fault Refusal} (ho : Starts s o) (h : Inv s)
    (hs : s.seq = .decode) : ∃ t, o = .next t ∧ Inv t := by
  cases ho with
  | error code answers => exact ⟨_, answers, raiseErr_inv h hs code⟩
  | program todo fin runs admitted =>
    rw [runs]
    exact runProgram_inv s.fits_startLines h.keeps admitted

/-- A command that needs DRV_STATE to be `d` answers `ERR_STATE` elsewhere (R254). -/
theorem starts_inState {s : State} {d : DrvState} {body : State → Host.Outcome State Fault Refusal}
    (hbody : s.drvState = d → Starts s (body s)) : Starts s (inState d s body) := by
  unfold inState
  split
  · next hd => exact hbody hd
  · exact .error .errState rfl

/-- A block that is Ready between two commands drives the control lines, with E low. -/
theorem Inv.startLines_isReady {s : State} (h : Inv s) (hs : s.seq = .decode)
    (hd : s.drvState = .ready) : s.startLines.isReady = true := by
  obtain ⟨he, hdrv⟩ := h.betweenCommands (.inr hs)
  have hc : s.ctlOe = true := by simpa [hd] using hdrv
  simp [State.startLines, State.lines, Lines.isReady, Lines.quiet, he, hc, hd]

section
variable {s : State} (h : Inv s) (hs : s.seq = .decode)
include h hs

theorem Inv.starts_init : Starts s (execInit s) := starts_inState fun hd => by
  obtain ⟨he, hdrv⟩ := h.betweenCommands (.inr hs)
  have hc : s.ctlOe = false := by simpa [hd] using hdrv
  exact .program _ _ rfl (admits_init hd hc he)

/-- CMD, PUTC and GOTO in range: a wait for the idle status, then one write phase (R162, R163). -/
theorem Inv.starts_write (hd : s.drvState = .ready) (rs : RegSel) (v : Byte) (fin : Finish) :
    Starts s (runProgram (waitIdle ++ busWrite rs v) fin s) :=
  .program _ _ rfl (admits_waitIdle (h.startLines_isReady hs hd) (admits_busWrite rs v))

theorem Inv.starts_cmd (b8 : Byte) : Starts s (execCmd b8 s) :=
  starts_inState fun hd => h.starts_write hs hd .instruction b8 _

theorem Inv.starts_putc (b8 : Byte) : Starts s (execPutc b8 s) :=
  starts_inState fun hd => h.starts_write hs hd .data b8 _

theorem Inv.starts_goto (x y : Byte) : Starts s (execGoto x y s) := starts_inState fun hd => by
  split
  · exact h.starts_write hs hd .instruction _ _
  · exact .error .errRange rfl

theorem Inv.starts_status : Starts s (execStatus s) := starts_inState fun hd =>
  .program _ _ rfl (admits_busRead (h.startLines_isReady hs hd))

theorem Inv.starts_waitidle : Starts s (execWaitidle s) := starts_inState fun hd =>
  .program _ _ rfl (by
    simpa using admits_waitIdle (r := []) (h.startLines_isReady hs hd) rfl)

theorem Inv.starts_waitb (n : Byte) : Starts s (execWaitb n s) := by
  unfold execWaitb
  split
  · refine starts_inState fun hd => ?_
    have hready := h.startLines_isReady hs hd
    split
    · refine .program _ _ rfl ?_
      simpa [Lines.admits, Lines.isReady, and_assoc] using hready
    · exact .program _ _ rfl (admits_bounded n hready)
  · exact .error .errIllegal rfl

end

/-- The command latch never decodes to an LCD instruction byte (R72, R74). -/
theorem decodeFields_command {hbw : Bool} {op : BitVec 4} {a b : Byte} {i : Instr}
    (h : decodeFields hbw op a b = .ok i) :
    i = .init ∨ i = .cmd a ∨ i = .putc a ∨ i = .status ∨ i = .waitidle ∨ i = .goto a b ∨
      i = .waitb a := by
  unfold decodeFields at h
  repeat' split at h
  all_goals cases h
  all_goals simp

/-- A step in DECODE answers an illegal word with an error, and starts a legal one's command. -/
theorem Inv.starts_decodeStep {s : State} (h : Inv s) (hs : s.seq = .decode) :
    Starts s.hostPasses (decodeStep s) := by
  have h' := hostPasses_inv h
  have hs' : s.hostPasses.seq = .decode := s.hostPasses_seq.trans hs
  unfold decodeStep
  split
  · next i hi =>
    rcases decodeFields_command hi with rfl | rfl | rfl | rfl | rfl | rfl | rfl
    · exact h'.starts_init hs'
    · exact h'.starts_cmd hs' _
    · exact h'.starts_putc hs' _
    · exact h'.starts_status hs'
    · exact h'.starts_waitidle hs'
    · exact h'.starts_goto hs' _ _
    · exact h'.starts_waitb hs' _
  · exact .error .errIllegal rfl

/-! ### The step -/

/-- From a state of the invariant every step answers a next state of the invariant (R41, R113). -/
theorem step_inv {s : State} (h : Inv s) : ∃ t, step s = .next t ∧ Inv t := by
  unfold step
  split
  · exact ⟨_, rfl, applyReset_inv (hostPasses_inv h)⟩
  · split
    · next hs => exact ⟨_, rfl, idleStep_inv h hs⟩
    · next hs => exact (h.starts_decodeStep hs).inv (hostPasses_inv h) (s.hostPasses_seq.trans hs)
    · exact runEvents_inv _ (hostPasses_inv h)

/-- Settles O40: the case of each kind of step is in `step_inv`, and a step has one outcome. -/
theorem stepKeepsInvariant : Obligations.StepKeepsInvariant := by
  intro s t h ht
  obtain ⟨u, hu, hInv⟩ := step_inv h
  obtain rfl : u = t := Host.Outcome.next.inj (hu.symm.trans ht)
  exact hInv

/-- Settles O39, one part for each of the three predicates. -/
theorem resetMeetsInvariant : Obligations.ResetMeetsInvariant :=
  ⟨inv_reset, spaced_reset, pinsRecorded_reset⟩

end Sys2Proof.Machine
end

section
/-! SUPPORT. What a step does, one inversion lemma for each of its kinds: an edge with rst, an edge in IDLE,
and a step outside IDLE, which answers an error or runs a program. From them the statements about the state:
the handshake, the reset, the pads, DRV_STATE and the record of the pins. -/

namespace Sys2Proof.Machine

/-! ### The kinds of step -/

theorem step_of_rst {s : State} (hr : s.rstNow = true) : step s = .next s.hostPasses.applyReset := by
  simp [step, hr]

theorem step_of_idle {s : State} (hr : s.rstNow = false) (hs : s.seq = .idle) :
    step s = .next (idleStep s) := by
  simp [step, hr, hs]

theorem step_of_decode {s : State} (hr : s.rstNow = false) (hs : s.seq = .decode) :
    step s = decodeStep s := by
  simp [step, hr, hs]

theorem step_of_running {s : State} {todo : List Micro} {fin : Finish} (hr : s.rstNow = false)
    (hs : s.seq = .running todo fin) : step s = resume s.hostPasses := by
  simp [step, hr, hs]

/-! ### The host's act is over -/

theorem State.hostPasses_eq_withHost (s : State) :
    s.hostPasses = { s with host := s.hostPasses.host } := by
  obtain ⟨acts, h⟩ := s.hostPasses_eq
  rw [h]

@[simp] theorem State.hostPasses_drvState (s : State) : s.hostPasses.drvState = s.drvState := by
  rw [State.hostPasses_eq_withHost]

@[simp] theorem State.hostPasses_pace (s : State) : s.hostPasses.pace = s.pace := by
  rw [State.hostPasses_eq_withHost]

/-! ### A running program -/

/-- To go on with a running program is to start what is left of it. -/
theorem resume_eq_runProgram {s : State} {todo : List Micro} {fin : Finish}
    (hs : s.seq = .running todo fin) : resume s = runProgram todo fin s := by
  have hgo : s.goOn todo fin = s := by rw [State.goOn, ← hs]
  rw [runProgram, hgo]

/-- At pace 0 a step of a running program is one event. -/
theorem step_of_event {s : State} {todo : List Micro} {fin : Finish} (hr : s.rstNow = false)
    (hp : s.pace = 0) (hs : s.seq = .running todo fin) :
    step s = microStep todo fin s.hostPasses := by
  rw [step_of_running hr hs, resume_eq_runProgram (s.hostPasses_seq.trans hs), runProgram, resume,
    State.goOn_pace, State.hostPasses_pace, hp, runEvents_running]
  cases microStep todo fin s.hostPasses <;> rfl

/-! ### A step outside IDLE -/

/-- What a step outside IDLE does, whatever the state: it answers an error and no more, or it runs a program.
`Starts` says more of the program, from a state of the invariant. -/
inductive AnswersOrRuns (s : State) (o : Host.Outcome State Fault Refusal) : Prop where
  | error (code : RspCode) (answers : o = .next (s.raiseErr code))
  | program (todo : List Micro) (fin : Finish) (runs : o = runProgram todo fin s)

theorem answersOrRuns_inState {s : State} {d : DrvState}
    {body : State → Host.Outcome State Fault Refusal} (hbody : AnswersOrRuns s (body s)) :
    AnswersOrRuns s (inState d s body) := by
  unfold inState
  split
  · exact hbody
  · exact .error .errState rfl

theorem answersOrRuns_goto (x y : Byte) (s : State) : AnswersOrRuns s (execGoto x y s) :=
  answersOrRuns_inState (by
    split
    · exact .program _ _ rfl
    · exact .error .errRange rfl)

theorem answersOrRuns_waitb (n : Byte) (s : State) : AnswersOrRuns s (execWaitb n s) := by
  unfold execWaitb
  split
  · refine answersOrRuns_inState ?_
    split <;> exact .program _ _ rfl
  · exact .error .errIllegal rfl

theorem answersOrRuns_decodeStep (s : State) : AnswersOrRuns s.hostPasses (decodeStep s) := by
  unfold decodeStep
  split
  · next i hi =>
    rcases decodeFields_command hi with rfl | rfl | rfl | rfl | rfl | rfl | rfl
    case inr.inr.inr.inr.inr.inl => exact answersOrRuns_goto _ _ _
    case inr.inr.inr.inr.inr.inr => exact answersOrRuns_waitb _ _
    all_goals exact answersOrRuns_inState (.program _ _ rfl)
  · exact .error .errIllegal rfl

theorem answersOrRuns_step {s : State} (hr : s.rstNow = false) (hs : s.seq ≠ .idle) :
    AnswersOrRuns s.hostPasses (step s) := by
  cases hseq : s.seq with
  | idle => exact absurd hseq hs
  | decode => exact step_of_decode hr hseq ▸ answersOrRuns_decodeStep s
  | running todo fin =>
    exact .program todo fin
      ((step_of_running hr hseq).trans (resume_eq_runProgram (s.hostPasses_seq.trans hseq)))

/-- An error answer touches neither the command latch nor the host's acts, and is the one response. -/
theorem raiseErr_frame (code : RspCode) (s : State) : EventFrame s (s.raiseErr code) :=
  ⟨rfl, rfl, rfl, rfl, rfl, rfl, id, .inl ⟨rfl, rfl, rfl⟩⟩

/-- A step outside IDLE has the frame of a program's events, but that the host's act is over. -/
theorem step_frame {s t : State} (hr : s.rstNow = false) (hs : s.seq ≠ .idle)
    (h : step s = .next t) : EventFrame { s with host := s.hostPasses.host } t := by
  rw [← s.hostPasses_eq_withHost]
  cases answersOrRuns_step hr hs with
  | error code answers =>
    obtain rfl := Host.Outcome.next.inj (h.symm.trans answers)
    exact raiseErr_frame code _
  | program todo fin runs => exact runProgram_frame (runs.symm.trans h)

/-- What a step outside IDLE does from a state of the invariant. -/
theorem Inv.step_cases {s : State} (hi : Inv s) (hr : s.rstNow = false) (hs : s.seq ≠ .idle) :
    (∃ code, step s = .next (s.hostPasses.raiseErr code)) ∨
      ∃ todo fin l, step s = runProgram todo fin s.hostPasses ∧ Fits l s.hostPasses ∧
        l.admits todo = true := by
  cases hseq : s.seq with
  | idle => exact absurd hseq hs
  | decode =>
    rw [step_of_decode hr hseq]
    cases hi.starts_decodeStep hseq with
    | error code answers => exact .inl ⟨code, answers⟩
    | program todo fin runs admitted =>
      exact .inr ⟨todo, fin, _, runs, s.hostPasses.fits_startLines, admitted⟩
  | running todo fin =>
    have hseq' := s.hostPasses_seq.trans hseq
    obtain ⟨hfits, -, hadmits⟩ := (hostPasses_inv hi).fits hseq'
    exact .inr ⟨todo, fin, _, (step_of_running hr hseq).trans (resume_eq_runProgram hseq'), hfits,
      hadmits⟩

/-! ### An edge in IDLE -/

theorem accept_edgeFrame (s : State) (acts : List HostAct) (w : CommandWord) :
    EdgeFrame s (({ s with host := acts }).accept w) := by
  constructor <;> rfl

theorem idleEdge_edgeFrame (s : State) (acts : List HostAct) :
    EdgeFrame s ({ s with host := acts }).idleEdge := by
  constructor <;> rfl

theorem idleStep_edgeFrame (s : State) : EdgeFrame s (idleStep s) := by
  obtain ⟨acts, ⟨w, hw⟩ | hi⟩ := idleStep_cases s
  · exact hw ▸ accept_edgeFrame s acts w
  · exact hi ▸ idleEdge_edgeFrame s acts

/-- An offer that the block may take is accepted (R26, R194). -/
theorem idleStep_accepts {s : State} {w : CommandWord} {h : List HostAct}
    (ho : s.host = .offer w :: h ∨ (s.host = .offerIfOk w :: h ∧ s.rspCode = .ok)) :
    idleStep s = ({ s with host := h }).accept w := by
  rcases ho with ho | ⟨ho, hok⟩
  · simp [idleStep, ho]
  · simp [idleStep, ho, hok]

/-- Where no word is accepted the host's act is over. -/
theorem idleStep_idles {s : State}
    (ho : s.host = [] ∨ (∃ h, s.host = .quiet :: h) ∨
      ∃ w h, s.host = .offerIfOk w :: h ∧ s.rspCode ≠ .ok) :
    s.rstNow = false ∧ idleStep s = ({ s with host := s.host.tail }).idleEdge := by
  rcases ho with ho | ⟨h, ho⟩ | ⟨w, h, ho, hok⟩
  · have hs : { s with host := [] } = s := by rw [← ho]
    simp [State.rstNow, idleStep, State.hostPasses, ho, hs]
  · simp [State.rstNow, idleStep, State.hostPasses, ho]
  · simp [State.rstNow, idleStep, ho, hok]

/-- An offer that waits is not the host's act at this step (log 16). -/
theorem rstNow_hostPasses_of_offer {s : State} {w : CommandWord} {h : List HostAct}
    (ho : s.host = .offer w :: h ∨ s.host = .offerIfOk w :: h) :
    s.rstNow = false ∧ s.hostPasses = s := by
  rcases ho with ho | ho <;> simp [State.rstNow, State.hostPasses, ho]

/-! ### DRV_STATE -/

/-- A micro-operation that leaves DRV_STATE to its check does not move it. -/
theorem continueWith_requireThat_rank {b : Bool} {r : List Micro} {fin : Finish} {s u t : State}
    (h : continueWith r fin (requireThat b u) = .next t) (hu : u.drvState = s.drvState) :
    s.drvState.rank ≤ t.drvState.rank := by
  obtain ⟨v, hv, rfl⟩ := continueWith_inv h
  obtain ⟨-, rfl⟩ := requireThat_inv hv
  exact (congrArg DrvState.rank hu).ge

/-- DRV_STATE moves forward in an event of a program that fits the lines: only `setDrv` writes it, one place
up (R131). -/
theorem microStep_rank (fin : Finish) : ∀ {todo : List Micro} {l : Lines} {s t : State},
    l.drv = s.drvState → l.admits todo = true → microStep todo fin s = .next t →
    s.drvState.rank ≤ t.drvState.rank := by
  intro todo
  induction todo with
  | nil =>
    intro l s t _ _ h
    obtain rfl := Host.Outcome.next.inj h
    cases fin <;> exact le_rfl
  | cons op r ih =>
    intro l s t hl ha h
    cases op with
    | enableCtl => exact continueWith_requireThat_rank h rfl
    | setDir d => exact continueWith_requireThat_rank h rfl
    | setCtl rs rw => exact continueWith_requireThat_rank h rfl
    | driveDB v => exact continueWith_requireThat_rank h rfl
    | strobeUp => exact continueWith_requireThat_rank h rfl
    | sampleUp => exact continueWith_requireThat_rank h rfl
    | sampleDown => exact continueWith_requireThat_rank h rfl
    | strobeDown =>
      obtain ⟨m, rfl, -⟩ := strobeDown_inv h
      exact le_rfl
    | delay p =>
      obtain rfl := Host.Outcome.next.inj h
      exact le_rfl
    | setDrv d =>
      simp only [Lines.admits, Bool.and_eq_true, beq_iff_eq] at ha
      have hd : d.rank = s.drvState.rank + 1 := hl ▸ ha.1.2
      have hrest := ih (s := { s with drvState := d }) (l := { l with drv := d }) rfl ha.2 h
      exact (hd ▸ Nat.le_succ _ : s.drvState.rank ≤ d.rank).trans hrest
    | delayEnd p =>
      simp only [Lines.admits, Bool.and_eq_true] at ha
      exact ih (s := { s with lcd := s.lcd.afterDelay s.platform p }) hl ha.2 h
    | initEnd =>
      simp only [Lines.admits, Bool.and_eq_true] at ha
      exact ih (s := { s with lcd := s.lcd.afterInit s.platform }) hl ha.2 h
    | clearRcnt =>
      simp only [Lines.admits, Bool.and_eq_true] at ha
      exact ih (s := { s with rcnt := 0 }) hl ha.2 h
    | incRcnt =>
      simp only [Lines.admits, Bool.and_eq_true] at ha
      exact ih (s := { s with rcnt := s.rcnt + 1 }) hl ha.2 h
    | setPcnt n =>
      simp only [Lines.admits, Bool.and_eq_true] at ha
      exact ih (s := { s with pcnt := n }) hl ha.2 h
    | legacyTest =>
      simp only [Lines.admits, Bool.and_eq_true] at ha
      simp only [microStep] at h
      split at h
      · exact ih hl ha.2 h
      · exact continueWith_requireThat_rank h rfl
    | pollAgain =>
      simp only [Lines.admits, Bool.and_eq_true] at ha
      simp only [microStep] at h
      split at h
      · exact continueWith_requireThat_rank h rfl
      · exact ih (l := { l with last := .settled }) hl ha.2 h
    | boundedTest =>
      simp only [Lines.admits, Bool.and_eq_true] at ha
      simp only [microStep] at h
      split at h
      · exact continueWith_requireThat_rank h rfl
      · exact ih (s := { s with pcnt := s.pcnt - 1 }) hl ha.2 h

/-- So it does in any number of events. -/
theorem runEvents_rank (n : Nat) : ∀ {s t : State}, Inv s → runEvents n s = .next t →
    s.drvState.rank ≤ t.drvState.rank := by
  induction n with
  | zero =>
    intro s t _ h
    obtain rfl := Host.Outcome.next.inj h
    exact le_rfl
  | succ n ih =>
    intro s t hi h
    cases hs : s.seq with
    | idle => simp only [runEvents, hs, Host.Outcome.next.injEq] at h; exact h ▸ le_rfl
    | decode => simp only [runEvents, hs, Host.Outcome.next.injEq] at h; exact h ▸ le_rfl
    | running todo fin =>
      obtain ⟨hf, hk, ha⟩ := hi.fits hs
      obtain ⟨u, hu, hui⟩ := microStep_inv fin hf hk ha
      simp only [runEvents, hs, hu] at h
      exact (microStep_rank fin hf.drv ha hu).trans (ih hui h)

/-- And in a program from its start. -/
theorem runProgram_rank {todo : List Micro} {fin : Finish} {l : Lines} {s t : State} (hf : Fits l s)
    (hk : Keeps s) (ha : l.admits todo = true) (h : runProgram todo fin s = .next t) :
    s.drvState.rank ≤ t.drvState.rank := by
  obtain ⟨u, hu, hui⟩ := microStep_inv fin hf hk ha
  rw [runProgram, resume, State.goOn_pace, runEvents_running, hu] at h
  exact (microStep_rank fin hf.drv ha hu).trans (runEvents_rank _ hui h)

/-- Without rst no step moves DRV_STATE back (R41 item 6, R131). -/
theorem step_rank {s t : State} (hi : Inv s) (hr : s.rstNow = false) (h : step s = .next t) :
    s.drvState.rank ≤ t.drvState.rank := by
  by_cases hs : s.seq = .idle
  · obtain rfl := Host.Outcome.next.inj ((step_of_idle hr hs).symm.trans h)
    exact (congrArg DrvState.rank (idleStep_edgeFrame s).drvState).ge
  · rw [← s.hostPasses_drvState]
    rcases hi.step_cases hr hs with ⟨code, ho⟩ | ⟨todo, fin, l, ho, hf, ha⟩
    · obtain rfl := Host.Outcome.next.inj (ho.symm.trans h)
      exact le_rfl
    · exact runProgram_rank hf (hostPasses_inv hi).keeps ha (ho.symm.trans h)

/-- Ready is the last of the five states. -/
theorem DrvState.eq_ready_of_rank_le {d : DrvState} (h : DrvState.ready.rank ≤ d.rank) :
    d = .ready := by
  cases d
  case ready => rfl
  all_goals exact absurd h (by decide)

/-! ### The pads -/

theorem pinRole_eq_none {pin : Nat} {l : List Nat} (h : pin ∉ l) : pinRole pin l = none := by
  induction l with
  | nil => rfl
  | cons p r ih =>
    obtain ⟨hp, hr⟩ := List.ne_and_not_mem_of_not_mem_cons h
    simp [pinRole, hp.symm, ih hr]

/-- In a list without duplicates a pin's place is where it stands. -/
theorem pinRole_eq_some {pin : Nat} {l : List Nat} (hn : l.Nodup) {k : Nat}
    (h : l[k]? = some pin) : pinRole pin l = some k := by
  induction l generalizing k with
  | nil => simp at h
  | cons p r ih =>
    obtain ⟨hp, hr⟩ := List.nodup_cons.mp hn
    cases k with
    | zero => simp_all [pinRole]
    | succ k =>
      have hk : r[k]? = some pin := by simpa using h
      have hne : p ≠ pin := fun he => hp (he ▸ List.mem_of_getElem? hk)
      simp [pinRole, hne, ih hr hk]

/-- PIN_MAP of a well-formed platform is free of duplicates (R25). -/
theorem pinMap_nodup {p : Platform} (h : p.wellFormed = true) : p.pinMap.Nodup := by
  simp only [Platform.wellFormed, Config.isPinMap, Bool.and_eq_true, decide_eq_true_eq] at h
  exact h.2.2

theorem padLevel_of_role {s : State} (hp : s.platform.wellFormed = true) {k pin : Nat}
    (h : s.platform.pinMap[k]? = some pin) : s.padLevel pin = s.roleLevel k := by
  simp [State.padLevel, pinRole_eq_some (pinMap_nodup hp) h]

/-! ### The end of a strobe -/

/-- An event after which E is low and every other output and DRV_STATE are as before. -/
structure OnlyLowersE (s t : State) : Prop where
  e : t.e = false
  dir : t.dir = s.dir
  rs : t.rs = s.rs
  rw : t.rw = s.rw
  dbOut : t.dbOut = s.dbOut
  ctlOe : t.ctlOe = s.ctlOe
  drvState : t.drvState = s.drvState

theorem strobeDown_onlyLowersE {r : List Micro} {fin : Finish} {s t : State}
    (h : microStep (.strobeDown :: r) fin s = .next t) : OnlyLowersE s t := by
  obtain ⟨m, rfl, -⟩ := strobeDown_inv h
  constructor <;> rfl

theorem sampleDown_onlyLowersE {r : List Micro} {fin : Finish} {s t : State}
    (h : microStep (.sampleDown :: r) fin s = .next t) : OnlyLowersE s t := by
  obtain ⟨u, hu, rfl⟩ := continueWith_inv h
  obtain ⟨-, rfl⟩ := requireThat_inv hu
  constructor <;> rfl

/-! ### The record of the pins -/

theorem hostPasses_pinsRecorded {s : State} (h : PinsRecorded s) : PinsRecorded s.hostPasses := by
  rw [s.hostPasses_eq_withHost]
  exact h.same rfl rfl rfl

theorem EdgeFrame.pinsRecorded {s t : State} (f : EdgeFrame s t) (h : PinsRecorded s) :
    PinsRecorded t :=
  h.same (State.pins_congr f.dir f.rs f.rw f.dbOut) f.ctlOe f.trace

/-! ### The statements -/

/-- Settles O51: a reset leaves a reset's pins, an edge in IDLE and an error answer touch none, and a program
keeps the record event by event. -/
theorem stepKeepsPinRecord : Obligations.StepKeepsPinRecord := by
  intro s t hi hp h
  cases hr : s.rstNow with
  | true =>
    obtain rfl := Host.Outcome.next.inj ((step_of_rst hr).symm.trans h)
    exact .reset _
  | false =>
    by_cases hs : s.seq = .idle
    · obtain rfl := Host.Outcome.next.inj ((step_of_idle hr hs).symm.trans h)
      exact (idleStep_edgeFrame s).pinsRecorded hp
    · have hp' := hostPasses_pinsRecorded hp
      rcases hi.step_cases hr hs with ⟨code, ho⟩ | ⟨todo, fin, l, ho, hf, ha⟩
      · obtain rfl := Host.Outcome.next.inj (ho.symm.trans h)
        exact hp'.same rfl rfl rfl
      · exact runProgram_pins hf (hostPasses_inv hi).keeps hp' ha (ho.symm.trans h)

/-- Settles O7: in IDLE the step is the acceptance, elsewhere it has the frame of a program's events. -/
theorem offeredCommandIsAccepted : Obligations.OfferedCommandIsAccepted := by
  intro s w h
  constructor
  · intro ho hready
    obtain ⟨hr, hs⟩ : s.rstNow = false ∧ s.seq = .idle := by simpa [State.cmdReady] using hready
    have hstep : step s = .next (({ s with host := h }).accept w) := by
      rw [step_of_idle hr hs, idleStep_accepts ho]
    exact ⟨_, hstep, accept_edgeFrame s h w, rfl, rfl, rfl, rfl, rfl⟩
  · intro ho hs t ht
    obtain ⟨hr, hpass⟩ := rstNow_hostPasses_of_offer ho
    exact (step_frame hr hs ht).host.trans (by rw [hpass])

/-- Settles O12: an edge in IDLE lowers RSP_VALID, a step outside IDLE answers at most once, at its end. -/
theorem responseIsOnePulseAndHolds : Obligations.ResponseIsOnePulseAndHolds := by
  intro s t hr h
  by_cases hs : s.seq = .idle
  · obtain rfl := Host.Outcome.next.inj ((step_of_idle hr hs).symm.trans h)
    have f := idleStep_edgeFrame s
    exact .inr ⟨f.rspValid, f.responses, f.rspCode, f.rspData⟩
  · exact (step_frame hr hs h).answer.imp (fun ⟨hidle, hvalid, hresp⟩ => ⟨hvalid, hidle, hresp⟩)
      And.right

/-- Settles O13: an idle edge stays in IDLE with the latch as it was, an acceptance goes to DECODE, and no
step outside IDLE writes the latch or goes to DECODE. -/
theorem commandLatchChangesOnlyAtAcceptance : Obligations.CommandLatchChangesOnlyAtAcceptance := by
  intro s t hr h
  by_cases hs : s.seq = .idle
  · obtain rfl := Host.Outcome.next.inj ((step_of_idle hr hs).symm.trans h)
    refine ⟨fun hd => ?_, fun _ => hs⟩
    obtain ⟨acts, ⟨w, hw⟩ | hi⟩ := idleStep_cases s
    · exact absurd (hw ▸ rfl) hd
    · rw [hi]
      exact ⟨rfl, rfl, rfl⟩
  · have f := step_frame hr hs h
    refine ⟨fun _ => ⟨f.cmdOp, f.cmdA, f.cmdB⟩, fun hd => ?_⟩
    rcases f.answer with ⟨hidle, -⟩ | ⟨⟨r, fin, hrun⟩, -⟩
    · exact nomatch hidle.symm.trans hd
    · exact nomatch hrun.symm.trans hd

/-- Settles O37: the state after the edge is `applyReset`, whose registers are R39's. -/
theorem resetEdgeRestoresRegisters : Obligations.ResetEdgeRestoresRegisters := by
  intro s hr
  refine ⟨_, step_of_rst hr, rfl, rfl, rfl, rfl, rfl, rfl, rfl, rfl, rfl, rfl, rfl, rfl, rfl, rfl, rfl,
    rfl, rfl, rfl, fun hreleased => ?_⟩
  have hready : s.hostPasses.applyReset.cmdReady = true := by
    rw [State.cmdReady, hreleased]
    rfl
  rw [State.ports, hready]
  rfl

/-- Settles O44: a pin of PIN_MAP has one role, and a pin outside it none. -/
theorem padsFollowPinMap : Obligations.PadsFollowPinMap := by
  intro s hp
  constructor
  · intro k pin hk
    rw [padLevel_of_role hp hk]
    refine ⟨fun hlt => by simp [State.roleLevel, hlt], ?_, ?_, ?_⟩ <;> rintro rfl <;> rfl
  · intro pin hout
    simp [State.padLevel, pinRole_eq_none hout]

/-- Settles O45: the rank of DRV_STATE never falls, and no step but a reset releases the control lines. -/
theorem drvStateMovesForward : Obligations.DrvStateMovesForward := by
  intro s t hi hr h
  have hrank := step_rank hi hr h
  refine ⟨hrank, fun hd => DrvState.eq_ready_of_rank_le (hd ▸ hrank), fun hc => ?_⟩
  by_cases hs : s.seq = .idle
  · obtain rfl := Host.Outcome.next.inj ((step_of_idle hr hs).symm.trans h)
    exact (idleStep_edgeFrame s).ctlOe.trans hc
  · exact (step_frame hr hs h).ctlOe hc

/-- Settles O46: by the invariant the event due while E is high is the end of a strobe. -/
theorem outputsHoldWhileStrobing : Obligations.OutputsHoldWhileStrobing := by
  intro s t hi hr hp he h
  have hlow : OnlyLowersE s.hostPasses t := by
    obtain ⟨r, fin, hs | hs⟩ := hi.strobing he
    · exact strobeDown_onlyLowersE ((step_of_event hr hp hs).symm.trans h)
    · exact sampleDown_onlyLowersE ((step_of_event hr hp hs).symm.trans h)
  rw [s.hostPasses_eq_withHost] at hlow
  exact ⟨hlow.e, hlow.dir, hlow.rs, hlow.rw, hlow.dbOut, hlow.ctlOe, hlow.drvState⟩

/-- Settles O55: the step is an idle edge after the host's act. -/
theorem idleEdgeChangesOnlySynchronizer : Obligations.IdleEdgeChangesOnlySynchronizer := by
  intro s hs ho
  obtain ⟨hr, hidle⟩ := idleStep_idles ho
  have hstep : step s = .next ({ s with host := s.host.tail }).idleEdge := by
    rw [step_of_idle hr hs, hidle]
  exact ⟨_, hstep, idleEdge_edgeFrame s _, hs, rfl, rfl, rfl, rfl⟩

/-- Settles O5: the latch holds the word's fields, so it decodes to what the word does. -/
theorem stepRunsLatchedCommand : Obligations.StepRunsLatchedCommand := by
  intro s w i hr hs hop ha hb hdec
  have hlatched : s.latched = .ok i := by rw [State.latched, hop, ha, hb]; exact hdec
  rw [step_of_decode hr hs, decodeStep, hlatched]

end Sys2Proof.Machine
end

section
/-! SUPPORT. The statement about the device's memory: a status read leaves it as it was. -/

namespace Sys2Proof.Machine

/-- Settles O32: the device after a status read is the one before it with BUSY polled, and `polled` counts down
a positive count alone. -/
theorem statusReadOnlyCountsBusy : Obligations.StatusReadOnlyCountsBusy := by
  intro l hm
  obtain ⟨hdevice, hdraws⟩ := Lcd.afterStatus_device hm
  have hbusy : l.afterStatus.device.busy = polled l.device.busy := by rw [hdevice]
  refine ⟨by rw [hdevice], hdraws, fun hb => ?_, fun k hb => ?_, fun hb => ?_⟩ <;>
    rw [hbusy, hb, polled]

end Sys2Proof.Machine
end

section
/-! SUPPORT. The statements about encodings. Decoding and encoding undo each other, form by form; a word
that matches a row of the opcode table decodes to an instruction of that row, so what the word decodes to
says which rows match it. -/

namespace Sys2Proof

/-! ### Host commands: decode and encode -/

/-- Decoding a packed word is decoding its fields (R70, R71). -/
@[simp] theorem decodeCommand_packWord (hbw : Bool) (op : BitVec 4) (a b : Byte) :
    decodeCommand hbw (packWord op a b) = decodeFields hbw op a b := by
  simp only [decodeCommand, opField_packWord, aField_packWord, bField_packWord]

/-- A row of the opcode map with its check of reserved fields: only fields that pass it decode, and they are
the encoding's where `hj` says so of the row's own opcode (R72, R73). -/
theorem encode_of_reservedCheck {hbw : Bool} {op : BitVec 4} {a b : Byte} {zero : Prop} [Decidable zero]
    {j i : Instr} (code : BitVec 4) (hop : op.toNat = code.toNat)
    (h : (if zero then .ok j else .error DecodeError.reservedField) = Except.ok i)
    (hj : zero → encode j = .command (packWord code a b) ∧ j.wellFormed hbw = true) :
    encode i = .command (packWord op a b) ∧ i.wellFormed hbw = true := by
  obtain rfl : op = code := BitVec.eq_of_toNat_eq hop
  split at h
  case isTrue hz => exact Except.ok.inj h ▸ hj hz
  case isFalse => cases h

/-- Fields that decode to an instruction are the ones its encoding is packed from, row by row of the opcode
map (R72 to R74). -/
theorem encode_of_decodeFields {hbw : Bool} {op : BitVec 4} {a b : Byte} {i : Instr}
    (h : decodeFields hbw op a b = .ok i) :
    encode i = .command (packWord op a b) ∧ i.wellFormed hbw = true := by
  unfold decodeFields at h
  split at h
  case h_1 hop => exact encode_of_reservedCheck 0x1 hop h (by rintro ⟨rfl, rfl⟩; exact ⟨rfl, rfl⟩)
  case h_2 hop => exact encode_of_reservedCheck 0x2 hop h (by rintro rfl; exact ⟨rfl, rfl⟩)
  case h_3 hop => exact encode_of_reservedCheck 0x3 hop h (by rintro rfl; exact ⟨rfl, rfl⟩)
  case h_4 hop => exact encode_of_reservedCheck 0x4 hop h (by rintro ⟨rfl, rfl⟩; exact ⟨rfl, rfl⟩)
  case h_5 hop => exact encode_of_reservedCheck 0x5 hop h (by rintro ⟨rfl, rfl⟩; exact ⟨rfl, rfl⟩)
  case h_6 hop =>
    obtain rfl : op = 0x6 := BitVec.eq_of_toNat_eq hop
    exact Except.ok.inj h ▸ ⟨rfl, rfl⟩
  case h_7 hop =>
    split at h
    case isTrue hbw => exact encode_of_reservedCheck 0x7 hop h (by rintro rfl; exact ⟨rfl, hbw⟩)
    case isFalse => cases h
  case h_8 => cases h

theorem encode_of_decodeCommand {hbw : Bool} {w : CommandWord} {i : Instr}
    (h : decodeCommand hbw w = .ok i) : encode i = .command w ∧ i.wellFormed hbw = true := by
  simpa only [packWord_fields] using encode_of_decodeFields h

/-! ### LCD instruction bytes: decode and encode -/

/-- No bit of an instruction byte is ignored: checked on all 256 bytes (R78). -/
theorem encode_decodeLcd : ∀ v : Byte, encode (decodeLcd v) = .lcdByte v := by decide

/-- An instruction byte needs no parameter of the platform. -/
theorem decodeLcd_wellFormed (hbw : Bool) (v : Byte) : (decodeLcd v).wellFormed hbw = true := by
  simp only [decodeLcd, lcdCase]
  repeat' split
  all_goals rfl

theorem decodeLcd_lcdReturnHome : ∀ x, decodeLcd (0b0000001#7 ++ x) = .lcdReturnHome x := by decide

theorem decodeLcd_lcdEntryMode :
    ∀ id s, decodeLcd (0b000001#6 ++ id ++ s) = .lcdEntryMode id s := by decide

theorem decodeLcd_lcdDisplayControl :
    ∀ d c b, decodeLcd (0b00001#5 ++ d ++ c ++ b) = .lcdDisplayControl d c b := by decide

theorem decodeLcd_lcdShift :
    ∀ sc rl x, decodeLcd (0b0001#4 ++ sc ++ rl ++ x) = .lcdShift sc rl x := by decide

theorem decodeLcd_lcdFunctionSet :
    ∀ dl n f x, decodeLcd (0b001#3 ++ dl ++ n ++ f ++ x) = .lcdFunctionSet dl n f x := by decide

theorem decodeLcd_lcdSetCgram : ∀ acg, decodeLcd (0b01#2 ++ acg) = .lcdSetCgram acg := by decide

theorem decodeLcd_lcdSetDdram : ∀ add, decodeLcd (0b1#1 ++ add) = .lcdSetDdram add := by decide

/-! ### Both round trips -/

/-- Settles O1, one case for each instruction. -/
theorem encodedInstructionDecodesBack : Obligations.EncodedInstructionDecodesBack := by
  intro hbw i hi
  cases i with
  | init => exact decodeCommand_packWord hbw 0x1 0 0
  | cmd b8 => exact decodeCommand_packWord hbw 0x2 b8 0
  | putc b8 => exact decodeCommand_packWord hbw 0x3 b8 0
  | status => exact decodeCommand_packWord hbw 0x4 0 0
  | waitidle => exact decodeCommand_packWord hbw 0x5 0 0
  | goto x y => exact decodeCommand_packWord hbw 0x6 x y
  | waitb n =>
    obtain rfl : hbw = true := hi
    exact decodeCommand_packWord true 0x7 n 0
  | lcdClear => rfl
  | lcdReturnHome x => exact congrArg Except.ok (decodeLcd_lcdReturnHome x)
  | lcdEntryMode id s => exact congrArg Except.ok (decodeLcd_lcdEntryMode id s)
  | lcdDisplayControl d c b => exact congrArg Except.ok (decodeLcd_lcdDisplayControl d c b)
  | lcdShift sc rl x => exact congrArg Except.ok (decodeLcd_lcdShift sc rl x)
  | lcdFunctionSet dl n f x => exact congrArg Except.ok (decodeLcd_lcdFunctionSet dl n f x)
  | lcdSetCgram acg => exact congrArg Except.ok (decodeLcd_lcdSetCgram acg)
  | lcdSetDdram add => exact congrArg Except.ok (decodeLcd_lcdSetDdram add)
  | lcdNone => rfl

/-- Settles O2: a command word by its fields, an LCD byte by its class. -/
theorem decodedWordEncodesBack : Obligations.DecodedWordEncodesBack := by
  intro hbw e i h
  cases e with
  | command w => exact encode_of_decodeCommand h
  | lcdByte v =>
    obtain rfl : decodeLcd v = i := Except.ok.inj h
    exact ⟨encode_decodeLcd v, decodeLcd_wellFormed hbw v⟩

/-! ### The rows of the opcode table (R75) -/

/-- Every encoding has the width and the fixed bits of its instruction's row. -/
theorem encode_matches_tableRow : ∀ i : Instr, Laws.TableRow.Statement i
  | .init => Laws.TableRow.init
  | .cmd b8 => Laws.TableRow.cmd b8
  | .putc b8 => Laws.TableRow.putc b8
  | .status => Laws.TableRow.status
  | .waitidle => Laws.TableRow.waitidle
  | .goto x y => Laws.TableRow.goto x y
  | .waitb n => Laws.TableRow.waitb n
  | .lcdClear => Laws.TableRow.lcdClear
  | .lcdReturnHome x => Laws.TableRow.lcdReturnHome x
  | .lcdEntryMode id s => Laws.TableRow.lcdEntryMode id s
  | .lcdDisplayControl d c b => Laws.TableRow.lcdDisplayControl d c b
  | .lcdShift sc rl x => Laws.TableRow.lcdShift sc rl x
  | .lcdFunctionSet dl n f x => Laws.TableRow.lcdFunctionSet dl n f x
  | .lcdSetCgram acg => Laws.TableRow.lcdSetCgram acg
  | .lcdSetDdram add => Laws.TableRow.lcdSetDdram add
  | .lcdNone => Laws.TableRow.lcdNone

/-- The row of what a command word decodes to is one of the seven. -/
theorem tableRow_mem_commandRows {hbw : Bool} {w : CommandWord} {i : Instr}
    (h : decodeCommand hbw w = .ok i) : tableRow i ∈ commandRows := by
  rcases Machine.decodeFields_command h with rfl | rfl | rfl | rfl | rfl | rfl | rfl <;>
    simp [tableRow, commandRows]

/-- A mask of ones compares the whole field. -/
theorem eq_of_and_ones {n : Nat} {x m p : BitVec n} (hm : m = .allOnes n) (h : x &&& m = p) :
    x = p := by
  rw [← h, hm, BitVec.and_allOnes]

/-- A row that fixes every bit matches its pattern alone. -/
theorem eq_of_matches_allBits {w : CommandWord} {p : Nat} (hp : p < 2 ^ 20)
    (h : (TableRow.mk 20 p 0xFFFFF).matches w.toNat = true) : w = BitVec.ofNat 20 p := by
  obtain ⟨ho, ha, hb⟩ := (matches_iff_fields (.mk 20 p 0xFFFFF) w (by norm_num) hp).mp h
  rw [← packWord_fields w, eq_of_and_ones (m := opField 0xFFFFF) (by decide) ho,
    eq_of_and_ones (m := aField 0xFFFFF) (by decide) ha,
    eq_of_and_ones (m := bField 0xFFFFF) (by decide) hb, packWord_fields]

/-- A row that fixes the fields `op` and `b` leaves `a` to the word. -/
theorem eq_packWord_of_matches_opAndB {w : CommandWord} {p : Nat} (hp : p < 2 ^ 20)
    (h : (TableRow.mk 20 p 0xF00FF).matches w.toNat = true) :
    ∃ a, w = packWord (opField (BitVec.ofNat 20 p)) a (bField (BitVec.ofNat 20 p)) := by
  obtain ⟨ho, -, hb⟩ := (matches_iff_fields (.mk 20 p 0xF00FF) w (by norm_num) hp).mp h
  refine ⟨aField w, ?_⟩
  rw [← eq_of_and_ones (m := opField 0xF00FF) (by decide) ho,
    ← eq_of_and_ones (m := bField 0xF00FF) (by decide) hb, packWord_fields]

/-- A row that fixes the field `op` leaves `a` and `b` to the word. -/
theorem eq_packWord_of_matches_op {w : CommandWord} {p : Nat} (hp : p < 2 ^ 20)
    (h : (TableRow.mk 20 p 0xF0000).matches w.toNat = true) :
    ∃ a b, w = packWord (opField (BitVec.ofNat 20 p)) a b := by
  obtain ⟨ho, -, -⟩ := (matches_iff_fields (.mk 20 p 0xF0000) w (by norm_num) hp).mp h
  refine ⟨aField w, bField w, ?_⟩
  rw [← eq_of_and_ones (m := opField 0xF0000) (by decide) ho, packWord_fields]

/-- A word that matches one of the seven rows decodes to an instruction of that row. -/
theorem decodeCommand_of_matches {w : CommandWord} {r : TableRow} (hr : r ∈ commandRows)
    (h : r.matches w.toNat = true) : ∃ i, decodeCommand true w = .ok i ∧ tableRow i = r := by
  simp only [commandRows, List.mem_cons, List.not_mem_nil, or_false] at hr
  rcases hr with rfl | rfl | rfl | rfl | rfl | rfl | rfl
  · obtain rfl := eq_of_matches_allBits (by decide) h
    exact ⟨.init, rfl, rfl⟩
  · obtain ⟨a, rfl⟩ := eq_packWord_of_matches_opAndB (by decide) h
    exact ⟨.cmd a, decodeCommand_packWord true 0x2 a 0, rfl⟩
  · obtain ⟨a, rfl⟩ := eq_packWord_of_matches_opAndB (by decide) h
    exact ⟨.putc a, decodeCommand_packWord true 0x3 a 0, rfl⟩
  · obtain rfl := eq_of_matches_allBits (by decide) h
    exact ⟨.status, rfl, rfl⟩
  · obtain rfl := eq_of_matches_allBits (by decide) h
    exact ⟨.waitidle, rfl, rfl⟩
  · obtain ⟨a, b, rfl⟩ := eq_packWord_of_matches_op (by decide) h
    exact ⟨.goto a b, decodeCommand_packWord true 0x6 a b, rfl⟩
  · obtain ⟨a, rfl⟩ := eq_packWord_of_matches_opAndB (by decide) h
    exact ⟨.waitb a, decodeCommand_packWord true 0x7 a 0, rfl⟩

/-- Settles O3: the rows that match a word are the row of what the word decodes to. -/
theorem everyWordIsOneLegalRowOrIllegal : Obligations.EveryWordIsOneLegalRowOrIllegal := by
  intro w
  refine ⟨fun i hi => ⟨?_, tableRow_mem_commandRows hi⟩, fun err herr r hr => ?_,
    fun r hr r' hr' h h' => ?_⟩
  · obtain ⟨-, hmatch⟩ := encode_matches_tableRow i
    rwa [(encode_of_decodeCommand hi).1] at hmatch
  · rw [Bool.eq_false_iff]
    intro h
    obtain ⟨i, hi, -⟩ := decodeCommand_of_matches hr h
    cases herr.symm.trans hi
  · obtain ⟨i, hi, hrow⟩ := decodeCommand_of_matches hr h
    obtain ⟨i', hi', hrow'⟩ := decodeCommand_of_matches hr' h'
    obtain rfl : i = i' := Except.ok.inj (hi.symm.trans hi')
    exact hrow.symm.trans hrow'

/-- Settles O4, on the words the spec lists. -/
theorem specWordsDecode : Obligations.SpecWordsDecode := by
  unfold Obligations.SpecWordsDecode
  decide

end Sys2Proof
end

section
/-! SUPPORT. The statements about the status byte and the assembler's lines. -/

namespace Sys2Proof.Machine

/-- Settles O35: the fields are read by their bits, and packing puts them there. -/
theorem statusByteFields : Obligations.StatusByteFields :=
  ⟨fun _ => ⟨BitVec.getLsbD_eq_getElem _, rfl⟩,
    fun busy ac => ⟨busyFlag_statusByte busy ac, addressCounter_statusByte busy ac⟩⟩

/-! ### The pseudo-instructions (R82) -/

/-- `ENTRY i, s` sets bit 1 and bit 0 of the entry-mode byte (R197). -/
theorem expand_entry {i s : Nat} (hi : i ≤ 1) (hs : s ≤ 1) :
    Asm.expand (.entry i s) = some [.cmd (BitVec.ofNat 8 (4 + 2 * i + s))] := by
  interval_cases i <;> interval_cases s <;> rfl

/-- `SETADDR a` sets bit 7 over the address (R197). -/
theorem expand_setaddr {a : Nat} (ha : a ≤ 127) :
    Asm.expand (.setaddr a) = some [.cmd (BitVec.ofNat 8 (128 + a))] := by
  have hbyte : 0x80 ||| BitVec.ofNat 8 a = BitVec.ofNat 8 (128 + a) := by
    apply BitVec.eq_of_toNat_eq
    have hor : 128 + a = 128 ||| a := Nat.two_pow_add_eq_or_of_lt (i := 7) (by omega) 1
    rw [BitVec.toNat_or, BitVec.toNat_ofNat, BitVec.toNat_ofNat, Nat.mod_eq_of_lt (by omega),
      Nat.mod_eq_of_lt (by omega), hor]
    rfl
  simp only [Asm.expand, Asm.wellFormed, ha, decide_true, if_true, hbyte]

/-- The renderer turns the text up to its first 0x00 into commands, byte by byte (R196). -/
theorem renderBytes_eq_map : ∀ l : List Byte,
    renderBytes l =
      (l.takeWhile (· ≠ 0x00)).map fun c => if c = 0x0A then .goto 1 2 else .putc c
  | [] => rfl
  | c :: r => by
    by_cases hc : c = 0x00
    · simp [renderBytes, hc]
    · rw [renderBytes, if_neg hc, List.takeWhile_cons_of_pos (by exact decide_eq_true hc), List.map_cons,
        renderBytes_eq_map r]
      rfl

/-- Settles O36: the fixed lines by evaluation, `ENTRY` and `SETADDR` by their bits, `RENDER` by the part of
the text before its first 0x00. -/
theorem pseudoInstructionsExpand : Obligations.PseudoInstructionsExpand := by
  refine ⟨rfl, rfl, rfl, rfl, fun _ _ => expand_entry, fun _ => expand_setaddr, fun _ => rfl,
    fun l r hl => ?_, fun l hl => ?_⟩
  · have hpre : (l ++ 0x00 :: r).takeWhile (· ≠ (0x00 : Byte)) = l := by
      rw [List.takeWhile_append_of_pos fun c hc => decide_eq_true (hl c hc)]
      simp
    exact congrArg some ((renderBytes_eq_map _).trans (by rw [hpre]))
  · have hpre : l.takeWhile (· ≠ (0x00 : Byte)) = l :=
      List.takeWhile_eq_self_iff.mpr fun c hc => decide_eq_true (hl c hc)
    exact congrArg some ((renderBytes_eq_map _).trans (by rw [hpre]))

end Sys2Proof.Machine
end

section
/-! SUPPORT. The statements about every step of the bus transport: the spacing of events (R105, R106, R110,
R111), the fault that is never raised (R113), contention (R112), the pin trace (R100) and the device's reaction
at a falling edge of E (R224). -/

namespace Sys2Proof.Machine

/-! ### The spacing of events outside a program -/

/-- A block in Uninitialized has released the control lines, so what `Spaced` asks of the next event,
`KeepsSpacing` does too. -/
theorem Spaced.keepsSpacing {s : State} (h : Spaced s) (hi : Inv s) : KeepsSpacing s := by
  refine ⟨h.trace, h.ctl, h.fall, h.past, fun u ev hlast => (h.next u ev hlast).imp_left fun hd => ?_⟩
  exact Bool.eq_false_iff.mpr fun hc => hi.driven hc hd

/-- A block that has released the control lines is Uninitialized. -/
theorem KeepsSpacing.spaced {s : State} (h : KeepsSpacing s) (hi : Inv s) : Spaced s :=
  ⟨h.trace, h.ctl, h.fall, h.past, fun u ev hlast =>
    (h.next u ev hlast).imp_left fun hc => (hi.released hc).1⟩

/-- The spacing of events does not depend on the host's acts. -/
theorem hostPasses_keepsSpacing {s : State} (h : KeepsSpacing s) : KeepsSpacing s.hostPasses := by
  rw [s.hostPasses_eq_withHost]
  exact ⟨h.trace, h.ctl, h.fall, h.past, h.next⟩

/-- Edges that pass without an event only bring the next one nearer. -/
theorem KeepsSpacing.tick {s : State} (h : KeepsSpacing s) (g : Nat) : KeepsSpacing (s.tick g) :=
  have hdue : (s.tick g).dataDue = s.dataDue := rfl
  h.later rfl rfl rfl rfl (by simp) (.inr ⟨rfl, by simp [hdue]⟩)

/-- A reset releases the control lines, and the trace goes on after it (R281, log 14). -/
theorem KeepsSpacing.applyReset {s : State} (h : KeepsSpacing s) : KeepsSpacing s.applyReset :=
  h.later rfl rfl rfl rfl (Nat.le_succ _) (.inl rfl)

/-- An edge in IDLE, at which a word is accepted or none is. -/
theorem idleStep_keepsSpacing {s : State} (h : KeepsSpacing s) : KeepsSpacing (idleStep s) := by
  have ht := h.tick 1
  obtain ⟨acts, ⟨w, hw⟩ | hi⟩ := idleStep_cases s
  · rw [hw]
    exact ⟨ht.trace, ht.ctl, ht.fall, ht.past, ht.next⟩
  · rw [hi]
    exact ⟨ht.trace, ht.ctl, ht.fall, ht.past, ht.next⟩

/-- An error answer appends no event (R251, R252). -/
theorem raiseErr_keepsSpacing {s : State} (h : KeepsSpacing s) (code : RspCode) :
    KeepsSpacing (s.raiseErr code) := by
  have ht := h.tick 1
  exact ⟨ht.trace, ht.ctl, ht.fall, ht.past, ht.next⟩

/-! ### One event as a step -/

/-- At pace 0 the start of a program is its first event. -/
theorem runProgram_of_pace_zero {s : State} (hp : s.pace = 0) (todo : List Micro) (fin : Finish) :
    runProgram todo fin s = microStep todo fin s := by
  rw [runProgram, resume, State.goOn_pace, hp, runEvents_running]
  cases microStep todo fin s <;> rfl

/-- A trace that has grown is not the trace it was. -/
theorem trace_ne_of_cons {s t : State} {e : Nat × Event} (h : t.trace = e :: s.trace) :
    t.trace ≠ s.trace :=
  fun he => List.cons_ne_self e s.trace (h.symm.trans he)

/-- At pace 0 a step that appends an event is one event of a program. -/
theorem step_pinStep {s t : State} {e : Nat × Event} (hi : Inv s) (hr : s.rstNow = false)
    (hp : s.pace = 0) (h : step s = .next t) (htr : t.trace = e :: s.trace) :
    PinStep s.hostPasses t := by
  have hpass := s.hostPasses_eq_withHost
  have hgrown := trace_ne_of_cons htr
  by_cases hs : s.seq = .idle
  · obtain rfl := Host.Outcome.next.inj ((step_of_idle hr hs).symm.trans h)
    exact absurd (idleStep_edgeFrame s).trace hgrown
  · rcases hi.step_cases hr hs with ⟨code, ho⟩ | ⟨todo, fin, l, ho, hf, ha⟩
    · obtain rfl := Host.Outcome.next.inj (ho.symm.trans h)
      exact absurd (by rw [hpass]; rfl) hgrown
    · rw [runProgram_of_pace_zero (s.hostPasses_pace.trans hp)] at ho
      exact microStep_pins fin hf.ctlOe hf.e ha (ho.symm.trans h)

/-- One event counts for the pin trace by the pins of the block as well as by those the trace accounts for:
they differ only while the control lines are released, and then the event is `EnCtl`, which always counts. -/
theorem PinsRecorded.changedBy_pinsOf {s : State} {ev : Event} (h : PinsRecorded s)
    (hev : s.ctlOe = true ∨ ev = .enCtl) :
    (pinsOf (s.trace.map (·.2))).changedBy ev = s.pins.changedBy ev := by
  rcases hev with hc | rfl
  · rw [h.driven hc]
  · rfl

/-! ### The statements -/

/-- Settles O42: a reset, an edge in IDLE and an error answer only let edges pass, and a program keeps the
distances event by event. -/
theorem stepKeepsEventSpacing : Obligations.StepKeepsEventSpacing := by
  intro s t hi hs h
  refine KeepsSpacing.spaced ?_ (stepKeepsInvariant s t hi h)
  have hk := hs.keepsSpacing hi
  have hk' := hostPasses_keepsSpacing hk
  cases hr : s.rstNow with
  | true =>
    obtain rfl := Host.Outcome.next.inj ((step_of_rst hr).symm.trans h)
    exact hk'.applyReset
  | false =>
    by_cases hseq : s.seq = .idle
    · obtain rfl := Host.Outcome.next.inj ((step_of_idle hr hseq).symm.trans h)
      exact idleStep_keepsSpacing hk
    · rcases hi.step_cases hr hseq with ⟨code, ho⟩ | ⟨todo, fin, l, ho, hf, ha⟩
      · obtain rfl := Host.Outcome.next.inj (ho.symm.trans h)
        exact raiseErr_keepsSpacing hk' code
      · exact runProgram_spaced hf (hostPasses_inv hi).keeps hk' ha (ho.symm.trans h)

/-- Settles O41: the next state is the one of `step_inv`. -/
theorem stepNeverStops : Obligations.StepNeverStops := fun _ hi =>
  (step_inv hi).imp fun _ => And.left

/-- Settles O43: while the device drives the lines the block reads, so DIR is Input (R41 item 3). -/
theorem noBusContention : Obligations.NoBusContention := by
  rintro s hi ⟨hblock, hdevice⟩
  have hout : s.dir = .output := by simpa [State.blockDrives] using hblock
  obtain ⟨⟨-, he⟩, hread⟩ : (s.ctlOe = true ∧ s.e = true) ∧ s.rw = .read := by
    simpa [State.deviceDrives] using hdevice
  exact nomatch hout.symm.trans (hi.reading he hread)

/-- Settles O52: the step is one event, which counts for the pin trace exactly when an output changed. -/
theorem pinTraceKeepsEventsThatChangePins : Obligations.PinTraceKeepsEventsThatChangePins := by
  intro s t c ev hi hrec hr hp h htr
  have hstep := step_pinStep hi hr hp h htr
  rw [s.hostPasses_eq_withHost] at hstep
  rcases hstep with ⟨hsame, -, -⟩ | ⟨c', ev', htr', -, hev, -, hchanged⟩
  · exact absurd hsame (trace_ne_of_cons htr)
  · obtain ⟨⟨-, rfl⟩, -⟩ : (c' = c ∧ ev' = ev) ∧ s.trace = s.trace := by
      simpa using htr'.symm.trans htr
    have hcounts : s.pins.changedBy ev' = true ↔ t.pins ≠ s.pins ∨ t.e ≠ s.e ∨ t.ctlOe ≠ s.ctlOe :=
      hchanged
    rw [pinTrace_events htr, hrec.changedBy_pinsOf hev]
    refine ⟨fun hdiff => by rw [if_pos (hcounts.mpr hdiff)], fun ⟨hpins, he, hctl⟩ => ?_⟩
    rw [if_neg (by simp [hcounts, hpins, he, hctl]), List.append_nil]

/-- Settles O6: the fall's `require` is met, and the device reacts with the meaning of the byte. -/
theorem stepRunsLcdByteAtFallingEdge : Obligations.StepRunsLcdByteAtFallingEdge := by
  intro s rest fin hr hp hs he hc hd hw hrs
  have hfall : strobeFall s.hostPasses =
      .next ((s.hostPasses.elapse s.hostPasses.due).dropE .eDown) := by
    refine requireThat_true ?_ _
    rw [s.hostPasses_eq_withHost]
    simp [he, hd, hw]
  rw [step_of_event hr hp hs, microStep, strobeDown, hfall, ← latchInstruction_eq_exec]
  rw [s.hostPasses_eq_withHost]
  simp [latchWrite, hc, hrs]

end Sys2Proof.Machine
end

section
/-! SUPPORT. The statements about the transfers CMD, PUTC, GOTO and STATUS (R164, R165, R166, R192): the phases
of each end in one view of the state, from which what a statement asks is read off. -/

namespace Sys2Proof.Machine

/-! ### Reading off a view -/

/-- A command that finds DRV_STATE as it needs it runs (R254). -/
theorem inState_of_eq {s : State} {d : DrvState} (h : s.drvState = d)
    (body : State → Host.Outcome State Fault Refusal) : inState d s body = body s := if_pos h

/-- No register of the frame is a matter of timing. -/
theorem TransferFrame.of_view {s t : State} (h : TransferFrame s.view t.view) : TransferFrame s t :=
  ⟨h.drvState, h.ctlOe, h.rcnt, h.cmdOp, h.cmdA, h.cmdB, h.platform, h.host, h.pace⟩

/-- How CMD, PUTC and GOTO end: the polls and the write phase are made, the answer is given, and nothing else of
the block has changed; `lcd` is the device agent. -/
structure WriteCompletes (s t : State) (k : Nat) (rs : RegSel) (v d : Byte) (lcd : Lcd) :
    Prop where
  answered : Answered s t .ok d
  frame : TransferFrame s t
  pcnt : t.pcnt = s.pcnt
  bus : BusAfterWrite t rs v
  dbIn : t.dbIn = statusByte false s.lcd.device.ac
  events : t.events = s.events ++ s.lcd.pollTrace (k + 1) ++ writeEvents rs v
  lcd : t.lcd = lcd

/-- `WaitIdle` and a write phase on a device busy for `k` more reads, answered OK; `G` is what the device does
with the byte. -/
theorem waitThenWrite_completes {s : State} {k : Nat} (hs : Operable s) (hb : s.lcd.busyFor k)
    {rs : RegSel} {v : Byte} {G : Platform → Lcd → Lcd}
    (hG : ∀ u : State, u.ctlOe = true → u.rs = rs → u.dbOut = v →
      latchWrite u = .next { u with lcd := G u.platform u.lcd })
    (d : Byte) (hp : 4 * (k + 1) + 5 ≤ s.pace) :
    ∃ t, runProgram (waitIdle ++ busWrite rs v) (.done .ok d) s = .next t ∧
      WriteCompletes s t k rs v d (G s.platform (s.lcd.afterPolls (k + 1))) := by
  obtain ⟨t, hrun, hidle, hv⟩ := waitThenWrite hs hb rs v hG .ok d hp
  refine ⟨t, hrun, ⟨hidle, view_field hv State.rspValid, view_field hv State.rspCode,
    view_field hv State.rspData, view_field hv State.responses⟩, .of_view (hv ▸ by constructor <;> rfl),
    view_field hv State.pcnt, ⟨view_field hv State.dir, view_field hv State.rs, view_field hv State.rw,
    view_field hv State.e, view_field hv State.dbOut⟩, view_field hv State.dbIn, ?_,
    view_field hv State.lcd⟩
  rw [List.append_assoc]
  refine events_of_view_append ((view_field hv State.trace).trans ?_)
  simp [stamped]

/-! ### The device after the polls -/

/-- The polls of `WaitIdle` leave the device idle (R160). -/
theorem Lcd.busyFor_zero_afterPolls {l : Lcd} {k : Nat} (h : l.busyFor k) :
    (l.afterPolls (k + 1)).busyFor 0 := by
  obtain ⟨hdevice, -⟩ := Lcd.afterPolls_device h
  exact ⟨by rw [hdevice]; exact h.1, by rw [hdevice]⟩

/-- The draws of BUSY are the agent's listed ones. -/
theorem DrawsBusy.congr {l l' m : Lcd} (h : l.busyDraws = l'.busyDraws) (hd : DrawsBusy l m) :
    DrawsBusy l' m := by
  simpa only [DrawsBusy, h] using hd

/-- A data byte leaves the listed draws for BUSY. -/
theorem Lcd.takeData_busyDraws (v : Byte) (l : Lcd) : (l.takeData v).busyDraws = l.busyDraws :=
  l.apply_busyDraws _

/-- A data byte on a device that accepts writes, with the display shift off (R236). -/
theorem Lcd.writeData_taken {p : Platform} {l : Lcd} (ht : p.strobeTimingOK = true)
    (hb : l.busyFor 0) (hsh : l.device.s = false) (v : Byte) :
    ∃ q, (l.write p 0 (Lcd.takeData v)).device =
      { l.device with
        ddram := l.device.ddram.write l.device.ac v, ac := l.device.nextAc l.free,
        seqPos := 0, busy := q } := by
  obtain ⟨q, hq⟩ := Lcd.latch_taken (pos := 0) (take := Lcd.takeData v) hb.1 hb.2
  refine ⟨q, ?_⟩
  rw [Lcd.write_eq_latch ht, hq]
  simp [Lcd.takeData, Lcd.apply, dataEffect, hsh]

/-- With the display shift on, the device is lost track of (R236). -/
theorem Lcd.writeData_lost {p : Platform} {l : Lcd} (ht : p.strobeTimingOK = true)
    (hb : l.busyFor 0) (hsh : l.device.s = true) (v : Byte) :
    (l.write p 0 (Lcd.takeData v)).device.unmodelled = true := by
  obtain ⟨q, hq⟩ := Lcd.latch_taken (pos := 0) (take := Lcd.takeData v) hb.1 hb.2
  rw [Lcd.write_eq_latch ht, hq]
  simp [Lcd.takeData, Lcd.apply, dataEffect, hsh]

/-! ### GOTO's address (R190, R191, R235) -/

/-- `MapXY` of a cell of the screen, on exact integers (R190). -/
theorem mapXY_eq_ofNat (x : Byte) {y : Byte} (hy : y = 1 ∨ y = 2) :
    mapXY x y = BitVec.ofNat 7 ((y.toNat - 1) * 0x40 + (x.toNat - 1)) := by
  rcases hy with rfl | rfl
  · simp [mapXY]
  · simp [mapXY, Nat.add_comm]

theorem mapXY_toNat {x y : Byte} (h16 : x.toNat ≤ 16) (hy : y = 1 ∨ y = 2) :
    (mapXY x y).toNat = (y.toNat - 1) * 0x40 + (x.toNat - 1) := by
  rw [mapXY_eq_ofNat x hy, BitVec.toNat_ofNat]
  rcases hy with rfl | rfl
  · exact Nat.mod_eq_of_lt (by simp; omega)
  · exact Nat.mod_eq_of_lt (by simp; omega)

/-- The address of a cell of the screen, as the byte GOTO answers. -/
theorem zext8_mapXY {x y : Byte} (h16 : x.toNat ≤ 16) (hy : y = 1 ∨ y = 2) :
    zext8 (mapXY x y) = BitVec.ofNat 8 ((y.toNat - 1) * 0x40 + (x.toNat - 1)) := by
  apply BitVec.eq_of_toNat_eq
  rw [zext8, BitVec.toNat_setWidth, BitVec.toNat_ofNat, mapXY_toNat h16 hy]

/-- Bit 7 stands over the address (R78). -/
theorem setAddressByte_eq_append : ∀ a : Addr7, setAddressByte a = 0b1#1 ++ a := by decide

theorem setAddressByte_toNat : ∀ a : Addr7, (setAddressByte a).toNat = 0x80 + a.toNat := by decide

theorem setAddressByte_mapXY {x y : Byte} (h16 : x.toNat ≤ 16) (hy : y = 1 ∨ y = 2) :
    setAddressByte (mapXY x y) = BitVec.ofNat 8 (0x80 + (y.toNat - 1) * 0x40 + (x.toNat - 1)) := by
  have hnat := setAddressByte_toNat (mapXY x y)
  rw [mapXY_toNat h16 hy, ← Nat.add_assoc] at hnat
  rw [← hnat, BitVec.ofNat_toNat, BitVec.setWidth_eq]

/-- Every cell of the screen is in the two-line map. -/
theorem inTwoLineMap_mapXY {x y : Byte} (h16 : x.toNat ≤ 16) (hy : y = 1 ∨ y = 2) :
    inTwoLineMap (mapXY x y) = true := by
  simp only [inTwoLineMap, mapXY_toNat h16 hy, Bool.or_eq_true, Bool.and_eq_true, decide_eq_true_eq]
  rcases hy with rfl | rfl
  · left; simp; omega
  · right; simp; omega

theorem inRange_of_bounds {x y : Byte} (h1 : 1 ≤ x.toNat) (h16 : x.toNat ≤ 16) (hy : y = 1 ∨ y = 2) :
    inRange x y = true := by
  rcases hy with rfl | rfl <;> simp [inRange, Config.nCols, h1, h16]

/-- GOTO to a cell of the screen runs its set-address write (R192). -/
theorem exec_goto_inRange {s : State} {x y : Byte} (hd : s.drvState = .ready)
    (hr : inRange x y = true) :
    exec (.goto x y) s =
      runProgram (writeInstruction (setAddressByte (mapXY x y))) (.done .ok (zext8 (mapXY x y)))
        s := by
  rw [exec, execGoto, inState_of_eq hd, if_pos hr]

/-- What the set-DDRAM-address byte does to a device that takes it (R235). -/
def setDdramEffect (a : Addr7) (d : Device) : Option Device :=
  if d.n2 && inTwoLineMap a then some { d with ac := a } else none

theorem exec_lcdSetDdram (a : Addr7) (s : State) :
    exec (.lcdSetDdram a) s =
      .next { s with lcd := s.lcd.instruction (setDdramEffect a) s.platform } := rfl

/-- The device's reaction to GOTO's byte. -/
theorem latchWrite_setAddress {a : Addr7} {u : State} (hc : u.ctlOe = true) (hr : u.rs = .instruction)
    (hd : u.dbOut = setAddressByte a) :
    latchWrite u = .next { u with lcd := u.lcd.instruction (setDdramEffect a) u.platform } := by
  rw [← exec_lcdSetDdram, ← decodeLcd_lcdSetDdram a, ← setAddressByte_eq_append,
    ← latchInstruction_eq_exec]
  simp [latchWrite, hc, hr, hd]

/-- A two-line device takes an address in the map (R235). -/
theorem setDdramEffect_twoLine {d : Device} {a : Addr7} (hn : d.n2 = true) (ha : inTwoLineMap a = true) :
    setDdramEffect a d = some { d with ac := a } := by simp [setDdramEffect, hn, ha]

/-- The model loses track of a device in one-line mode (R235). -/
theorem setDdramEffect_oneLine {d : Device} (h : d.n2 = false) (a : Addr7) :
    setDdramEffect a d = none := by simp [setDdramEffect, h]

/-! ### The statements -/

/-- Settles O15: the device's reaction to the byte is the meaning of the instruction it decodes to. -/
theorem cmdCompletes : Obligations.CmdCompletes := by
  intro s b8 k hs hb hp
  obtain ⟨G, hG, hexec⟩ := latchWrite_instruction b8
  obtain ⟨t, hrun, ht⟩ := waitThenWrite_completes hs hb hG 0x00 hp
  refine ⟨t, (inState_of_eq hs.ready _).trans hrun, ht.answered, ht.frame, ht.pcnt, ht.bus, ht.dbIn,
    ht.events, fun f hlcd hplatform => ⟨_, hexec f, ?_⟩⟩
  rw [ht.lcd, hlcd, hplatform]

/-- Settles O16: after the polls the device is as it was but idle, so it takes the data byte, or is lost with
the shift on. -/
theorem putcCompletes : Obligations.PutcCompletes := by
  intro s b8 k hs hb hp
  obtain ⟨hdevice, hdraws⟩ := Lcd.afterPolls_device hb
  obtain ⟨t, hrun, ht⟩ := waitThenWrite_completes hs hb
    (G := fun p l => l.write p 0 (Lcd.takeData b8)) (latchWrite_data b8) 0x00 hp
  have hidle := Lcd.busyFor_zero_afterPolls hb
  have hshift : (s.lcd.afterPolls (k + 1)).device.s = s.lcd.device.s := by rw [hdevice]
  refine ⟨t, (inState_of_eq hs.ready _).trans hrun, ht.answered, ht.frame, ht.pcnt, ht.bus, ht.dbIn,
    ht.events, ?_, fun hsh _ hn hmap => ?_, fun hsh => ?_⟩
  · rw [ht.lcd, Lcd.write_eq_latch hs.timing]
    exact (Lcd.latch_draws (Lcd.takeData_busyDraws ..)).congr hdraws
  · obtain ⟨q, hq⟩ := Lcd.writeData_taken hs.timing hidle (hshift.trans hsh) b8
    have hac := Device.nextAc_stated (Device.nextStated_of_map hn hmap)
      (s.lcd.afterPolls (k + 1)).free
    rw [ht.lcd, hq, hdevice]
    exact ⟨Memory.read_write_same hs.ddram .., fun _ hne => Memory.read_write_other _ hne _, hac,
      ⟨rfl, rfl, rfl, hb.1⟩, ⟨rfl, rfl, rfl⟩, ⟨rfl, rfl⟩⟩
  · rw [ht.lcd]
    exact Lcd.writeData_lost hs.timing hidle (hshift.trans hsh) b8

/-- Settles O19: GOTO's byte is the set-address byte of a cell of the screen, which is in the two-line map. -/
theorem gotoCompletes : Obligations.GotoCompletes := by
  intro s x y k hs hb hp h1 h16 hy
  obtain ⟨hdevice, hdraws⟩ := Lcd.afterPolls_device hb
  obtain ⟨t, hrun, ht⟩ := waitThenWrite_completes hs hb
    (fun _ => latchWrite_setAddress (a := mapXY x y)) (zext8 (mapXY x y)) hp
  have hidle := Lcd.busyFor_zero_afterPolls hb
  rw [← mapXY_eq_ofNat x hy, ← zext8_mapXY h16 hy, ← setAddressByte_mapXY h16 hy]
  refine ⟨t, (exec_goto_inRange hs.ready (inRange_of_bounds h1 h16 hy)).trans hrun, ht.answered,
    ht.frame, ht.pcnt, ht.bus, ht.dbIn, ht.events, ?_, fun h8 hn => ?_, fun hlost => ?_⟩
  · rw [ht.lcd]
    exact (Lcd.instruction_draws hs.timing).congr hdraws
  · have htakes : Takes { s with lcd := s.lcd.afterPolls (k + 1) } :=
      ⟨hs.timing, hidle.1, hidle.2, by rw [hdevice]; exact h8⟩
    have heffect : setDdramEffect (mapXY x y) (s.lcd.afterPolls (k + 1)).device = some _ :=
      setDdramEffect_twoLine (by rw [hdevice]; exact hn) (inTwoLineMap_mapXY h16 hy)
    obtain ⟨q, hq⟩ := Lcd.instruction_taken htakes heffect
    dsimp only at hq
    rw [ht.lcd, hq, hdevice]
    exact ⟨rfl, fun _ => rfl, ⟨rfl, rfl, rfl, hb.1⟩, ⟨rfl, rfl, rfl⟩, ⟨rfl, rfl⟩⟩
  · rw [ht.lcd]
    refine Lcd.instruction_lost hs.timing (.inr (.inr ?_))
    rw [hdevice]
    exact hlost.imp_right fun hn => setDdramEffect_oneLine hn _

/-- Settles O17: one read phase samples the status answer, which is also the answer given. -/
theorem statusCompletes : Obligations.StatusCompletes := by
  intro s hs hp
  obtain ⟨t, hruns, hv⟩ := busRead_runs hs.low hs.driven hs.timing [] .sampled
  have hdbIn : t.dbIn = s.lcd.statusAnswer := view_field hv State.dbIn
  obtain ⟨c, d, hend, -, hsampled, -⟩ := finish_view (s := t) .sampled
  obtain ⟨rfl, rfl⟩ := hsampled rfl
  have hresponses : t.responses = s.responses := view_field hv State.responses
  rw [hdbIn, hresponses, hv] at hend
  refine ⟨t.finish .sampled, s.lcd.statusAnswer,
    (inState_of_eq hs.ready _).trans (runProgram_of_runs hruns hp),
    ⟨finish_seq _, view_field hend State.rspValid, view_field hend State.rspCode,
      view_field hend State.rspData, view_field hend State.responses⟩,
    .of_view (hend ▸ by constructor <;> rfl), view_field hend State.pcnt,
    ⟨view_field hend State.dir, view_field hend State.rs, view_field hend State.rw,
      view_field hend State.e, view_field hend State.dbIn, view_field hend State.dbOut⟩,
    events_of_view_append (view_field hend State.trace), view_field hend State.lcd,
    fun hm hb => Lcd.statusAnswer_idle hm hb, fun hm hb => ?_⟩
  rw [Lcd.busyFlag_statusAnswer hm]
  exact decide_eq_true hb

end Sys2Proof.Machine
end

section
/-! SUPPORT. The statements about INIT (R130 to R141) and about commands out of their state (R254): after the
timed part each synchronized write waits until the device is idle and then has its byte's effect, so INIT either
makes all four of them or polls for ever before one of them. -/

namespace Sys2Proof.Machine

/-! ### Commands out of their state (R251, R252, R254) -/

/-- An error answer is one edge, the response, and nothing else (R252). -/
theorem raiseErr_onlyAnswered (code : RspCode) (s : State) : OnlyAnswered s (s.raiseErr code) code :=
  { answered := ⟨rfl, rfl, rfl, rfl, rfl⟩
    frame := ⟨rfl, rfl, rfl, rfl, rfl, rfl, rfl, rfl, rfl⟩
    pcnt := rfl, dcnt := rfl, dir := rfl, rs := rfl, rw := rfl, e := rfl, dbOut := rfl, dbIn := rfl
    lcd := rfl, trace := rfl, cycle := rfl }

/-- A command that does not find DRV_STATE as it needs it is answered ERR_STATE only (R254). -/
theorem inState_onlyAnswered {s : State} {d : DrvState} (h : s.drvState ≠ d)
    (body : State → Host.Outcome State Fault Refusal) :
    ∃ t, inState d s body = .next t ∧ OnlyAnswered s t .errState :=
  ⟨s.raiseErr .errState, if_neg h, raiseErr_onlyAnswered _ s⟩

/-- Settles O9: each of the commands is its program behind the check of DRV_STATE. -/
theorem commandOutOfStateIsAnsweredErrState : Obligations.CommandOutOfStateIsAnsweredErrState := by
  refine fun s => ⟨fun h => inState_onlyAnswered h _, fun h => ⟨fun _ => inState_onlyAnswered h _,
    fun _ => inState_onlyAnswered h _, inState_onlyAnswered h _, inState_onlyAnswered h _,
    fun x y => ?_, fun hwait n => ?_⟩⟩
  · rw [exec, execGoto]
    exact inState_onlyAnswered h _
  · rw [exec, execWaitb, if_pos hwait]
    exact inState_onlyAnswered h _

/-! ### The bytes of the synchronized writes (R136) -/

/-- What DISPLAY_OFF and DISPLAY_ON do to a device that takes them (R231). -/
def Device.setDisplay (on : Bool) (d : Device) : Device := { d with d := on, c := false, b := false }

/-- What CLEAR does to a device that takes it (R228). -/
def Device.clear (d : Device) : Device := { d with ddram := Memory.allCleared, ac := 0, id := true }

/-- What ENTRY_INC_NOSHIFT does to a device that takes it (R230). -/
def Device.setEntryInc (d : Device) : Device := { d with id := true, s := false }

/-- The byte's instruction has the effect `g`, which leaves the device modelled and its interface as it was. -/
structure ByteEffect (v : Byte) (g : Device → Device) : Prop where
  exec : ∀ u, exec (decodeLcd v) u = .next (u.deviceInstruction fun d => some (g d))
  if8 : ∀ d, (g d).if8 = d.if8
  unmodelled : ∀ d, (g d).unmodelled = d.unmodelled

theorem byteEffect_displayOff : ByteEffect Config.displayOff (Device.setDisplay false) :=
  ⟨fun u => by rw [show decodeLcd Config.displayOff = .lcdDisplayControl 0 0 0 by decide]; rfl,
    fun _ => rfl, fun _ => rfl⟩

theorem byteEffect_clear : ByteEffect Config.clear Device.clear :=
  ⟨fun u => by rw [show decodeLcd Config.clear = .lcdClear by decide]; rfl, fun _ => rfl, fun _ => rfl⟩

theorem byteEffect_entryIncNoshift : ByteEffect Config.entryIncNoshift Device.setEntryInc :=
  ⟨fun u => by rw [show decodeLcd Config.entryIncNoshift = .lcdEntryMode 1 0 by decide]; rfl,
    fun _ => rfl, fun _ => rfl⟩

theorem byteEffect_displayOn : ByteEffect Config.displayOn (Device.setDisplay true) :=
  ⟨fun u => by rw [show decodeLcd Config.displayOn = .lcdDisplayControl 1 0 0 by decide]; rfl,
    fun _ => rfl, fun _ => rfl⟩

/-- The bytes of INIT's synchronized writes, in order (R136). -/
def synchronizedBytes : List Byte :=
  [Config.displayOff, Config.clear, Config.entryIncNoshift, Config.displayOn]

theorem byteEffect_synchronizedBytes : ∀ v ∈ synchronizedBytes, ∃ g, ByteEffect v g := by
  simp only [synchronizedBytes, List.forall_mem_cons]
  exact ⟨⟨_, byteEffect_displayOff⟩, ⟨_, byteEffect_clear⟩, ⟨_, byteEffect_entryIncNoshift⟩,
    ⟨_, byteEffect_displayOn⟩, nofun⟩

/-- INIT's program from its synchronized write `n` on (R136, R137). -/
def synchronizedFrom (n : Nat) : List Micro :=
  (synchronizedBytes.drop n).flatMap writeInstruction ++ [.initEnd, .setDrv .ready]

/-- INIT's program as its timed part and the synchronized writes. -/
theorem initProgram_eq :
    initProgram = resettingPart ++ (functionSetPart ++ (.setDrv .configured :: synchronizedFrom 0)) := rfl

/-! ### One synchronized write (R136, R160) -/

/-- A driven block on a platform that meets R288, with E low, whose 8-bit device is busy for `k` more reads and has
the draws `qs` of BUSY to come. -/
structure AwaitsIdle (k : Nat) (qs : List Busy) (s : State) : Prop where
  low : s.e = false
  driven : s.ctlOe = true
  timing : s.platform.strobeTimingOK = true
  busyFor : s.lcd.busyFor k
  if8 : s.lcd.device.if8 = true
  draws : s.lcd.busyDraws = qs

/-- The device after a synchronized write with the effect `g`; `q` is its draw of BUSY (R224). -/
def Device.written (g : Device → Device) (q : Busy) (d : Device) : Device :=
  { g { d with busy := .finite 0 } with seqPos := 0, busy := q }

/-- What a synchronized write of `v` leaves: `k` busy polls and an idle one, the write phase, and the device `d`. -/
structure Synchronized (k : Nat) (v : Byte) (d : Device) (s t : State) : Prop where
  device : t.lcd.device = d
  drvState : t.drvState = s.drvState
  rcnt : t.rcnt = s.rcnt
  block : SameBlock s t
  bus : BusAfterWrite t .instruction v
  dbIn : t.dbIn = statusByte false s.lcd.device.ac
  events : t.events = s.events ++ ((s.lcd.answers k).flatMap pollEvents ++
    (pollEvents (statusByte false s.lcd.device.ac) ++ writeEvents .instruction v))

section
variable {k : Nat} {q : Busy} {qs : List Busy} {s t : State} {v : Byte} {g : Device → Device}

/-- A synchronized write (R162): `k` busy polls, an idle one, and a write phase whose draw of BUSY is `q`. -/
theorem AwaitsIdle.write_runs (h : AwaitsIdle k (q :: qs) s) (hv : ByteEffect v g) (todo : List Micro)
    (fin : Finish) :
    ∃ t : State, Runs (4 * (k + 1) + 5) (s.goOn (writeInstruction v ++ todo) fin) (t.goOn todo fin) ∧
      Synchronized k v (s.lcd.device.written g q) s t ∧ t.lcd.busyDraws = qs := by
  obtain ⟨m, hm, t, hruns, hlcd, hdrv, hrcnt, hblock, hbus, hdbIn, htrace⟩ :=
    writeInstruction_runs v h.low h.driven h.timing h.busyFor todo fin
  have hmeaning : (s.lcd.afterPolls (k + 1)).instruction (fun d => some (g d)) s.platform = m :=
    (lcd_of_next ((hv.exec _).symm.trans hm)).symm
  obtain ⟨hdevice, hdraws⟩ := Lcd.afterPolls_device h.busyFor
  obtain ⟨hmodelled, hidle⟩ := Lcd.busyFor_zero_afterPolls h.busyFor
  obtain ⟨hwritten, hleft⟩ := Lcd.instruction_next_draw (f := fun d => some (g d)) h.timing hmodelled hidle
    (by rw [hdevice]; exact h.if8) rfl (hdraws.trans h.draws)
  rw [hmeaning, ← hlcd] at hwritten hleft
  refine ⟨t, hruns, ⟨hwritten.trans (by rw [hdevice]; rfl), hdrv, hrcnt, hblock, hbus, hdbIn, ?_⟩, hleft⟩
  rw [events_of_view_append htrace, Lcd.pollTrace_busyFor h.busyFor, List.append_assoc]

/-- The effect of INIT's bytes leaves the device modelled (R242). -/
theorem AwaitsIdle.written_modelled (h : AwaitsIdle k qs s) (hv : ByteEffect v g) (q : Busy) :
    (s.lcd.device.written g q).unmodelled = false := (hv.unmodelled _).trans h.busyFor.1

/-- After a write whose draw is finite the next synchronized write may follow. -/
theorem AwaitsIdle.next {j : Nat} {rs : List Busy} (h : AwaitsIdle k qs s) (hv : ByteEffect v g)
    (ht : Synchronized k v (s.lcd.device.written g (.finite j)) s t) (hdraws : t.lcd.busyDraws = rs) :
    AwaitsIdle j rs t where
  low := ht.block.low
  driven := ht.block.ctlOe
  timing := by rw [ht.block.platform]; exact h.timing
  busyFor := ⟨by rw [ht.device]; exact h.written_modelled hv _, by rw [ht.device]; rfl⟩
  if8 := by rw [ht.device]; exact (hv.if8 _).trans h.if8
  draws := hdraws

end

/-! ### Up to the first synchronized write (R131 to R136) -/

/-- The block as INIT finds it (R130): untouched, on a platform that meets R288 and R289, its device with the draws
`qs` of BUSY to come after those of the four timed function sets. -/
structure BeforeInit (qs : List Busy) (s : State) : Prop where
  drvState : s.drvState = .uninitialized
  released : s.ctlOe = false
  timing : s.platform.strobeTimingOK = true
  delay : s.platform.delaySufficient = true
  draws : s.lcd.busyDraws.tail.tail.tail.tail = qs

/-- The events of INIT's timed part (R138). -/
def timedEvents : List Event :=
  [.enCtl, .dir .output, .wait .powerup] ++
    (List.replicate 3 (writeEvents .instruction 0x30 ++ [.wait .settle])).flatten ++
    writeEvents .instruction 0x38 ++ [.wait .settle]

/-- The block and the device once the timed part is over, the device with the draws `qs` of BUSY to come. -/
structure TimedPartDone (qs : List Busy) (s t : State) : Prop where
  awaits : AwaitsIdle 0 qs t
  device : ∃ n, t.lcd.device = Device.resetByInstruction n
  drvState : t.drvState = .configured
  rcnt : t.rcnt = 3
  block : SameBlock s t
  events : t.events = s.events ++ timedEvents

section
variable {qs : List Busy} {s : State}

/-- INIT runs its program from Uninitialized (R130). -/
theorem BeforeInit.exec_init (h : BeforeInit qs s) :
    exec .init s = runProgram initProgram (.done .ok 0x00) s := inState_of_eq h.drvState _

/-- INIT's timed part leads to the first synchronized write, in Configured. -/
theorem BeforeInit.timedPart_runs (h : BeforeInit qs s) (fin : Finish) :
    ∃ t : State, Runs 27 (s.goOn initProgram fin) (t.goOn (synchronizedFrom 0) fin) ∧
      TimedPartDone qs s t := by
  obtain ⟨n, t, hruns, hdevice, hdraws, hrcnt, -, hblock, htrace⟩ :=
    Machine.timedPart_runs (.setDrv .configured :: synchronizedFrom 0) fin h.released h.timing h.delay
  have hconfigured : Runs 0 (t.goOn (.setDrv .configured :: synchronizedFrom 0) fin)
      (({ t with drvState := .configured } : State).goOn (synchronizedFrom 0) fin) := Runs.fold rfl
  refine ⟨{ t with drvState := .configured }, initProgram_eq ▸ hruns.trans hconfigured,
    { awaits :=
        { low := hblock.low
          driven := hblock.ctlOe
          timing := by rw [← h.timing, ← hblock.platform]
          busyFor := ⟨?_, ?_⟩
          if8 := ?_
          draws := hdraws.trans h.draws }
      device := ⟨n, hdevice⟩
      drvState := rfl
      rcnt := hrcnt
      block := { hblock with }
      events := events_of_view_append htrace }⟩
  all_goals
    dsimp only
    rw [hdevice]
    rfl

end

/-! ### INIT completes (R137, R138, R140) -/

/-- After the last synchronized write INIT is Ready; under DelaySufficient its end leaves the device as it is
(R137, R289). -/
theorem initEnd_runs {t : State} (hd : t.platform.delaySufficient = true) (fin : Finish) :
    Runs 0 (t.goOn (synchronizedFrom 4) fin) (({ t with drvState := .ready } : State).goOn [] fin) := by
  refine Runs.fold ?_
  simp [synchronizedFrom, synchronizedBytes, microStep, Lcd.afterInit_sufficient hd]

/-- The response of a program that has answered nothing yet and ends in a fixed answer. -/
theorem finish_done_answered {s t : State} {c : RspCode} {d : Byte} (h : t.responses = s.responses) :
    Answered s (t.finish (.done c d)) c d := ⟨rfl, rfl, rfl, rfl, congrArg _ h⟩

/-- R140's device: what the four synchronized writes make of a reset by instruction, with their draws of BUSY. -/
def Device.initialized (n : Nat) (q2 q3 q4 q8 : Busy) : Device :=
  ((((Device.resetByInstruction n).written (setDisplay false) q2).written clear q3).written setEntryInc
    q4).written (setDisplay true) q8

/-- The idle status byte of a device whose address counter is 0 (R79). -/
theorem statusByte_idle_zero {a : Addr7} (h : a = 0) : statusByte false a = 0x00 := by
  rw [h]
  decide

/-- What the four synchronized writes leave, with `k2`, `k3` and `k4` busy polls before the last three (R138). -/
structure AllSynchronized (k2 k3 k4 : Nat) (d : Device) (s t : State) : Prop where
  device : t.lcd.device = d
  rcnt : t.rcnt = s.rcnt
  block : SameBlock s t
  bus : BusAfterWrite t .instruction Config.displayOn
  dbIn : t.dbIn = 0x00
  events : ∃ (b1 i2 : Byte) (p2 p3 p4 : List Byte),
    busyFlag b1 = false ∧ busyFlag i2 = false ∧ p2.length = k2 ∧ p3.length = k3 ∧ p4.length = k4 ∧
      (∀ b ∈ p2 ++ p3 ++ p4, busyFlag b = true) ∧
      t.events = s.events ++
        (pollEvents b1 ++ writeEvents .instruction Config.displayOff ++
          p2.flatMap pollEvents ++ pollEvents i2 ++ writeEvents .instruction Config.clear ++
          p3.flatMap pollEvents ++ pollEvents 0x00 ++ writeEvents .instruction Config.entryIncNoshift ++
          p4.flatMap pollEvents ++ pollEvents 0x00 ++ writeEvents .instruction Config.displayOn)

/-- The four synchronized writes, each of which waits for the draw of the one before it (R136). -/
theorem AwaitsIdle.allSynchronized_runs {k2 k3 k4 n : Nat} {q8 : Busy} {qs : List Busy} {s : State}
    (h : AwaitsIdle 0 (.finite k2 :: .finite k3 :: .finite k4 :: q8 :: qs) s)
    (hreset : s.lcd.device = Device.resetByInstruction n) (fin : Finish) :
    ∃ t : State, Runs (36 + 4 * (k2 + k3 + k4)) (s.goOn (synchronizedFrom 0) fin)
        (t.goOn (synchronizedFrom 4) fin) ∧
      AllSynchronized k2 k3 k4 (Device.initialized n (.finite k2) (.finite k3) (.finite k4) q8) s t ∧
      t.lcd.busyDraws = qs := by
  obtain ⟨t1, r1, h1, l1⟩ := h.write_runs byteEffect_displayOff (synchronizedFrom 1) fin
  have w1 := h.next byteEffect_displayOff h1 l1
  obtain ⟨t2, r2, h2, l2⟩ := w1.write_runs byteEffect_clear (synchronizedFrom 2) fin
  have w2 := w1.next byteEffect_clear h2 l2
  obtain ⟨t3, r3, h3, l3⟩ := w2.write_runs byteEffect_entryIncNoshift (synchronizedFrom 3) fin
  have w3 := w2.next byteEffect_entryIncNoshift h3 l3
  obtain ⟨t4, r4, h4, l4⟩ := w3.write_runs byteEffect_displayOn (synchronizedFrom 4) fin
  have hidle2 : statusByte false t2.lcd.device.ac = 0x00 :=
    statusByte_idle_zero (congrArg Device.ac h2.device)
  have hac3 : t3.lcd.device.ac = t2.lcd.device.ac := by rw [h3.device]; rfl
  have hruns := ((r1.trans r2).trans r3).trans r4
  have hlength : 4 * (0 + 1) + 5 + (4 * (k2 + 1) + 5) + (4 * (k3 + 1) + 5) + (4 * (k4 + 1) + 5) =
      36 + 4 * (k2 + k3 + k4) := by omega
  rw [hlength] at hruns
  refine ⟨t4, hruns,
    { device := by rw [h4.device, h3.device, h2.device, h1.device, hreset]; rfl
      rcnt := by rw [h4.rcnt, h3.rcnt, h2.rcnt, h1.rcnt]
      block := h1.block.trans (h2.block.trans (h3.block.trans h4.block))
      bus := h4.bus
      dbIn := by rw [h4.dbIn, hac3, hidle2]
      events := ⟨statusByte false s.lcd.device.ac, statusByte false t1.lcd.device.ac, t1.lcd.answers k2,
        t2.lcd.answers k3, t3.lcd.answers k4, busyFlag_statusByte _ _, busyFlag_statusByte _ _,
        Lcd.answers_length _ _, Lcd.answers_length _ _, Lcd.answers_length _ _, ?_, ?_⟩ }, l4⟩
  · simp only [List.forall_mem_append]
    exact ⟨⟨Lcd.busy_answers k2 w1.busyFor, Lcd.busy_answers k3 w2.busyFor⟩,
      Lcd.busy_answers k4 w3.busyFor⟩
  · rw [h4.events, h3.events, h2.events, h1.events, hac3, hidle2]
    simp only [Lcd.answers, List.flatMap_nil, List.nil_append, List.append_assoc]

/-- Settles O14: the timed part leaves R239's device, the four synchronized writes R140's, and INIT's end makes the
block Ready. -/
theorem initCompletes : Obligations.InitCompletes := by
  intro s q1 q2 q3 q4 q8 k2 k3 k4 qs hdrv hreleased _ _ htiming hdelay hdraws hpace
  have hs : BeforeInit (.finite k2 :: .finite k3 :: .finite k4 :: q8 :: qs) s :=
    ⟨hdrv, hreleased, htiming, hdelay, by rw [hdraws]; rfl⟩
  obtain ⟨t0, r0, h0⟩ := hs.timedPart_runs (.done .ok 0x00)
  obtain ⟨n, hreset⟩ := h0.device
  obtain ⟨t, r1, h1, hleft⟩ := h0.awaits.allSynchronized_runs hreset (.done .ok 0x00)
  have hblock := h0.block.trans h1.block
  have r2 := initEnd_runs (t := t) (by rw [hblock.platform]; exact hdelay) (.done .ok 0x00)
  have hrun := runProgram_of_runs ((r0.trans r1).trans r2) (by omega)
  have hdevice := h1.device
  obtain ⟨b1, i2, p2, p3, p4, hb1, hi2, hp2, hp3, hp4, hbusy, hevents⟩ := h1.events
  refine ⟨_, hs.exec_init.trans hrun,
    finish_done_answered (t := { t with drvState := .ready }) hblock.responses, rfl, hblock.ctlOe,
    ⟨h1.bus.dir, h1.bus.rs, h1.bus.rw, h1.bus.low, h1.bus.dbOut⟩, h1.dbIn, h1.rcnt.trans h0.rcnt,
    hblock.pcnt, hblock.cmdOp, hblock.cmdA, hblock.cmdB, hblock.platform, hblock.host, hblock.pace,
    congrArg Device.if8 hdevice, congrArg Device.n2 hdevice, congrArg Device.f10 hdevice,
    congrArg Device.d hdevice, congrArg Device.c hdevice, congrArg Device.b hdevice,
    congrArg Device.id hdevice, congrArg Device.s hdevice, congrArg Device.ac hdevice,
    fun a => congrArg (fun d => d.ddram.read a) hdevice, congrArg Device.unmodelled hdevice,
    congrArg Device.busy hdevice, hleft, b1, i2, p2, p3, p4, hb1, hi2, hp2, hp3, hp4, hbusy, ?_⟩
  -- INIT's end and the response append no event; the rest is R138's bytes written out.
  refine hevents.trans ?_
  rw [h0.events]
  simp only [timedEvents, List.append_assoc]
  rfl

/-! ### INIT on a device that is busy for ever (R139, R169) -/

/-- A program that comes to a wait for a device that is busy for ever polls it from there on. -/
theorem runProgram_polls_forever {n : Nat} {todo r : List Micro} {fin fin' : Finish} {s t : State}
    (h : Runs n (s.goOn todo fin) (t.goOn (waitIdle ++ r) fin'))
    (ht : PollingAt 0 r fin' (t.goOn (waitIdle ++ r) fin')) (hp : n ≤ s.pace) :
    ∃ u, runProgram todo fin s = .next u ∧ PollsForever u ∧ u.rspValid = false ∧
      u.drvState = t.drvState ∧ u.responses = t.responses := by
  obtain ⟨m, hm⟩ : ∃ m, s.pace + 1 = n + (m + 1) := ⟨s.pace - n, by omega⟩
  obtain ⟨u, hu, hforever, hpolled, hvalid⟩ := ht.events m
  refine ⟨u, ?_, hforever, hvalid, hpolled.drvState, hpolled.responses⟩
  rw [runProgram, resume, State.goOn_pace, hm, h _ (by omega), hu]

/-- How many events a `WriteInstruction` takes on a device busy for `k` more reads. -/
def writeLength (k : Nat) : Nat := 4 * (k + 1) + 5

/-- Synchronized writes whose draws of BUSY are finite but for the last, and at least one more write to come: they
lead to a wait for a device that is busy for ever. -/
theorem AwaitsIdle.writes_run {rs : List Busy} (todo : List Micro) (fin : Finish) (ks : List Nat) :
    ∀ {k : Nat} {vs : List Byte} {s : State}, AwaitsIdle k (ks.map .finite ++ .forever :: rs) s →
      (∀ v ∈ vs, ∃ g, ByteEffect v g) → ks.length + 1 < vs.length →
      ∃ (r : List Micro) (t : State),
        Runs ((k :: ks).map writeLength).sum (s.goOn (vs.flatMap writeInstruction ++ todo) fin)
          (t.goOn (waitIdle ++ r) fin) ∧
        PollingAt 0 r fin (t.goOn (waitIdle ++ r) fin) ∧ t.drvState = s.drvState ∧
        t.responses = s.responses := by
  induction ks with
  | nil =>
    intro k vs s h hvs hlength
    obtain ⟨v, vs, rfl⟩ := List.exists_cons_of_length_pos (Nat.zero_lt_of_lt hlength)
    obtain ⟨w, vs, rfl⟩ := List.exists_cons_of_length_pos (Nat.lt_of_succ_lt_succ hlength)
    obtain ⟨g, hv⟩ := hvs v (by simp)
    obtain ⟨t, hruns, ht, -⟩ := h.write_runs hv ((w :: vs).flatMap writeInstruction ++ todo) fin
    refine ⟨busWrite .instruction w ++ (vs.flatMap writeInstruction ++ todo), t, ?_,
      .start (by rw [ht.block.platform]; exact h.timing) ht.block.ctlOe ht.block.low
        (by rw [ht.device]; exact h.written_modelled hv _) (by rw [ht.device]; rfl) _ fin,
      ht.drvState, ht.block.responses⟩
    simpa [writeInstruction, writeLength] using hruns
  | cons j ks ih =>
    intro k vs s h hvs hlength
    obtain ⟨v, vs, rfl⟩ := List.exists_cons_of_length_pos (Nat.zero_lt_of_lt hlength)
    obtain ⟨g, hv⟩ := hvs v (by simp)
    obtain ⟨t, hruns, ht, hdraws⟩ := h.write_runs hv (vs.flatMap writeInstruction ++ todo) fin
    obtain ⟨r, u, hruns', hpolls, hdrv, hresponses⟩ := ih (h.next hv ht hdraws)
      (fun w hw => hvs w (List.mem_cons_of_mem _ hw)) (Nat.lt_of_succ_lt_succ hlength)
    refine ⟨r, u, ?_, hpolls, hdrv.trans ht.drvState, hresponses.trans ht.block.responses⟩
    simpa [writeLength] using hruns.trans hruns'

/-- Settles O54: the draws say before which synchronized write INIT begins to poll for ever. -/
theorem initOnBusyForeverDeviceKeepsPolling : Obligations.InitOnBusyForeverDeviceKeepsPolling := by
  intro s q1 q2 q3 q4 ks rs hdrv hreleased _ htiming hdelay hks hdraws hpace
  have hs : BeforeInit (ks.map .finite ++ .forever :: rs) s :=
    ⟨hdrv, hreleased, htiming, hdelay, by rw [hdraws]; rfl⟩
  obtain ⟨t, hruns, ht⟩ := hs.timedPart_runs (.done .ok 0x00)
  obtain ⟨r, u, hruns', hpolls, hdrv', hresponses⟩ :=
    ht.awaits.writes_run [.initEnd, .setDrv .ready] (.done .ok 0x00) ks byteEffect_synchronizedBytes
      (Nat.lt_of_le_of_lt (Nat.succ_le_succ hks) (by decide))
  have hlength : 27 + ((0 :: ks).map writeLength).sum ≤ s.pace := by
    rw [List.map_cons, List.sum_cons, ← Nat.add_assoc]
    exact hpace
  obtain ⟨w, hw, hforever, hvalid, hdrvw, hresponsesw⟩ :=
    runProgram_polls_forever (hruns.trans hruns') hpolls hlength
  exact ⟨w, hs.exec_init.trans hw, hforever, hdrvw.trans (hdrv'.trans ht.drvState), hvalid,
    hresponsesw.trans (hresponses.trans ht.block.responses)⟩

end Sys2Proof.Machine
end

section
/-! SUPPORT. The statements about a device that is busy for ever (R160, R169, R257): a block that polls it is at a
place of a poll again after any number of events, so no command that waits for the busy flag answers. -/

namespace Sys2Proof.Machine

/-! ### Polling a device that is busy for ever (R160, R169, R257) -/

/-- The state of a poll does not speak of the host's acts. -/
theorem PollsForever.withHost {s : State} (h : PollsForever s) (acts : List HostAct) :
    PollsForever { s with host := acts } := ⟨h.timing, h.modelled, h.busy, h.polling⟩

/-- A block that polls is in the middle of a program. -/
theorem PollsForever.running {s : State} (h : PollsForever s) :
    ∃ todo fin, s.seq = .running todo fin := by
  obtain ⟨k, r, fin, hs, -⟩ := h.polling
  exact ⟨_, fin, hs⟩

/-- In the middle of a program the block takes no command (R26). -/
theorem cmdReady_of_running {s : State} {todo : List Micro} {fin : Finish}
    (hs : s.seq = .running todo fin) : s.cmdReady = false := by
  simp [State.cmdReady, hs]

/-- The trace grows by the events polled, and by no other. -/
theorem PolledOn.events_append {n : Nat} {s t : State} (h : PolledOn n s t) :
    ∃ es, t.events = s.events ++ es ∧ es.length = n ∧ ∀ ev ∈ es, ev ≠ .eDown := by
  obtain ⟨es, htrace, hes⟩ := h.events
  exact ⟨es, events_of_view_append htrace, hes⟩

theorem PolledOn.trace_length {n : Nat} {s t : State} (h : PolledOn n s t) :
    t.trace.length = s.trace.length + n := by
  obtain ⟨es, htrace, hlength, -⟩ := h.events
  have hview := congrArg List.length htrace
  simp only [State.view, stamped, List.length_map, List.length_append, List.length_reverse,
    hlength] at hview
  rw [hview, Nat.add_comm]

/-- Settles O53: the step is `pace + 1` events of the loop, from the place of the poll that the state is at. -/
theorem pollingForeverStaysPolling : Obligations.PollingForeverStaysPolling := by
  intro s t hi hp hr h
  obtain ⟨todo, fin, hs⟩ := hp.running
  have hhost := s.hostPasses_eq_withHost
  obtain ⟨k, r, fin', hat⟩ :=
    PollsForever.at (hostPasses_inv hi) (hhost ▸ hp.withHost s.hostPasses.host)
  obtain ⟨u, hu, hforever, hpolled, hvalid⟩ := hat.events s.hostPasses.pace
  obtain rfl : u = t := Host.Outcome.next.inj (hu.symm.trans ((step_of_running hr hs).symm.trans h))
  obtain ⟨todo', fin'', hs'⟩ := hforever.running
  rw [hhost] at hpolled
  exact ⟨hforever, hvalid, hpolled.responses, cmdReady_of_running hs', hpolled.drvState,
    hpolled.dbOut, hpolled.device, hpolled.events_append⟩

/-! ### Commands that never answer (R169, R257) -/

/-- Any number of events of the loop end at a place of a poll again. -/
theorem PollingAt.runEvents_at (n : Nat) : ∀ {k : Nat} {r : List Micro} {fin : Finish} {s : State},
    PollingAt k r fin s → ∃ j t, runEvents n s = .next t ∧ PollingAt j r fin t ∧ PolledOn n s t := by
  induction n with
  | zero => exact fun h => ⟨_, _, rfl, h, .nothing _⟩
  | succ n ih =>
    intro k r fin s h
    obtain ⟨j, t, ht, hat, hpolled, -⟩ := h.event
    obtain ⟨i, u, hu, hat', hpolled'⟩ := ih hat
    refine ⟨i, u, ?_, hat', Nat.add_comm 1 n ▸ hpolled.trans hpolled'⟩
    simp only [runEvents, h.seq, ht, hu]

/-- A block that polls, has answered nothing, and has nothing to do but to poll on. -/
structure PollsOn (r : List Micro) (fin : Finish) (s : State) : Prop where
  polling : ∃ k, PollingAt k r fin s
  host : s.host = []
  silent : s.rspValid = false

/-- The events of one step. -/
theorem PollingAt.resumes {k : Nat} {r : List Micro} {fin : Finish} {s : State}
    (h : PollingAt k r fin s) (hh : s.host = []) :
    ∃ t, resume s = .next t ∧ PollsOn r fin t ∧ PolledOn (s.pace + 1) s t := by
  obtain ⟨j, t, ht, hat, hpolled⟩ := h.runEvents_at (s.pace + 1)
  have f := runEvents_frame s.pace h.seq ht
  have hsilent : t.rspValid = false := by
    rcases f.answer with ⟨hidle, -⟩ | ⟨-, hsilent, -⟩
    · exact nomatch hat.seq.symm.trans hidle
    · exact hsilent
  exact ⟨t, ht, ⟨⟨j, hat⟩, f.host.trans hh, hsilent⟩, hpolled⟩

/-- One more step of it. -/
theorem PollsOn.step_next {r : List Micro} {fin : Finish} {s : State} (h : PollsOn r fin s) :
    ∃ t, step s = .next t ∧ PollsOn r fin t ∧ PolledOn (s.pace + 1) s t := by
  obtain ⟨k, hat⟩ := h.polling
  have hr : s.rstNow = false := by simp [State.rstNow, h.host]
  have hpass : s.hostPasses = s := by simp [State.hostPasses, h.host]
  rw [step_of_running hr hat.seq, hpass]
  exact hat.resumes h.host

/-- Any number of steps of it. -/
theorem PollsOn.run (n : Nat) : ∀ {r : List Micro} {fin : Finish} {s : State}, PollsOn r fin s →
    ∃ t, Sys2Proof.core.run n s = .next t ∧ PollsOn r fin t ∧ PolledOn (n * (s.pace + 1)) s t := by
  induction n with
  | zero => exact fun {_ _ s} h => ⟨s, rfl, h, by simpa using PolledOn.nothing s⟩
  | succ n ih =>
    intro r fin s h
    obtain ⟨t, ht, hon, hpolled⟩ := h.step_next
    obtain ⟨u, hu, hon', hpolled'⟩ := ih hon
    refine ⟨u, (run_succ n ht).trans hu, hon', ?_⟩
    have hall := hpolled.trans hpolled'
    rwa [hpolled.pace, Nat.add_comm, ← Nat.succ_mul] at hall

/-- The commands that wait for the busy flag run a program that begins with `WaitIdle` (R164, R165, R167,
R192). -/
theorem exec_waitsForIdle {s : State} {i : Instr} (hd : s.drvState = .ready)
    (hi : waitsForIdle i = true) :
    ∃ r fin, exec i s = runProgram (waitIdle ++ r) fin s := by
  cases i with
  | cmd b8 => exact ⟨_, _, inState_of_eq hd _⟩
  | putc b8 => exact ⟨_, _, inState_of_eq hd _⟩
  | waitidle => exact ⟨[], _, inState_of_eq hd _⟩
  | goto x y => exact ⟨_, _, exec_goto_inRange hd hi⟩
  | _ => exact nomatch hi

/-- Settles O48: the command comes to a wait for the busy flag, and every step after it polls on. -/
theorem busyForeverNeverAnswers : Obligations.BusyForeverNeverAnswers := by
  intro s i n hs hhost hm hb hi
  obtain ⟨r, fin, hexec⟩ := exec_waitsForIdle hs.ready hi
  obtain ⟨u, hu, hon, hpolled⟩ :=
    (PollingAt.start hs.timing hs.driven hs.low hm hb r fin).resumes hhost
  obtain ⟨t, ht, hon', hpolled'⟩ := hon.run n
  obtain ⟨k, hat⟩ := hon'.polling
  have hall := hpolled.trans hpolled'
  rw [hpolled.pace, Nat.add_comm, ← Nat.succ_mul] at hall
  obtain ⟨es, hevents, -, hnone⟩ := hall.events_append
  have hlength : t.trace.length = s.trace.length + (n + 1) * (s.pace + 1) := hall.trace_length
  have hdrop : t.events.drop s.events.length = es := by
    rw [hevents]
    exact List.drop_left
  refine ⟨u, t, hexec.trans hu, ht, cmdReady_of_running hat.seq, hall.responses, hon'.silent, hat.busy,
    hlength, ?_⟩
  rw [hdrop, List.all_eq_true]
  exact fun ev hev => bne_iff_ne.mpr (hnone ev hev)

end Sys2Proof.Machine
end

section
/-! SUPPORT. The statements about WAITIDLE and WAITB (R167, R168, R256), which end in a poll: how such a command
ends, read off one view of the state. -/

namespace Sys2Proof.Machine

/-! ### Commands that end in a poll (R167, R168) -/

/-- How WAITIDLE and WAITB end after `n` polls: the answer is the byte sampled last, and nothing else of the block
has changed but PCNT, which is `p`. -/
structure PollsComplete (s t : State) (n : Nat) (p : Byte) (code : RspCode) (v : Byte) : Prop where
  answered : Answered s t code v
  frame : TransferFrame s t
  pcnt : t.pcnt = p
  bus : BusAfterRead s t v
  events : t.events = s.events ++ s.lcd.pollTrace n
  lcd : t.lcd = s.lcd.afterPolls n

/-- The response after the last poll, with the byte it sampled. -/
theorem finish_pollsComplete {s u : State} {n : Nat} {p v : Byte} {fin : Finish} {code : RspCode}
    (hu : u.view =
      { s.view with
        dir := .input, rs := .instruction, rw := .read, e := false, dbIn := v,
        lcd := s.lcd.afterPolls n, rspValid := false, pcnt := p,
        trace := stamped (s.lcd.pollTrace n) ++ s.view.trace })
    (hfin : (u.finish fin).view =
      { u.view with
        rspCode := code, rspData := u.dbIn, rspValid := true,
        responses := ⟨code, u.dbIn⟩ :: u.responses }) :
    PollsComplete s (u.finish fin) n p code v := by
  have hdbIn : u.dbIn = v := view_field hu State.dbIn
  have hresponses : u.responses = s.responses := view_field hu State.responses
  rw [hdbIn, hresponses, hu] at hfin
  exact ⟨⟨finish_seq _, view_field hfin State.rspValid, view_field hfin State.rspCode,
      view_field hfin State.rspData, view_field hfin State.responses⟩,
    .of_view (hfin ▸ by constructor <;> rfl), view_field hfin State.pcnt,
    ⟨view_field hfin State.dir, view_field hfin State.rs, view_field hfin State.rw,
      view_field hfin State.e, view_field hfin State.dbIn, view_field hfin State.dbOut⟩,
    events_of_view_append (view_field hfin State.trace), view_field hfin State.lcd⟩

/-- Settles O18: `WaitIdle` ends with the idle byte, which is the answer. -/
theorem waitidleCompletes : Obligations.WaitidleCompletes := by
  intro s k hs hb hp
  obtain ⟨u, hruns, hu⟩ := waitIdle_runs hs.low hs.driven hs.timing hb [] .sampled
  obtain ⟨c, d, hfin, -, hsampled, -⟩ := finish_view (s := u) .sampled
  obtain ⟨rfl, rfl⟩ := hsampled rfl
  have h := finish_pollsComplete (p := s.pcnt) hu hfin
  exact ⟨_, (inState_of_eq hs.ready _).trans (runProgram_of_runs (by simpa using hruns) hp), h.answered,
    h.frame, h.pcnt, h.bus, h.events, h.lcd⟩

/-! ### WAITB (R168) -/

/-- WAITB with a bound other than 0 polls until the byte is idle or the bound is reached. -/
theorem exec_waitb_polls {s : State} {n : Byte} (hd : s.drvState = .ready)
    (hw : s.platform.hasBoundedWait = true) (hn : n ≠ 0) :
    exec (.waitb n) s = runProgram (.setPcnt n :: (busRead ++ [.boundedTest])) .bounded s := by
  rw [exec, execWaitb, if_pos hw, inState_of_eq hd, if_neg hn]
  rfl

/-- WAITB with the bound 0 sets PCNT and answers; no event is appended. -/
theorem waitb_zero_view {s : State} (hd : s.drvState = .ready)
    (hw : s.platform.hasBoundedWait = true) :
    ∃ t, exec (.waitb 0) s = .next t ∧ t.seq = .idle ∧
      t.view =
        { s.view with
          pcnt := 0, rspCode := .errTimeout, rspData := 0x00, rspValid := true,
          responses := ⟨.errTimeout, 0x00⟩ :: s.responses } := by
  have hexec : exec (.waitb 0) s = runProgram [.setPcnt 0] (.done .errTimeout 0x00) s := by
    rw [exec, execWaitb, if_pos hw, inState_of_eq hd, if_pos rfl]
  have hruns : Runs 0 (s.goOn [.setPcnt 0] (.done .errTimeout 0x00))
      (({ s with pcnt := 0 } : State).goOn [] (.done .errTimeout 0x00)) := Runs.fold rfl
  obtain ⟨c, d, hfin, hdone, -⟩ :=
    finish_view (s := { s with pcnt := 0 }) (.done .errTimeout 0x00)
  obtain ⟨rfl, rfl⟩ := hdone _ _ rfl
  exact ⟨_, hexec.trans (runProgram_of_runs hruns (Nat.zero_le _)), finish_seq _, hfin⟩

/-- The test after the last poll only counts it. -/
theorem boundedTest_stops {u : State} (fin : Finish)
    (h : (busyFlag u.dbIn && u.pcnt - 1 != 0) = false) :
    ∃ w : State, Runs 0 (u.goOn [.boundedTest] fin) (w.goOn [] fin) ∧
      w.view = { u.view with pcnt := u.pcnt - 1 } :=
  ⟨{ u with pcnt := u.pcnt - 1 }, Runs.fold (by simp only [microStep, h, Bool.false_eq_true, if_false]), rfl⟩

/-- The code of WAITB's answer, by the byte sampled last. -/
def boundedCode (v : Byte) : RspCode := if busyFlag v then .errTimeout else .ok

theorem sub_ofNat_succ (n : Byte) (k : Nat) :
    n - BitVec.ofNat 8 k - 1 = n - BitVec.ofNat 8 (k + 1) := by
  rw [BitVec.ofNat_add]
  exact sub_sub _ _ _

/-- WAITB on a device that is busy for the first `k` polls, where the bound is not reached before poll `k + 1` and
that poll is the last. -/
theorem waitb_completes {s : State} {n : Byte} {k : Nat} (hs : Operable s)
    (hw : s.platform.hasBoundedWait = true)
    (hb : (∃ b, s.lcd.busyFor b ∧ k ≤ b) ∨
      (s.lcd.device.unmodelled = false ∧ s.lcd.device.busy = .forever))
    (hk : k < n.toNat)
    (hlast : busyFlag (s.lcd.afterPolls k).statusAnswer = true → n = BitVec.ofNat 8 (k + 1))
    (hp : 4 * (k + 1) ≤ s.pace) :
    ∃ t, exec (.waitb n) s = .next t ∧
      PollsComplete s t (k + 1) (n - BitVec.ofNat 8 (k + 1))
        (boundedCode (s.lcd.afterPolls k).statusAnswer) (s.lcd.afterPolls k).statusAnswer := by
  have hn : n ≠ 0 := by rintro rfl; exact absurd hk (Nat.not_lt_zero k)
  have hstart : Runs 0 (s.goOn (.setPcnt n :: (busRead ++ [.boundedTest])) .bounded)
      (({ s with pcnt := n } : State).goOn (busRead ++ [.boundedTest]) .bounded) := Runs.fold rfl
  obtain ⟨u, hruns, hu⟩ := boundedPolls_runs (s := { s with pcnt := n }) .bounded hs.low hs.driven
    hs.timing hb hk
  have hdbIn : u.dbIn = (s.lcd.afterPolls k).statusAnswer := view_field hu State.dbIn
  have hpcnt : u.pcnt - 1 = n - BitVec.ofNat 8 (k + 1) := by
    rw [show u.pcnt = n - BitVec.ofNat 8 k from view_field hu State.pcnt, sub_ofNat_succ]
  have hdone : (busyFlag u.dbIn && u.pcnt - 1 != 0) = false := by
    rw [hdbIn, hpcnt]
    cases hbusy : busyFlag (s.lcd.afterPolls k).statusAnswer with
    | false => rfl
    | true => rw [hlast hbusy, BitVec.sub_self]; rfl
  obtain ⟨w, hstop, hv⟩ := boundedTest_stops .bounded hdone
  rw [hu, hpcnt] at hv
  obtain ⟨c, d, hfin, -, -, hbounded⟩ := finish_view (s := w) .bounded
  obtain ⟨rfl, rfl⟩ := hbounded rfl
  have h := finish_pollsComplete (s := s) hv hfin
  rw [show w.dbIn = _ from view_field hv State.dbIn] at h
  exact ⟨_, (exec_waitb_polls hs.ready hw hn).trans
    (runProgram_of_runs ((hstart.trans hruns).trans hstop) (by omega)), h⟩

/-- Settles O20: poll `k + 1` finds the device idle, below the bound. -/
theorem waitbCompletesWithinBound : Obligations.WaitbCompletesWithinBound := by
  intro s n k hs hw hb hk hp
  have hidle := Lcd.answer_after_busy k hb
  obtain ⟨t, hexec, h⟩ := waitb_completes hs hw (.inl ⟨k, hb, le_rfl⟩) hk
    (fun hbusy => by simp [hidle] at hbusy) hp
  have hcode : boundedCode (statusByte false s.lcd.device.ac) = .ok := by simp [boundedCode]
  rw [hidle, hcode] at h
  exact ⟨t, hexec, h.answered, h.frame, h.pcnt, h.bus, h.events, h.lcd⟩

/-- Settles O21: with the bound 0 no poll is made, with the bound `k + 1` poll `k + 1` still finds the device
busy. -/
theorem waitbTimesOut : Obligations.WaitbTimesOut := by
  intro s n hs hw hm hb hp
  by_cases hn : n = 0
  · subst hn
    obtain ⟨t, hexec, hidle, hv⟩ := waitb_zero_view hs.ready hw
    have hevents : t.events = s.events ++ [] := events_of_view_append (view_field hv State.trace)
    exact ⟨t, 0x00, hexec,
      ⟨hidle, view_field hv State.rspValid, view_field hv State.rspCode, view_field hv State.rspData,
        view_field hv State.responses⟩,
      .of_view (hv ▸ by constructor <;> rfl), view_field hv State.pcnt, hevents,
      view_field hv State.lcd, view_field hv State.dbOut, (view_field hv State.e).trans hs.low,
      fun _ => ⟨rfl, view_field hv State.dir, view_field hv State.rs, view_field hv State.rw,
        view_field hv State.dbIn⟩, fun h => absurd rfl h⟩
  · obtain ⟨k, hk⟩ : ∃ k, n.toNat = k + 1 := Nat.exists_eq_succ_of_ne_zero fun h0 =>
      hn (BitVec.eq_of_toNat_eq h0)
    have hbound : n = BitVec.ofNat 8 (k + 1) := by rw [← hk, BitVec.ofNat_toNat, BitVec.setWidth_eq]
    have hbusy : busyFlag (s.lcd.afterPolls k).statusAnswer = true :=
      Lcd.still_busy k hm (hb.imp_right fun ⟨b, hb, hle⟩ => ⟨b, hb, by omega⟩)
    obtain ⟨t, hexec, h⟩ := waitb_completes (k := k) hs hw
      (hb.symm.imp (fun ⟨b, hb, hle⟩ => ⟨b, ⟨hm, hb⟩, by omega⟩) fun hb => ⟨hm, hb⟩) (by omega)
      (fun _ => hbound) (by omega)
    have hcode : boundedCode (s.lcd.afterPolls k).statusAnswer = .errTimeout := if_pos hbusy
    rw [← hbound, BitVec.sub_self, hcode] at h
    rw [hk]
    refine ⟨t, _, hexec, h.answered, h.frame, h.pcnt, h.events, h.lcd, h.bus.dbOut, h.bus.low,
      fun h0 => absurd h0 hn, fun _ => ⟨hbusy, ?_, h.bus⟩⟩
    rw [Lcd.answers_succ]
    exact List.getLast?_concat

end Sys2Proof.Machine
end

section
/-! SUPPORT. The statement about GOTO followed by PUTC (R165, R190, R192, R236): the address of a screen cell is
its own, and the write of GOTO leaves a block that runs the next command. -/

namespace Sys2Proof.Machine

/-! ### GOTO and then PUTC (R165, R190, R192) -/

theorem bounds_of_inRange {x y : Byte} (h : inRange x y = true) :
    1 ≤ x.toNat ∧ x.toNat ≤ 16 ∧ (y = 1 ∨ y = 2) := by
  simp only [inRange, Bool.and_eq_true, Bool.or_eq_true, decide_eq_true_eq, beq_iff_eq] at h
  obtain ⟨⟨h1, h16⟩, hy⟩ := h
  exact ⟨h1, h16, hy⟩

/-- Two cells of the screen have two addresses (R198). -/
theorem mapXY_inj {x y x' y' : Byte} (h : inRange x y = true) (h' : inRange x' y' = true)
    (heq : mapXY x' y' = mapXY x y) : (x', y') = (x, y) := by
  obtain ⟨h1, h16, hy⟩ := bounds_of_inRange h
  obtain ⟨h1', h16', hy'⟩ := bounds_of_inRange h'
  have hnat := congrArg BitVec.toNat heq
  rw [mapXY_toNat h16 hy, mapXY_toNat h16' hy'] at hnat
  have hx : x'.toNat = x.toNat ∧ y' = y := by
    rcases hy with rfl | rfl <;> rcases hy' with rfl | rfl <;> simp at hnat ⊢ <;> omega
  rw [BitVec.eq_of_toNat_eq hx.1, hx.2]

/-- GOTO to a cell of the screen on an 8-bit two-line device: its address counter is the cell's address, BUSY is the
next listed draw, and the rest of the device is as it was (R192, R235, R224). -/
theorem goto_completes {s : State} {x y : Byte} {k : Nat} {q : Busy} {r : List Busy} (hs : Operable s)
    (hb : s.lcd.busyFor k) (hq : s.lcd.busyDraws = q :: r) (hp : 4 * (k + 1) + 5 ≤ s.pace)
    (h8 : s.lcd.device.if8 = true) (hn : s.lcd.device.n2 = true) (hr : inRange x y = true) :
    ∃ u lcd, exec (.goto x y) s = .next u ∧
      WriteCompletes s u k .instruction (setAddressByte (mapXY x y)) (zext8 (mapXY x y)) lcd ∧
      u.lcd.device = { s.lcd.device with ac := mapXY x y, seqPos := 0, busy := q } := by
  obtain ⟨-, h16, hy⟩ := bounds_of_inRange hr
  obtain ⟨hdevice, hdraws⟩ := Lcd.afterPolls_device hb
  obtain ⟨hm, hidle⟩ := Lcd.busyFor_zero_afterPolls hb
  obtain ⟨u, hrun, hu⟩ := waitThenWrite_completes hs hb
    (fun _ => latchWrite_setAddress (a := mapXY x y)) (zext8 (mapXY x y)) hp
  have heffect : setDdramEffect (mapXY x y) (s.lcd.afterPolls (k + 1)).device = some _ :=
    setDdramEffect_twoLine (by rw [hdevice]; exact hn) (inTwoLineMap_mapXY h16 hy)
  obtain ⟨htaken, -⟩ := Lcd.instruction_next_draw hs.timing hm hidle (by rw [hdevice]; exact h8)
    heffect (hdraws.trans hq)
  exact ⟨u, _, (exec_goto_inRange hs.ready hr).trans hrun, hu, by rw [hu.lcd, htaken, hdevice]⟩

/-- After a write phase the block may run the next command, if the device's memory is still in canonical form. -/
theorem WriteCompletes.operable {s t : State} {k : Nat} {rs : RegSel} {v d : Byte} {lcd : Lcd}
    (h : WriteCompletes s t k rs v d lcd) (hs : Operable s) (hddram : t.lcd.device.ddram.wf = true) :
    Operable t where
  ready := h.frame.drvState.trans hs.ready
  driven := h.frame.ctlOe.trans hs.driven
  low := h.bus.low
  wellFormed := by rw [h.frame.platform]; exact hs.wellFormed
  timing := by rw [h.frame.platform]; exact hs.timing
  ddram := hddram

/-- The screen of a display that is on (R243, log 25). -/
theorem screen_of_on {s : State} {x y : Byte} (hd : s.lcd.device.d = true) (hr : inRange x y = true) :
    s.screen x y = some (s.lcd.device.ddram.read (mapXY x y)) := by
  simp [State.screen, hd, hr]

/-- Settles O49: GOTO leaves the counter at the cell's address, and PUTC writes there and nowhere else. -/
theorem gotoThenPutcShowsCharacter : Obligations.GotoThenPutcShowsCharacter := by
  intro s x y c k k' r hs hb hq hp hp' h8 hn hshift hd hr
  obtain ⟨-, h16, hy⟩ := bounds_of_inRange hr
  obtain ⟨u, lcd, hgoto, hu, hdevice⟩ := goto_completes hs hb hq hp h8 hn hr
  have hbusy : u.lcd.busyFor k' := ⟨by rw [hdevice]; exact hb.1, by rw [hdevice]⟩
  obtain ⟨t, hputc, -, -, -, -, -, -, -, hwritten, -⟩ := putcCompletes u c k'
    (hu.operable hs (by rw [hdevice]; exact hs.ddram)) hbusy (by rw [hu.frame.pace]; exact hp')
  rw [hdevice] at hwritten
  obtain ⟨hsame, hother, -, -, hdisplay, -⟩ := hwritten hshift h8 hn (inTwoLineMap_mapXY h16 hy)
  have hon : t.lcd.device.d = true := hdisplay.d.trans hd
  refine ⟨u, t, hgoto, hputc, ?_, fun x' y' hr' hne => ?_⟩
  · rw [screen_of_on hon hr]
    exact congrArg some hsame
  · rw [screen_of_on hon hr', screen_of_on hd hr']
    exact congrArg some (hother _ fun heq => hne (mapXY_inj hr hr' heq))

end Sys2Proof.Machine
end

section
/-! SUPPORT. The statement about the address mapper (R190, R191, R198). Every law is read off the mapper's value
`(y - 1) * 0x40 + (x - 1)` on the naturals (`mapXY_toNat`), with the row number 1 or 2. -/

namespace Sys2Proof.Machine

/-! ### The address mapper (R190, R191, R198) -/

theorem inRange_iff (x y : Byte) :
    inRange x y = true ↔ 1 ≤ x.toNat ∧ x.toNat ≤ 16 ∧ (y = 1 ∨ y = 2) :=
  ⟨bounds_of_inRange, fun ⟨h1, h16, hy⟩ => inRange_of_bounds h1 h16 hy⟩

/-- A row of the screen as a natural number, the form `omega` takes. -/
theorem row_toNat {y : Byte} (hy : y = 1 ∨ y = 2) : y.toNat = 1 ∨ y.toNat = 2 :=
  hy.imp (congrArg BitVec.toNat) (congrArg BitVec.toNat)

/-- The concatenation weighs its row bit 0x40 and its column nibble 1 (R190). -/
theorem toNat_row_append_column : ∀ (r : BitVec 1) (c : BitVec 4),
    (r ++ 0b00#2 ++ c).toNat = r.toNat * 0x40 + c.toNat := by decide

/-- Concatenation form of the mapper: `{y - 1, 00, x - 1}` (R190). -/
theorem mapXY_eq_append {x y : Byte} (h1 : 1 ≤ x.toNat) (h16 : x.toNat ≤ 16) (hy : y = 1 ∨ y = 2) :
    mapXY x y = (y - 1).extractLsb' 0 1 ++ 0b00#2 ++ (x - 1).extractLsb' 0 4 := by
  have hrow := row_toNat hy
  apply BitVec.eq_of_toNat_eq
  rw [mapXY_toNat h16 hy, toNat_row_append_column]
  simp only [BitVec.extractLsb'_toNat, BitVec.toNat_sub, BitVec.reduceToNat, Nat.shiftRight_zero]
  omega

/-- The column comes back from bits 3..0 (R198, law 3). -/
theorem column_of_mapXY {x y : Byte} (h1 : 1 ≤ x.toNat) (h16 : x.toNat ≤ 16) (hy : y = 1 ∨ y = 2) :
    x.toNat = ((mapXY x y).extractLsb' 0 4).toNat + 1 := by
  rw [BitVec.extractLsb'_toNat, mapXY_toNat h16 hy, Nat.shiftRight_zero]
  omega

/-- The row comes back from bit 6 (R198, law 3). -/
theorem row_of_mapXY {x y : Byte} (h16 : x.toNat ≤ 16) (hy : y = 1 ∨ y = 2) :
    y.toNat = ((mapXY x y).extractLsb' 6 1).toNat + 1 := by
  have hrow := row_toNat hy
  rw [BitVec.extractLsb'_toNat, mapXY_toNat h16 hy, Nat.shiftRight_eq_div_pow]
  omega

/-- The mapper's image has nothing outside the two visible rows (R198, law 2). -/
theorem mapXY_visible {x y : Byte} (h16 : x.toNat ≤ 16) (hy : y = 1 ∨ y = 2) :
    (mapXY x y).toNat ≤ 0x0F ∨ (0x40 ≤ (mapXY x y).toNat ∧ (mapXY x y).toNat ≤ 0x4F) := by
  have hrow := row_toNat hy
  rw [mapXY_toNat h16 hy]
  omega

/-- The next column has the next address (R198, law 5). -/
theorem mapXY_succ {x y : Byte} (h1 : 1 ≤ x.toNat) (h15 : x.toNat ≤ 15) (hy : y = 1 ∨ y = 2) :
    mapXY x y + 1 = mapXY (x + 1) y := by
  have hrow := row_toNat hy
  have hx : (x + 1).toNat = x.toNat + 1 := BitVec.toNat_add_of_lt (by simp; omega)
  apply BitVec.eq_of_toNat_eq
  rw [BitVec.toNat_add, mapXY_toNat (by omega) hy, mapXY_toNat (by omega) hy, hx]
  simp only [BitVec.reduceToNat]
  omega

/-- An address is that of the cell whose row base and column offset add up to it. -/
theorem mapXY_ofNat_column {a : Addr7} {y : Byte} (hy : y = 1 ∨ y = 2) {c : Nat} (hc : c ≤ 15)
    (ha : a.toNat = (y.toNat - 1) * 0x40 + c) :
    inRange (BitVec.ofNat 8 (c + 1)) y = true ∧ mapXY (BitVec.ofNat 8 (c + 1)) y = a := by
  have hx : (BitVec.ofNat 8 (c + 1)).toNat = c + 1 := Nat.mod_eq_of_lt (by omega)
  refine ⟨inRange_of_bounds (by omega) (by omega) hy, BitVec.eq_of_toNat_eq ?_⟩
  rw [mapXY_toNat (by omega) hy, hx, ha, Nat.add_sub_cancel]

/-- Every address of the two visible rows is that of a cell (R198, law 2). -/
theorem exists_cell_of_visible {a : Addr7} (ha : a.toNat ≤ 0x0F ∨ (0x40 ≤ a.toNat ∧ a.toNat ≤ 0x4F)) :
    ∃ x y, inRange x y = true ∧ mapXY x y = a := by
  rcases ha with hfirst | ⟨hlow, hhigh⟩
  · exact ⟨_, _, mapXY_ofNat_column (c := a.toNat) (.inl rfl) hfirst (Nat.zero_add _).symm⟩
  · exact ⟨_, _, mapXY_ofNat_column (c := a.toNat - 0x40) (.inr rfl) (by omega)
      (Nat.add_sub_of_le hlow).symm⟩

/-- Settles O33, one lemma for each law; the byte GOTO sends is the address under bit 7. -/
theorem mapperLaws : Obligations.MapperLaws := by
  refine ⟨inRange_iff, fun x y hr => ?_, fun a => exists_cell_of_visible⟩
  obtain ⟨h1, h16, hy⟩ := bounds_of_inRange hr
  have hvalue := (mapXY_toNat h16 hy).trans (Nat.add_comm _ _)
  have hdecode : decodeLcd (setAddressByte (mapXY x y)) = .lcdSetDdram (mapXY x y) := by
    rw [setAddressByte_eq_append, decodeLcd_lcdSetDdram]
  exact ⟨hvalue, mapXY_eq_append h1 h16 hy, column_of_mapXY h1 h16 hy, row_of_mapXY h16 hy,
    mapXY_visible h16 hy, setAddressByte_toNat _, hdecode, fun h15 => mapXY_succ h1 h15 hy⟩

end Sys2Proof.Machine
end

section
/-! SUPPORT. The statements about the LCD's instruction bytes (R224 to R241): a byte has an effect on the device, which
a device that takes it has afterwards, and where there is none the model loses the device. -/

namespace Sys2Proof.Machine

/-! ### A byte with a given effect on the device -/

theorem SameButLcd.platform {s t : State} (h : SameButLcd s t) : t.platform = s.platform :=
  (congrArg State.platform h :)

theorem sameButLcd_lcd (s : State) (l : Lcd) : SameButLcd s { s with lcd := l } := rfl

section
variable {s : State} {i : Instr} {f : Device → Option Device}

/-- A byte that the model follows, on a device that takes it: the device is the effect's, but for the place in the
reset sequence and the draw of BUSY (R224). -/
theorem Takes.exec_next {d : Device} (hs : Takes s) (hexec : exec i s = .next (s.deviceInstruction f))
    (hf : f s.lcd.device = some d) :
    ∃ t, exec i s = .next t ∧ SameButLcd s t ∧ DrawsBusy s.lcd t.lcd ∧
      ∃ q, t.lcd.device = { d with seqPos := 0, busy := q } :=
  ⟨_, hexec, sameButLcd_lcd s _, Lcd.instruction_draws hs.timing, Lcd.instruction_taken hs hf⟩

/-- A byte that the model does not follow, whatever the device (R242). -/
theorem exec_next_unmodelled (ht : s.platform.strobeTimingOK = true)
    (hexec : exec i s = .next (s.deviceInstruction f)) (hf : f s.lcd.device = none) :
    ∃ t, exec i s = .next t ∧ SameButLcd s t ∧ t.lcd.device.unmodelled = true ∧
      DrawsBusy s.lcd t.lcd :=
  ⟨_, hexec, sameButLcd_lcd s _, Lcd.instruction_lost ht (.inr (.inr (.inr hf))), Lcd.instruction_draws ht⟩

end

/-! ### The effects of the bytes -/

theorem flag_iff (b : BitVec 1) : flag b = true ↔ b = 1 := beq_iff_eq

/-- A bit is 0 or 1. -/
theorem flag_eq_false_iff : ∀ b : BitVec 1, flag b = false ↔ b = 0 := by decide

theorem inTwoLineMap_iff (a : Addr7) :
    inTwoLineMap a = true ↔ a.toNat ≤ 0x27 ∨ (0x40 ≤ a.toNat ∧ a.toNat ≤ 0x67) := by
  simp [inTwoLineMap]

/-- An address outside the map loses the device (R235). -/
theorem setDdramEffect_offMap {a : Addr7} (ha : inTwoLineMap a = false) (d : Device) :
    setDdramEffect a d = none := by simp [setDdramEffect, ha]

/-- Outside the reset sequence a function set has R233's effect. -/
theorem exec_lcdFunctionSet_outside {s : State} {dl n f : BitVec 1} {x : BitVec 2}
    (h : continuesReset s.lcd.device.seqPos dl n f x = false) :
    exec (.lcdFunctionSet dl n f x) s = .next (s.deviceInstruction (functionSetEffect dl n f)) := by
  simp [exec, execLcdFunctionSet, h]

/-- The settings the device already has change nothing (R233). -/
theorem functionSetEffect_same {dl n f : BitVec 1} {d : Device} (hdl : dl = 1) (hn : n = 1)
    (hf : f = 1 ↔ d.f10 = true) : functionSetEffect dl n f d = some d := by
  have hfont : flag f = d.f10 := Bool.eq_iff_iff.mpr ((flag_iff f).trans hf)
  simp [functionSetEffect, (flag_iff dl).mpr hdl, (flag_iff n).mpr hn, hfont]

/-- Any other setting loses the device (R233). -/
theorem functionSetEffect_other {dl n f : BitVec 1} {d : Device}
    (h : dl = 0 ∨ n = 0 ∨ (f = 1 ↔ d.f10 = false)) : functionSetEffect dl n f d = none := by
  rcases h with hdl | hn | hf
  · simp [functionSetEffect, (flag_eq_false_iff dl).mpr hdl]
  · simp [functionSetEffect, (flag_eq_false_iff n).mpr hn]
  · have hfont : flag f ≠ d.f10 := fun h => by
      rw [← flag_iff, h] at hf
      cases d.f10 <;> simp at hf
    simp [functionSetEffect, hfont]

/-- The meaning of a byte: the next write of the reset sequence, which only moves it on (R239), or a byte with some
effect on the device. -/
theorem exec_decodeLcd_cases (v : Byte) (s : State) :
    (∃ f, exec (decodeLcd v) s = .next (s.deviceInstruction f)) ∨
      ∃ dl n f x, decodeLcd v = .lcdFunctionSet dl n f x ∧
        continuesReset s.lcd.device.seqPos dl n f x = true ∧
        exec (decodeLcd v) s =
          .next { s with lcd := s.lcd.write s.platform (s.lcd.device.seqPos + 1) id } := by
  cases hv : decodeLcd v with
  | lcdFunctionSet dl n f x =>
    by_cases hc : continuesReset s.lcd.device.seqPos dl n f x = true
    · exact .inr ⟨dl, n, f, x, rfl, hc, execLcdFunctionSet_reset hc⟩
    · exact .inl ⟨_, exec_lcdFunctionSet_outside (by simpa using hc)⟩
  | lcdClear | lcdReturnHome | lcdEntryMode | lcdDisplayControl | lcdShift | lcdSetCgram | lcdSetDdram
  | lcdNone => exact .inl ⟨_, rfl⟩
  | _ =>
    have hbyte := encode_decodeLcd v
    rw [hv] at hbyte
    cases hbyte

/-! ### The statements about the bytes -/

/-- Settles O22: the effect is `Device.clear`, over which every cell reads CLEAR_FILL. -/
theorem clearDisplayCompletes : Obligations.ClearDisplayCompletes := by
  intro s hs
  obtain ⟨t, hexec, hsame, hdraws, q, hdevice⟩ :=
    hs.exec_next (i := .lcdClear) (f := fun d => some d.clear) rfl rfl
  refine ⟨t, hexec, hsame, hdraws, ?_⟩
  rw [hdevice]
  exact ⟨Memory.read_allCleared, rfl, rfl, rfl, ⟨rfl, rfl, rfl, hs.modelled⟩, ⟨rfl, rfl, rfl⟩⟩

/-- Settles O23: the effect writes AC alone. -/
theorem returnHomeCompletes : Obligations.ReturnHomeCompletes := by
  intro s x hs
  obtain ⟨t, hexec, hsame, hdraws, q, hdevice⟩ :=
    hs.exec_next (i := .lcdReturnHome x) (f := fun d => some { d with ac := 0 }) rfl rfl
  refine ⟨t, hexec, hsame, hdraws, ?_⟩
  rw [hdevice]
  exact ⟨rfl, fun _ => rfl, ⟨rfl, rfl, rfl, hs.modelled⟩, ⟨rfl, rfl, rfl⟩, ⟨rfl, rfl⟩⟩

/-- Settles O24: the effect writes ID and S alone. -/
theorem entryModeCompletes : Obligations.EntryModeCompletes := by
  intro s id sh hs
  obtain ⟨t, hexec, hsame, hdraws, q, hdevice⟩ :=
    hs.exec_next (i := .lcdEntryMode id sh) (f := fun d => some { d with id := flag id, s := flag sh })
      rfl rfl
  refine ⟨t, hexec, hsame, hdraws, ?_⟩
  rw [hdevice]
  exact ⟨flag_iff id, flag_iff sh, rfl, fun _ => rfl, ⟨rfl, rfl, rfl, hs.modelled⟩, ⟨rfl, rfl, rfl⟩⟩

/-- Settles O25: the effect writes D, C and B alone. -/
theorem displayControlCompletes : Obligations.DisplayControlCompletes := by
  intro s d c b hs
  obtain ⟨t, hexec, hsame, hdraws, q, hdevice⟩ :=
    hs.exec_next (i := .lcdDisplayControl d c b)
      (f := fun v => some { v with d := flag d, c := flag c, b := flag b }) rfl rfl
  refine ⟨t, hexec, hsame, hdraws, ?_⟩
  rw [hdevice]
  exact ⟨flag_iff d, flag_iff c, flag_iff b, rfl, fun _ => rfl, ⟨rfl, rfl, rfl, hs.modelled⟩, ⟨rfl, rfl⟩⟩

/-- Settles O26: the effect writes AC alone, and there is none with one line or outside the map. -/
theorem setDdramCompletes : Obligations.SetDdramCompletes := by
  intro s a hs
  refine ⟨_, exec_lcdSetDdram a s, sameButLcd_lcd s _, Lcd.instruction_draws hs.timing,
    fun hn ha => ?_, fun hout => Lcd.instruction_lost hs.timing (.inr (.inr (.inr ?_)))⟩
  · obtain ⟨q, hdevice⟩ :=
      Lcd.instruction_taken hs (setDdramEffect_twoLine hn ((inTwoLineMap_iff a).mpr ha))
    dsimp only
    rw [hdevice]
    exact ⟨rfl, fun _ => rfl, ⟨rfl, rfl, rfl, hs.modelled⟩, ⟨rfl, rfl, rfl⟩, ⟨rfl, rfl⟩⟩
  · rcases hout with hn | hhole
    · exact setDdramEffect_oneLine hn a
    · refine setDdramEffect_offMap (Bool.eq_false_iff.mpr fun ha => ?_) _
      have := (inTwoLineMap_iff a).mp ha
      omega

/-- Settles O27: the settings the device has are the identity, and any other has no effect that the model follows. -/
theorem functionSetCompletes : Obligations.FunctionSetCompletes := by
  intro s dl n f x hs hc
  refine ⟨_, exec_lcdFunctionSet_outside hc, sameButLcd_lcd s _, Lcd.instruction_draws hs.timing,
    fun ⟨hdl, hn, hf⟩ => ?_,
    fun hother => Lcd.instruction_lost hs.timing (.inr (.inr (.inr (functionSetEffect_other hother))))⟩
  obtain ⟨q, hdevice⟩ := Lcd.instruction_taken hs (functionSetEffect_same hdl hn hf)
  rw [State.deviceInstruction, hdevice]
  exact ⟨rfl, fun _ => rfl, ⟨rfl, rfl, rfl, hs.modelled⟩, ⟨rfl, rfl, rfl⟩, ⟨rfl, rfl⟩⟩

/-- Settles O28: none of the three has an effect that the model follows. -/
theorem unfollowedBytesSetUnmodelled : Obligations.UnfollowedBytesSetUnmodelled := fun _ ht =>
  ⟨fun _ _ _ => exec_next_unmodelled (f := fun _ => none) ht rfl rfl,
    fun _ => exec_next_unmodelled (f := fun _ => none) ht rfl rfl,
    exec_next_unmodelled (f := fun _ => none) ht rfl rfl⟩

/-- Settles O29: what is latched with BUSY not 0 is lost inside the reset sequence too; with a 4-bit interface every
byte outside it is. -/
theorem writeToBusyOrFourBitDeviceSetsUnmodelled :
    Obligations.WriteToBusyOrFourBitDeviceSetsUnmodelled := by
  intro s v ht
  refine ⟨fun hbusy => ⟨?_, ?_⟩, fun h8 houtside => ?_⟩
  · obtain ⟨f, hexec⟩ | ⟨dl, n, f, x, -, -, hexec⟩ := exec_decodeLcd_cases v s
    · exact ⟨_, hexec, Lcd.instruction_lost ht (.inr (.inl hbusy))⟩
    · refine ⟨_, hexec, ?_⟩
      rw [Lcd.write_eq_latch ht]
      exact Lcd.latch_lost (.inr hbusy)
  · rw [latchData, Lcd.write_eq_latch ht]
    exact Lcd.latch_lost (.inr hbusy)
  · obtain ⟨f, hexec⟩ | ⟨dl, n, f, x, hv, hc, -⟩ := exec_decodeLcd_cases v s
    · exact ⟨_, hexec, Lcd.instruction_lost ht (.inr (.inr (.inl h8)))⟩
    · exact absurd (houtside dl n f x hv) (by simp [hc])

/-- Settles O30: the polls leave the cleared device idle, so it takes the second clear, which writes what is there. -/
theorem clearTwiceIsClearOnce : Obligations.ClearTwiceIsClearOnce := by
  intro s t k hs hclear hbusy
  obtain ⟨cleared, hexec, hsame, -, q, hfirst⟩ :=
    hs.exec_next (i := .lcdClear) (f := fun d => some d.clear) rfl rfl
  obtain rfl := Host.Outcome.next.inj (hclear.symm.trans hexec)
  obtain ⟨hpolled, -⟩ := Lcd.afterPolls_device hbusy
  have htakes : Takes { t with lcd := t.lcd.afterPolls (k + 1) } :=
    ⟨hsame.platform ▸ hs.timing, by rw [hpolled]; exact hbusy.1, by rw [hpolled],
      by rw [hpolled, hfirst]; exact hs.if8⟩
  obtain ⟨u, hexec', -, -, q', hsecond⟩ :=
    htakes.exec_next (i := .lcdClear) (f := fun d => some d.clear) rfl rfl
  refine ⟨u, hexec', ?_⟩
  rw [hsecond, hpolled, hfirst]
  rfl

end Sys2Proof.Machine
end

section
/-! SUPPORT. The statements about the device's sequences: the reset by instruction (R239), write by write, and the next
address in the two-line map (R237). -/

namespace Sys2Proof.Machine

/-! ### The reset by instruction (R239) -/

section
variable {s : State} {l : Lcd}

theorem settled_functionSet {dl n f : BitVec 1} {x : BitVec 2}
    (h : continuesReset l.device.seqPos dl n f x = true) :
    settled (exec (.lcdFunctionSet dl n f x) { s with lcd := l }) =
      .next { s with
        lcd := (l.write s.platform (l.device.seqPos + 1) id).afterDelay s.platform .settle } := by
  rw [exec, execLcdFunctionSet_reset h]
  rfl

variable (ht : s.platform.strobeTimingOK = true) (hd : s.platform.delaySufficient = true)
include ht hd

/-- One of the first three function sets with its settle delay. -/
theorem settled_legacy (hpos : l.device.seqPos = 1 ∨ l.device.seqPos = 3 ∨ l.device.seqPos = 5) :
    ∃ m, settled (exec (decodeLcd Config.fsLegacy) { s with lcd := l }) = .next { s with lcd := m } ∧
      m.device.seqPos = l.device.seqPos + 2 := by
  have hnext : continuesReset l.device.seqPos 1 0 0 0 = true := by
    rcases hpos with h | h | h <;> rw [h] <;> rfl
  rw [decodeLcd_fsLegacy, settled_functionSet hnext]
  exact ⟨_, rfl, (Lcd.legacy_step ht hd hpos).1⟩

/-- The last function set with its settle delay. -/
theorem settled_final (hpos : l.device.seqPos = 7) :
    ∃ m draw, settled (exec (decodeLcd Config.fsFinal) { s with lcd := l }) = .next { s with lcd := m } ∧
      m.device = Device.resetByInstruction draw := by
  have hnext : continuesReset l.device.seqPos 1 1 0 0 = true := by rw [hpos]; rfl
  obtain ⟨draw, hdevice, -⟩ := Lcd.final_step ht hd hpos
  rw [decodeLcd_fsFinal, settled_functionSet hnext]
  exact ⟨_, draw, rfl, hdevice⟩

end

/-- Settles O31: each write with its delay takes the device one place on in the sequence, from any state. -/
theorem resetByInstructionRestoresDevice : Obligations.ResetByInstructionRestoresDevice := by
  intro s ht hd
  obtain ⟨h1, -⟩ := Lcd.afterDelay_powerup (l := s.lcd) hd
  obtain ⟨l1, hfirst, h3⟩ := settled_legacy ht hd (.inl h1)
  rw [h1] at h3
  obtain ⟨l2, hsecond, h5⟩ := settled_legacy ht hd (.inr (.inl h3))
  rw [h3] at h5
  obtain ⟨l3, hthird, h7⟩ := settled_legacy ht hd (.inr (.inr h5))
  rw [h5] at h7
  obtain ⟨l4, draw, hfinal, hdevice⟩ := settled_final ht hd h7
  have hrun : resetSequence s = .next { s with lcd := l4 } := by
    simp only [resetSequence, State.delayed, hfirst, hsecond, hthird, hfinal, andThen]
  refine ⟨_, hrun, sameButLcd_lcd s l4, ?_⟩
  rw [hdevice]
  exact ⟨rfl, rfl, rfl, rfl, rfl⟩

/-! ### The address sequence (R237) -/

theorem nextAddr_increment (a : Addr7) :
    nextAddr a true = if a = 0x27 then 0x40 else if a = 0x67 then 0x00 else a + 1 := rfl

theorem nextAddr_decrement (a : Addr7) :
    nextAddr a false = if a = 0x40 then 0x27 else if a = 0x00 then 0x67 else a - 1 := rfl

/-- The successor or predecessor of an address in the map is in the map. -/
theorem inTwoLineMap_nextAddr {a : Addr7} (ha : inTwoLineMap a = true) (inc : Bool) :
    inTwoLineMap (nextAddr a inc) = true := by
  rw [inTwoLineMap_iff] at ha ⊢
  cases inc with
  | true => rw [nextAddr_increment]; split_ifs <;> bv_omega
  | false => rw [nextAddr_decrement]; split_ifs <;> bv_omega

/-- Inside the map the predecessor of the successor is the address itself. -/
theorem nextAddr_decrement_increment {a : Addr7} (ha : inTwoLineMap a = true) :
    nextAddr (nextAddr a true) false = a := by
  by_cases hline1 : a = 0x27
  · rw [hline1]; rfl
  by_cases hline2 : a = 0x67
  · rw [hline2]; rfl
  rw [inTwoLineMap_iff] at ha
  have h40 : a + 1 ≠ 0x40 := by bv_omega
  have h00 : a + 1 ≠ 0x00 := by bv_omega
  rw [nextAddr_increment, if_neg hline1, if_neg hline2, nextAddr_decrement, if_neg h40, if_neg h00,
    BitVec.add_sub_cancel]

/-- Inside the map the successor of the predecessor is the address itself. -/
theorem nextAddr_increment_decrement {a : Addr7} (ha : inTwoLineMap a = true) :
    nextAddr (nextAddr a false) true = a := by
  by_cases hline2 : a = 0x40
  · rw [hline2]; rfl
  by_cases hline1 : a = 0x00
  · rw [hline1]; rfl
  rw [inTwoLineMap_iff] at ha
  have h27 : a - 1 ≠ 0x27 := by bv_omega
  have h67 : a - 1 ≠ 0x67 := by bv_omega
  rw [nextAddr_decrement, if_neg hline2, if_neg hline1, nextAddr_increment, if_neg h27, if_neg h67,
    BitVec.sub_add_cancel]

/-- Settles O34: `nextAddr` is R237's rule, which keeps the map and is undone by its other direction there. -/
theorem nextAddressFollowsTwoLineMap : Obligations.NextAddressFollowsTwoLineMap := by
  intro a
  refine ⟨fun _ => nextAddr_increment a, nextAddr_decrement a,
    fun ha inc => ⟨inTwoLineMap_nextAddr ha inc, ?_⟩⟩
  cases inc with
  | true => exact nextAddr_decrement_increment ha
  | false => exact nextAddr_increment_decrement ha

end Sys2Proof.Machine
end

section
/-! SUPPORT. The statement that an unmodelled device stays so (R242): only the end of a delay clears UNMODELLED, and past
INIT's timed part no program holds a delay. -/

namespace Sys2Proof.Machine

/-! ### Programs past the timed part (R133 to R135) -/

/-- A program that some lines past INIT's timed part admit (R133 to R135). -/
def PastTimedPart (todo : List Micro) : Prop :=
  ∃ l : Lines, DrvState.functionSet.rank < l.drv.rank ∧ l.admits todo = true

theorem PastTimedPart.of_admits {l : Lines} {todo : List Micro} (ha : l.admits todo = true)
    (hl : DrvState.functionSet.rank < l.drv.rank) : PastTimedPart todo := ⟨l, hl, ha⟩

/-- It does not begin with the end of a delay, and its rest is past the timed part too. -/
theorem PastTimedPart.cons {op : Micro} {r : List Micro} (h : PastTimedPart (op :: r)) :
    (∀ p, op ≠ .delayEnd p) ∧ PastTimedPart r := by
  obtain ⟨l, hl, ha⟩ := h
  have hnot : l.timed = false := by
    cases hd : l.drv <;> simp_all [Lines.timed, DrvState.rank]
  cases op with
  | delayEnd p => simp [Lines.admits, hnot] at ha
  | setDrv d =>
    simp only [Lines.admits, Bool.and_eq_true, beq_iff_eq] at ha
    exact ⟨nofun, .of_admits ha.2 (ha.1.2 ▸ hl.trans (Nat.lt_succ_self _))⟩
  | setDir d =>
    cases d <;>
      (simp only [Lines.admits, Bool.and_eq_true] at ha; exact ⟨nofun, .of_admits ha.2 hl⟩)
  | _ =>
    simp only [Lines.admits, Bool.and_eq_true] at ha
    exact ⟨nofun, .of_admits ha.2 hl⟩

/-! ### What clears no UNMODELLED (R242) -/

/-- A micro-operation that leaves the device to its check does not change it. -/
theorem continueWith_requireThat_lcd {b : Bool} {r : List Micro} {fin : Finish} {u t : State}
    (h : continueWith r fin (requireThat b u) = .next t) : t.lcd = u.lcd := by
  obtain ⟨v, hv, rfl⟩ := continueWith_inv h
  obtain ⟨-, rfl⟩ := requireThat_inv hv
  rfl

/-- No event of such a program clears UNMODELLED. -/
theorem microStep_keeps_unmodelled (fin : Finish) : ∀ {todo : List Micro} {s t : State},
    PastTimedPart todo → s.lcd.device.unmodelled = true → microStep todo fin s = .next t →
    t.lcd.device.unmodelled = true := by
  intro todo
  induction todo with
  | nil =>
    intro s t _ hu h
    obtain rfl := Host.Outcome.next.inj h
    cases fin <;> exact hu
  | cons op r ih =>
    intro s t hop hu h
    obtain ⟨hdelay, hrest⟩ := hop.cons
    have same : ∀ {b : Bool} {r : List Micro} {u : State},
        continueWith r fin (requireThat b u) = .next t → u.lcd = s.lcd →
        t.lcd.device.unmodelled = true := by
      intro b r u h hlcd
      rw [continueWith_requireThat_lcd h, hlcd]
      exact hu
    cases op with
    | enableCtl | setDir | setCtl | driveDB | strobeUp | sampleUp => exact same h rfl
    | sampleDown =>
      rw [continueWith_requireThat_lcd h, State.dropE_lcd]
      dsimp only
      split
      · exact Lcd.afterRead_keeps_unmodelled hu
      · exact hu
    | strobeDown =>
      obtain ⟨m, rfl, hlatch⟩ := strobeDown_inv h
      refine latchWrite_keeps_unmodelled ?_ hlatch
      exact hu
    | delay p =>
      obtain rfl := Host.Outcome.next.inj h
      exact hu
    | delayEnd p => exact absurd rfl (hdelay p)
    | setDrv d => exact ih (s := { s with drvState := d }) hrest hu h
    | initEnd =>
      exact ih (s := { s with lcd := s.lcd.afterInit s.platform }) hrest
        (Lcd.afterInit_keeps_unmodelled hu) h
    | clearRcnt => exact ih (s := { s with rcnt := 0 }) hrest hu h
    | incRcnt => exact ih (s := { s with rcnt := s.rcnt + 1 }) hrest hu h
    | setPcnt n => exact ih (s := { s with pcnt := n }) hrest hu h
    | legacyTest =>
      simp only [microStep] at h
      split at h
      · exact ih hrest hu h
      · exact same h rfl
    | pollAgain =>
      simp only [microStep] at h
      split at h
      · exact same h rfl
      · exact ih hrest hu h
    | boundedTest =>
      simp only [microStep] at h
      split at h
      · exact same h rfl
      · exact ih (s := { s with pcnt := s.pcnt - 1 }) hrest hu h

/-- Nor do any number of events: DRV_STATE never goes back to the timed part. -/
theorem runEvents_keeps_unmodelled (n : Nat) : ∀ {s t : State}, Inv s →
    DrvState.functionSet.rank < s.drvState.rank → s.lcd.device.unmodelled = true →
    runEvents n s = .next t → t.lcd.device.unmodelled = true := by
  induction n with
  | zero =>
    intro s t _ _ hu h
    obtain rfl := Host.Outcome.next.inj h
    exact hu
  | succ n ih =>
    intro s t hi hd hu h
    cases hs : s.seq with
    | idle => simp only [runEvents, hs, Host.Outcome.next.injEq] at h; exact h ▸ hu
    | decode => simp only [runEvents, hs, Host.Outcome.next.injEq] at h; exact h ▸ hu
    | running todo fin =>
      obtain ⟨hf, hk, ha⟩ := hi.fits hs
      obtain ⟨u, hstep, hui⟩ := microStep_inv fin hf hk ha
      simp only [runEvents, hs, hstep] at h
      exact ih hui (hd.trans_le (microStep_rank fin hf.drv ha hstep))
        (microStep_keeps_unmodelled fin (.of_admits ha (hf.drv ▸ hd)) hu hstep) h

/-- Nor does a program from its start. -/
theorem runProgram_keeps_unmodelled {todo : List Micro} {fin : Finish} {l : Lines} {s t : State}
    (hf : Fits l s) (hk : Keeps s) (ha : l.admits todo = true)
    (hd : DrvState.functionSet.rank < s.drvState.rank) (hu : s.lcd.device.unmodelled = true)
    (h : runProgram todo fin s = .next t) : t.lcd.device.unmodelled = true := by
  obtain ⟨u, hstep, hui⟩ := microStep_inv fin hf hk ha
  rw [runProgram, resume, State.goOn_pace, runEvents_running, hstep] at h
  exact runEvents_keeps_unmodelled _ hui (hd.trans_le (microStep_rank fin hf.drv ha hstep))
    (microStep_keeps_unmodelled fin (.of_admits ha (hf.drv ▸ hd)) hu hstep) h

/-- A reset never makes an unmodelled device modelled (R281, R282). -/
theorem applyReset_keeps_unmodelled {s : State} (hu : s.lcd.device.unmodelled = true) :
    s.applyReset.lcd.device.unmodelled = true := by
  simp only [State.applyReset]
  split
  · exact s.lcd.lose_unmodelled
  · exact hu

/-- Settles O47: outside INIT's timed part no delay ends, and nothing else clears UNMODELLED. -/
theorem unmodelledStays : Obligations.UnmodelledStays := by
  intro s t hi hd hu h
  have hrank : DrvState.functionSet.rank < s.drvState.rank := by
    rcases hd with hd | hd <;> rw [hd] <;> decide
  have hu' : s.hostPasses.lcd.device.unmodelled = true := by
    rw [s.hostPasses_eq_withHost]
    exact hu
  cases hr : s.rstNow with
  | true =>
    obtain rfl := Host.Outcome.next.inj ((step_of_rst hr).symm.trans h)
    exact applyReset_keeps_unmodelled hu'
  | false =>
    by_cases hs : s.seq = .idle
    · obtain rfl := Host.Outcome.next.inj ((step_of_idle hr hs).symm.trans h)
      rw [(idleStep_edgeFrame s).lcd]
      exact hu
    · obtain ⟨code, ho⟩ | ⟨todo, fin, l, ho, hf, ha⟩ := hi.step_cases hr hs
      · obtain rfl := Host.Outcome.next.inj (ho.symm.trans h)
        exact hu'
      · exact runProgram_keeps_unmodelled hf (hostPasses_inv hi).keeps ha
          (s.hostPasses_drvState.symm ▸ hrank) hu' (ho.symm.trans h)

end Sys2Proof.Machine
end


section
/-! SUPPORT. The statements about the error answers at DECODE (R253, R255, R258): each step there is the error answer of
the latched word, or `exec` of the command it spells, and GOTO checks DRV_STATE before it looks at its operands. -/

namespace Sys2Proof.Machine

/-! ### A step in DECODE -/

/-- A word that spells no command is answered before DRV_STATE is looked at (R253). -/
theorem step_of_illegal {s : State} {err : DecodeError} (hr : s.rstNow = false) (hs : s.seq = .decode)
    (h : s.latched = .error err) : step s = .next (s.hostPasses.raiseErr .errIllegal) := by
  rw [step_of_decode hr hs, decodeStep, h]

theorem step_of_latched {s : State} {i : Instr} (hr : s.rstNow = false) (hs : s.seq = .decode)
    (h : s.latched = .ok i) : step s = exec i s.hostPasses := by
  rw [step_of_decode hr hs, decodeStep, h]

/-! ### GOTO out of range (R191, R255) -/

theorem exec_goto_outOfRange {s : State} {x y : Byte} (hd : s.drvState = .ready)
    (hr : inRange x y = false) : exec (.goto x y) s = .next (s.raiseErr .errRange) := by
  rw [exec, execGoto, inState_of_eq hd, if_neg (Bool.eq_false_iff.mp hr)]

theorem inRange_eq_false {x y : Byte} (h : x = 0 ∨ 16 < x.toNat ∨ (y ≠ 1 ∧ y ≠ 2)) :
    inRange x y = false := by
  refine Bool.eq_false_iff.mpr fun hr => ?_
  obtain ⟨h1, h16, hy⟩ := bounds_of_inRange hr
  rcases h with rfl | hx | ⟨hy1, hy2⟩
  · exact absurd h1 (by decide)
  · exact absurd hx (Nat.not_lt.mpr h16)
  · exact hy.elim hy1 hy2

/-! ### The statements -/

/-- Settles O8: the latch holds the word's fields, so it decodes to the word's error, and the step is the error
answer alone; an offer is not the host's act at this step. -/
theorem illegalWordIsAnsweredErrIllegal : Obligations.IllegalWordIsAnsweredErrIllegal := by
  intro s w err hr hs hop ha hb hdec
  have hlatched : s.latched = .error err := by rw [State.latched, hop, ha, hb]; exact hdec
  have hanswered := raiseErr_onlyAnswered .errIllegal s.hostPasses
  refine ⟨_, step_of_illegal hr hs hlatched, hanswered, fun v h ho => ?_⟩
  obtain ⟨-, hpass⟩ := rstNow_hostPasses_of_offer (.inl ho)
  rw [hpass]
  rfl

/-- Settles O10: the range check of a Ready block comes before any bus event. -/
theorem gotoOutOfRangeIsAnsweredErrRange : Obligations.GotoOutOfRangeIsAnsweredErrRange :=
  fun s _ _ hd h =>
    ⟨_, exec_goto_outOfRange hd (inRange_eq_false h), raiseErr_onlyAnswered .errRange s⟩

/-- Settles O11: the step answers an illegal word itself, and a GOTO outside Ready is answered as every command
out of its state (R254), whatever its operands. -/
theorem errorsKeepTheirPriority : Obligations.ErrorsKeepTheirPriority := by
  intro s hr hs
  refine ⟨fun err h => ⟨_, step_of_illegal hr hs h, rfl⟩, fun x y h hd => ?_, fun x y h hd hrange => ?_⟩
  · obtain ⟨-, houtside⟩ := commandOutOfStateIsAnsweredErrState s.hostPasses
    obtain ⟨-, -, -, -, hgoto, -⟩ := houtside (s.hostPasses_drvState.symm ▸ hd)
    obtain ⟨t, ht, honly⟩ := hgoto x y
    exact ⟨t, (step_of_latched hr hs h).trans ht, honly.answered.rspCode⟩
  · exact ⟨_, (step_of_latched hr hs h).trans
      (exec_goto_outOfRange (s.hostPasses_drvState.trans hd) hrange), rfl⟩

end Sys2Proof.Machine
end


section
/-! SUPPORT. What an edge with rst does to the attached device (R281, R282), and that it gives no response and
appends no event (log 14). -/

namespace Sys2Proof.Machine

/-! ### A reset of a block whose E is high, and of one whose E is low -/

theorem applyReset_lcd_of_strobe {s : State} (he : s.e = true) : s.applyReset.lcd = s.lcd.lose :=
  if_pos he

theorem applyReset_lcd_of_e_low {s : State} (he : s.e = false) : s.applyReset.lcd = s.lcd :=
  if_neg (Bool.eq_false_iff.mp he)

theorem applyReset_unmodelled_of_strobe {s : State} (he : s.e = true) :
    s.applyReset.lcd.device.unmodelled = true := by
  rw [applyReset_lcd_of_strobe he, s.lcd.lose_unmodelled]

@[simp] theorem applyReset_responses (s : State) : s.applyReset.responses = s.responses := rfl

@[simp] theorem applyReset_trace (s : State) : s.applyReset.trace = s.trace := rfl

/-! ### The statement -/

/-- Settles O38: the step is `applyReset` of the state with the host's act over, which has the E, the device, the
responses and the trace of the state before. -/
theorem resetTouchesDeviceOnlyInStrobe : Obligations.ResetTouchesDeviceOnlyInStrobe := by
  intro s t hr h
  obtain rfl := Host.Outcome.next.inj ((step_of_rst hr).symm.trans h)
  rw [s.hostPasses_eq_withHost]
  exact ⟨fun he => applyReset_unmodelled_of_strobe he, fun he => applyReset_lcd_of_e_low he,
    applyReset_responses _, applyReset_trace _⟩

end Sys2Proof.Machine
end

section
/-! SUPPORT. The statement about PUTC on any modelled device (R165, R236): the device takes the byte whatever its
interface, its lines and its address (logs 7, 18, 24). -/

namespace Sys2Proof.Machine

/-- Where R237 gives the next address: with two lines, and not up from the last address. -/
theorem Device.nextStated_iff (d : Device) :
    d.nextStated = true ↔ d.n2 = true ∧ ¬ (d.id = true ∧ d.ac = 0x7F) := by
  rw [Device.nextStated, Bool.and_eq_true, Bool.not_eq_true', Bool.eq_false_iff, ne_eq, Bool.and_eq_true,
    beq_iff_eq]

/-- Settles O50: after the polls the device is as it was but idle, and `dataEffect` looks at the display shift
alone before it takes the byte. -/
theorem putcOffTheTwoLineMapCompletes : Obligations.PutcOffTheTwoLineMapCompletes := by
  intro s b8 k hs hb hp hsh
  obtain ⟨hdevice, hdraws⟩ := Lcd.afterPolls_device hb
  obtain ⟨t, hrun, ht⟩ := waitThenWrite_completes hs hb
    (G := fun p l => l.write p 0 (Lcd.takeData b8)) (latchWrite_data b8) 0x00 hp
  have hshift : (s.lcd.afterPolls (k + 1)).device.s = false := by rw [hdevice]; exact hsh
  obtain ⟨q, hq⟩ := Lcd.writeData_taken hs.timing (Lcd.busyFor_zero_afterPolls hb) hshift b8
  refine ⟨t, (inState_of_eq hs.ready _).trans hrun, ht.answered, ht.frame, ?_, ?_⟩
  · rw [ht.lcd, Lcd.write_eq_latch hs.timing]
    exact (Lcd.latch_draws (Lcd.takeData_busyDraws ..)).congr hdraws
  · rw [ht.lcd, hq, hdevice]
    exact ⟨Memory.read_write_same hs.ddram .., fun _ hne => Memory.read_write_other _ hne _,
      fun hn hac => Device.nextAc_stated ((Device.nextStated_iff _).mpr ⟨hn, hac⟩) _,
      ⟨rfl, rfl, rfl, hb.1⟩, ⟨rfl, rfl, rfl⟩, ⟨rfl, rfl⟩⟩

end Sys2Proof.Machine
end

section
/-! SUPPORT. The statement about DCNT (R33): every step that leaves a program running has just appended an event, and
DCNT counts what that event asks for. -/

namespace Sys2Proof.Machine

/-- A program from its start. -/
theorem runProgram_counts {todo : List Micro} {fin : Finish} {s t : State}
    (h : runProgram todo fin s = .next t) : t.seq = .idle ∨ CountsLast t :=
  runEvents_counts s.pace (State.goOn_seq s todo fin) h

/-- An edge in IDLE starts no program. -/
theorem idleStep_seq {s : State} (hs : s.seq = .idle) :
    (idleStep s).seq = .decode ∨ (idleStep s).seq = .idle := by
  obtain ⟨acts, ⟨w, hw⟩ | hi⟩ := idleStep_cases s
  · exact .inl (by rw [hw]; rfl)
  · exact .inr (by rw [hi]; exact hs)

/-- A reset, an edge in IDLE and an error answer leave no program running, so the step was a program's events. -/
theorem step_counts {s t : State} {todo : List Micro} {fin : Finish} (h : step s = .next t)
    (ht : t.seq = .running todo fin) : CountsLast t := by
  cases hr : s.rstNow with
  | true =>
    obtain rfl := Host.Outcome.next.inj ((step_of_rst hr).symm.trans h)
    exact nomatch ht
  | false =>
    by_cases hs : s.seq = .idle
    · obtain rfl := Host.Outcome.next.inj ((step_of_idle hr hs).symm.trans h)
      rcases idleStep_seq hs with hseq | hseq <;> exact nomatch hseq.symm.trans ht
    · cases answersOrRuns_step hr hs with
      | error code answers =>
        obtain rfl := Host.Outcome.next.inj (answers.symm.trans h)
        exact nomatch ht
      | program todo' fin' runs =>
        exact (runProgram_counts (runs.symm.trans h)).resolve_left fun hidle =>
          nomatch hidle.symm.trans ht

/-- Settles O56: the spacing the step keeps makes the registers that time a strobe's wait agree with the trace. -/
theorem delayCounterHoldsWhatIsDue : Obligations.DelayCounterHoldsWhatIsDue := by
  intro s t c ev old todo fin hi hsp h hseq htr
  have hspaced := stepKeepsEventSpacing s t hi hsp h
  obtain ⟨ev', old', htr', hcounts⟩ := step_counts h hseq
  obtain ⟨⟨rfl, rfl⟩, rfl⟩ : (c = t.cycle ∧ ev = ev') ∧ old = old' := by
    simpa using htr.symm.trans htr'
  exact ⟨rfl, hcounts hspaced.ctl hspaced.fall⟩

end Sys2Proof.Machine
end

section
/-! SUPPORT. The statement about the pace (log 1): a step at pace n is its step at pace 0 and then up to n further events
of the program, each of which is a step at pace 0 of its own. -/

namespace Sys2Proof.Machine

/-! ### Outcomes at a pace -/

@[simp] theorem outcomeAtPace_next (p : Nat) (s : State) :
    outcomeAtPace p (.next s) = .next (s.atPace p) := rfl

@[simp] theorem outcomeAtPace_outcomeAtPace (p q : Nat) (o : Host.Outcome State Fault Refusal) :
    outcomeAtPace p (outcomeAtPace q o) = outcomeAtPace p o := by
  cases o <;> rfl

/-- Where the outcome at a pace is a state, so is the outcome. -/
theorem outcomeAtPace_inv {p : Nat} {o : Host.Outcome State Fault Refusal} {t : State}
    (h : outcomeAtPace p o = .next t) : ∃ u, o = .next u ∧ t = u.atPace p := by
  cases o with
  | next u => exact ⟨u, rfl, (Host.Outcome.next.inj h).symm⟩
  | fault f => exact nomatch h
  | refused r => exact nomatch h

/-- Where going on gives a state, there was one to go on from. -/
theorem andThen_inv {o : Host.Outcome State Fault Refusal}
    {f : State → Host.Outcome State Fault Refusal} {t : State} (h : andThen o f = .next t) :
    ∃ u, o = .next u ∧ f u = .next t := by
  cases o with
  | next u => exact ⟨u, rfl, h⟩
  | fault f => exact nomatch h
  | refused r => exact nomatch h

/-- A block in IDLE runs no program, so it has no further event. -/
theorem runEvents_of_idle {s : State} (hs : s.seq = .idle) (n : Nat) : runEvents n s = .next s := by
  cases n with
  | zero => rfl
  | succ n => simp only [runEvents, hs]

/-! ### The host's act -/

/-- The step uses up no act of the host: the next one is an offer, or there is none. -/
theorem hostPasses_eq_self_iff (s : State) :
    s.hostPasses = s ↔ ∀ h, s.host ≠ .quiet :: h ∧ s.host ≠ .reset :: h := by
  refine ⟨fun hpass h => ?_, fun hno => ?_⟩
  · have hhost := congrArg State.host hpass
    refine ⟨fun hq => ?_, fun hq => ?_⟩ <;> simp [State.hostPasses, hq] at hhost
  · unfold State.hostPasses
    split
    · next h hq => exact absurd hq (hno h).1
    · next h hq => exact absurd hq (hno h).2
    · rfl

theorem hostPasses_eq_self_of_host {s t : State} (hpass : s.hostPasses = s) (hhost : t.host = s.host) :
    t.hostPasses = t := by
  rw [hostPasses_eq_self_iff] at hpass ⊢
  rwa [hhost]

/-- A reset is an act that a step uses up. -/
theorem rstNow_eq_false_of_hostPasses {s : State} (hpass : s.hostPasses = s) : s.rstNow = false := by
  refine Bool.eq_false_iff.mpr fun hr => ?_
  obtain ⟨h, hh⟩ := List.head?_eq_some_iff.mp (eq_of_beq hr)
  exact ((hostPasses_eq_self_iff s).mp hpass h).2 hh

/-! ### What is done at one pace and at another -/

/-- What is done at pace n is what is done at pace 0, and then up to n further events of the program. -/
def GoesOnByPace (n : Nat) (act : State → Host.Outcome State Fault Refusal) (s : State) : Prop :=
  act (s.atPace n) = andThen (act (s.atPace 0)) fun t => outcomeAtPace n (runEvents n t)

section
variable {n : Nat} {s : State}

/-- Two actions that agree on `s` at every pace go on alike. -/
theorem GoesOnByPace.congr {act act' : State → Host.Outcome State Fault Refusal}
    (h : GoesOnByPace n act' s) (hact : ∀ p, act (s.atPace p) = act' (s.atPace p)) :
    GoesOnByPace n act s := by
  simp only [GoesOnByPace, hact]
  exact h

/-- After an error answer there is no further event. -/
theorem raiseErr_goesOnByPace (code : RspCode) : GoesOnByPace n (fun s => .next (s.raiseErr code)) s := by
  have hseq : ((s.atPace 0).raiseErr code).seq = .idle := rfl
  simp only [GoesOnByPace, andThen, runEvents_of_idle hseq]
  rfl

/-- The events of a program are its first one and the rest. -/
theorem runEvents_eq_first_andThen {todo : List Micro} {fin : Finish} (hs : s.seq = .running todo fin) :
    outcomeAtPace n (runEvents (n + 1) s) =
      andThen (outcomeAtPace 0 (runEvents 1 s)) fun t => outcomeAtPace n (runEvents n t) := by
  simp only [runEvents, hs]
  cases microStep todo fin s with
  | next t => simp [andThen, runEvents_atPace]
  | fault f => rfl
  | refused r => rfl

theorem runProgram_goesOnByPace (todo : List Micro) (fin : Finish) :
    GoesOnByPace n (runProgram todo fin) s := by
  have hat : ∀ p, runProgram todo fin (s.atPace p) =
      outcomeAtPace p (runEvents (p + 1) (s.goOn todo fin)) := fun p =>
    runEvents_atPace p (p + 1) (s.goOn todo fin)
  rw [GoesOnByPace, hat, hat]
  exact runEvents_eq_first_andThen (State.goOn_seq s todo fin)

theorem inState_goesOnByPace {body : State → Host.Outcome State Fault Refusal} (d : DrvState)
    (h : GoesOnByPace n body s) : GoesOnByPace n (fun s => inState d s body) s := by
  by_cases hd : s.drvState = d
  · exact h.congr fun _ => if_pos hd
  · exact (raiseErr_goesOnByPace .errState).congr fun _ => if_neg hd

theorem execGoto_goesOnByPace (x y : Byte) : GoesOnByPace n (execGoto x y) s := by
  refine inState_goesOnByPace .ready ?_
  by_cases hr : inRange x y = true
  · exact (runProgram_goesOnByPace ..).congr fun _ => if_pos hr
  · exact (raiseErr_goesOnByPace .errRange).congr fun _ => if_neg hr

theorem execWaitb_goesOnByPace (b : Byte) : GoesOnByPace n (execWaitb b) s := by
  by_cases hw : s.platform.hasBoundedWait = true
  · refine (inState_goesOnByPace .ready ?_).congr fun _ => if_pos hw
    by_cases hb : b = 0
    · exact (runProgram_goesOnByPace ..).congr fun _ => if_pos hb
    · exact (runProgram_goesOnByPace ..).congr fun _ => if_neg hb
  · exact (raiseErr_goesOnByPace .errIllegal).congr fun _ => if_neg hw

/-- Every command, that is every instruction the command latch may hold. -/
theorem exec_goesOnByPace {b : Bool} {op : BitVec 4} {x y : Byte} {i : Instr}
    (hi : decodeFields b op x y = .ok i) : GoesOnByPace n (exec i) s := by
  rcases decodeFields_command hi with rfl | rfl | rfl | rfl | rfl | rfl | rfl
  case inr.inr.inr.inr.inr.inl => exact execGoto_goesOnByPace ..
  case inr.inr.inr.inr.inr.inr => exact execWaitb_goesOnByPace ..
  all_goals exact inState_goesOnByPace _ (runProgram_goesOnByPace ..)

end

/-! ### The step -/

section
variable {s : State} (hpass : s.hostPasses = s)
include hpass

/-- A program that runs goes on at pace n with its next `n + 1` events. -/
theorem step_atPace_of_running (n : Nat) {todo : List Micro} {fin : Finish}
    (hs : s.seq = .running todo fin) : step (s.atPace n) = outcomeAtPace n (runEvents (n + 1) s) := by
  have hpass' : (s.atPace n).hostPasses = s.atPace n := hostPasses_eq_self_of_host hpass rfl
  rw [step_of_running (rstNow_eq_false_of_hostPasses hpass') hs, hpass']
  exact runEvents_atPace n (n + 1) s

/-- A step outside IDLE. -/
theorem step_goesOnByPace (n : Nat) (hs : s.seq ≠ .idle) : GoesOnByPace n step s := by
  have hpass' : ∀ p, (s.atPace p).hostPasses = s.atPace p := fun p =>
    hostPasses_eq_self_of_host hpass rfl
  have hr : ∀ p, (s.atPace p).rstNow = false := fun p => rstNow_eq_false_of_hostPasses (hpass' p)
  cases hseq : s.seq with
  | idle => exact absurd hseq hs
  | running todo fin =>
    rw [GoesOnByPace, step_atPace_of_running hpass n hseq, step_atPace_of_running hpass 0 hseq]
    exact runEvents_eq_first_andThen hseq
  | decode =>
    cases hl : s.latched with
    | error err =>
      refine (raiseErr_goesOnByPace .errIllegal).congr fun p => ?_
      rw [step_of_illegal (hr p) hseq hl, hpass' p]
    | ok i =>
      refine (exec_goesOnByPace hl).congr fun p => ?_
      rw [step_of_latched (hr p) hseq hl, hpass' p]

/-- The step at pace 0 leaves a state at pace 0, in which the response is given, or the program runs and the next
step uses up no act of the host either. -/
theorem step_atPace_zero {t : State} (hs : s.seq ≠ .idle) (h : step (s.atPace 0) = .next t) :
    t.atPace 0 = t ∧ ((t.seq = .idle ∧ t.rspValid = true) ∨
      (t.hostPasses = t ∧ ∃ todo fin, t.seq = .running todo fin)) := by
  have hpass' : (s.atPace 0).hostPasses = s.atPace 0 := hostPasses_eq_self_of_host hpass rfl
  have hframe := step_frame (rstNow_eq_false_of_hostPasses hpass') hs h
  rw [hpass'] at hframe
  have hpace : t.pace = 0 := hframe.pace
  refine ⟨hpace ▸ t.atPace_self, ?_⟩
  rcases hframe.answer with ⟨hidle, hvalid, -⟩ | ⟨hrun, -⟩
  · exact .inl ⟨hidle, hvalid⟩
  · exact .inr ⟨hostPasses_eq_self_of_host hpass hframe.host, hrun⟩

end

/-! ### The statement -/

/-- Settles O57, by induction on the pace: after the step at pace 0 the response is given, or the program runs on
and its further events are a step at the pace less one. -/
theorem stepAtPaceIsStepsAtPaceZero : Obligations.StepAtPaceIsStepsAtPaceZero := by
  suffices ∀ (n : Nat) (s u : State), s.seq ≠ .idle → s.hostPasses = s →
      step (s.atPace n) = .next u →
      ∃ m ≤ n, Sys2Proof.core.run (m + 1) (s.atPace 0) = .next (u.atPace 0) ∧
        (m < n → u.seq = .idle ∧ u.rspValid = true) from fun s u n => this n s u
  intro n
  induction n with
  | zero =>
    intro s u hs hpass h
    obtain ⟨hpace, -⟩ := step_atPace_zero hpass hs h
    exact ⟨0, le_rfl, hpace.symm ▸ run_succ 0 h, nofun⟩
  | succ n ih =>
    intro s u hs hpass h
    obtain ⟨t, ht, hrest⟩ := andThen_inv ((step_goesOnByPace hpass (n + 1) hs).symm.trans h)
    obtain ⟨v, hv, rfl⟩ := outcomeAtPace_inv hrest
    obtain ⟨hpace, ⟨hidle, hvalid⟩ | ⟨hpass', todo, fin, hrun⟩⟩ := step_atPace_zero hpass hs ht
    · obtain rfl := Host.Outcome.next.inj ((runEvents_of_idle hidle _).symm.trans hv)
      rw [State.atPace_atPace, hpace]
      exact ⟨0, Nat.zero_le _, run_succ 0 ht, fun _ => ⟨hidle, hvalid⟩⟩
    · have hnext : step (t.atPace n) = .next (v.atPace n) := by
        rw [step_atPace_of_running hpass' n hrun, hv, outcomeAtPace_next]
      obtain ⟨m, hm, hsteps, hend⟩ := ih t _ (hrun ▸ nofun) hpass' hnext
      rw [hpace] at hsteps
      exact ⟨m + 1, Nat.succ_le_succ hm, (run_succ (m + 1) ht).trans hsteps,
        fun hlt => hend (Nat.lt_of_succ_lt_succ hlt)⟩

end Sys2Proof.Machine
end
